-- ==== Sys2Proof/Word.lean ====
section
/-! DEFINITION. The word types of the AES-SIV engine (00_scope.md R12 to R15). -/

namespace Sys2Proof

/-- A byte, 0 to 255; bit 7 is the most significant (R15). -/
abbrev Byte := BitVec 8

/-- The 16-bit header argument `B` and the sticky error register (R13). -/
abbrev Half := BitVec 16

/-- A block of 16 bytes, held as its big-endian integer `int(b)` (R15):
byte `b[0]` is bits 127 to 120, byte `b[15]` is bits 7 to 0. -/
abbrev Block := BitVec 128

/-- A 32-byte key register, held as its big-endian integer: its byte 0 is bits 255 to 248 (R23). -/
abbrev KeyReg := BitVec 256

end Sys2Proof
end

