-- ==== Sys2Proof/Config.lean ====
section
/-! DEFINITION. The one parameter of the model: the block cipher (00_scope.md R11, 92_eei_decisions.md D9). -/

namespace Sys2Proof

/-- The type of the cipher port's function: a key (a byte string, 16 or 32 bytes when a request is made) and a
block give a block. -/
abbrev Cipher := List Byte → Block → Block

/-- DESIGN CHOICE (safe, log 1): the block cipher `E` of R11 is a constant without a body.
Nothing can be proved of it but what holds for every function of the key and the block, which is
what R11 allows ("No rule assumes anything of `E` except that its result depends on the key and the block alone"). -/
opaque Config.E : Cipher

end Sys2Proof
end

