-- ==== Sys2Proof/Syntax.lean ====
section
/-! DEFINITION. The commands of the engine: one constructor per row of spec/opcode_table.json (30_encoding.md R73). -/

namespace Sys2Proof

/-- One command packet with a defined opcode (R70, R73). Every command carries the header's argument `A` (8 bits), its
argument `B` (16 bits) and the payload, whose length is the header's `LEN`; an argument is named after the use R74 gives
it, and `a` or `b` where R74 gives it none. Reserved values are part of the syntax because the spec gives them a
response (R76): the command's own rule checks them. -/
inductive Instr where
  /-- `0x01 DBL`, R102. -/
  | dbl (a : Byte) (b : Half) (payload : List Byte)
  /-- `0x02 DBLINV`, R104. -/
  | dblinv (a : Byte) (b : Half) (payload : List Byte)
  /-- `0x03 XOR`, R106; `n` is the length of `dst`. -/
  | xor (a : Byte) (n : Half) (payload : List Byte)
  /-- `0x04 PAD`, R108. -/
  | pad (pos : Byte) (b : Half) (payload : List Byte)
  /-- `0x05 SELECT`, R110. -/
  | select (bit : Byte) (b : Half) (payload : List Byte)
  /-- `0x06 CMP`, R112; `n` is the length of the first string. -/
  | cmp (a : Byte) (n : Half) (payload : List Byte)
  /-- `0x07 EQUAL`, R114; `n` is the length of the first string. -/
  | equal (a : Byte) (n : Half) (payload : List Byte)
  /-- `0x10 SIV_INIT`, R131. -/
  | sivInit (kind : Byte) (b : Half) (payload : List Byte)
  /-- `0x11 MAC_INIT`, R132. -/
  | macInit (kind : Byte) (b : Half) (payload : List Byte)
  /-- `0x12 CTR_INIT`, R133. -/
  | ctrInit (a : Byte) (b : Half) (payload : List Byte)
  /-- `0x13 WIPE`, R134. -/
  | wipe (a : Byte) (b : Half) (payload : List Byte)
  /-- `0x14 GET_STATUS`, R135. -/
  | getStatus (a : Byte) (b : Half) (payload : List Byte)
  /-- `0x20 MAC_RESET`, R152 and R172. -/
  | macReset (a : Byte) (b : Half) (payload : List Byte)
  /-- `0x21 MAC_UPDATE`, R153 and R173. -/
  | macUpdate (a : Byte) (b : Half) (payload : List Byte)
  /-- `0x22 MAC_FINISH`, R154 and R175. -/
  | macFinish (a : Byte) (b : Half) (payload : List Byte)
  /-- `0x30 CTR_SETIV`, R192. -/
  | ctrSetiv (a : Byte) (b : Half) (payload : List Byte)
  /-- `0x31 CTR_XOR`, R193. -/
  | ctrXor (a : Byte) (b : Half) (payload : List Byte)
  /-- `0x40 S2V`, R212; `nad` is the number of associated-data items. -/
  | s2v (nad : Byte) (b : Half) (payload : List Byte)
  /-- `0x41 SIV_SEAL`, R217. -/
  | sivSeal (nad : Byte) (b : Half) (payload : List Byte)
  /-- `0x42 SIV_OPEN`, R218. -/
  | sivOpen (nad : Byte) (b : Half) (payload : List Byte)
  deriving DecidableEq, Repr

end Sys2Proof
end

