-- ==== Sys2Proof/WellFormed.lean ====
section
/-! DEFINITION. The header arguments of a command, and which commands can stand in a packet. -/

namespace Sys2Proof

/-- The header's argument `A` (R70). -/
def Instr.argA : Instr → Byte
  | .dbl a _ _ | .dblinv a _ _ | .xor a _ _ | .pad a _ _ | .select a _ _ | .cmp a _ _ | .equal a _ _ => a
  | .sivInit a _ _ | .macInit a _ _ | .ctrInit a _ _ | .wipe a _ _ | .getStatus a _ _ => a
  | .macReset a _ _ | .macUpdate a _ _ | .macFinish a _ _ | .ctrSetiv a _ _ | .ctrXor a _ _ => a
  | .s2v a _ _ | .sivSeal a _ _ | .sivOpen a _ _ => a

/-- The header's argument `B` (R70). -/
def Instr.argB : Instr → Half
  | .dbl _ b _ | .dblinv _ b _ | .xor _ b _ | .pad _ b _ | .select _ b _ | .cmp _ b _ | .equal _ b _ => b
  | .sivInit _ b _ | .macInit _ b _ | .ctrInit _ b _ | .wipe _ b _ | .getStatus _ b _ => b
  | .macReset _ b _ | .macUpdate _ b _ | .macFinish _ b _ | .ctrSetiv _ b _ | .ctrXor _ b _ => b
  | .s2v _ b _ | .sivSeal _ b _ | .sivOpen _ b _ => b

/-- The payload (R70). -/
def Instr.payload : Instr → List Byte
  | .dbl _ _ p | .dblinv _ _ p | .xor _ _ p | .pad _ _ p | .select _ _ p | .cmp _ _ p | .equal _ _ p => p
  | .sivInit _ _ p | .macInit _ _ p | .ctrInit _ _ p | .wipe _ _ p | .getStatus _ _ p => p
  | .macReset _ _ p | .macUpdate _ _ p | .macFinish _ _ p | .ctrSetiv _ _ p | .ctrXor _ _ p => p
  | .s2v _ _ p | .sivSeal _ _ p | .sivOpen _ _ p => p

/-- The one thing the types of `Instr` do not already say: `LEN` is a 32-bit field (R13, R70), so that a packet
carries at most `2^32 - 1` payload bytes. Values of `A`, `B` and `LEN` that a command does not admit are well formed:
the spec gives each of them a response (R76, log 9). -/
abbrev Instr.WellFormed (i : Instr) : Prop := i.payload.length < 2 ^ 32

end Sys2Proof
end

