-- ==== Sys2Proof/Decode.lean ====
section
/-! DEFINITION. Big-endian byte strings, the framing of packets, the decoder and the encoder (30_encoding.md R70 to R73,
20_memory.md R52, R54). -/

namespace Sys2Proof

/-- The `n` low bytes of `v`, most significant first (R54). -/
def beBytes : Nat → Nat → List Byte
  | 0, _ => []
  | n + 1, v => BitVec.ofNat 8 (v / 256 ^ n) :: beBytes n v

/-- The integer a byte string spells big-endian, after the bytes already read into `acc` (R54). -/
def beNatFrom : Nat → List Byte → Nat
  | acc, [] => acc
  | acc, d :: ds => beNatFrom (acc * 256 + d.toNat) ds

/-- The integer a byte string spells, most significant byte first (R15, R54). -/
def beNat (ds : List Byte) : Nat := beNatFrom 0 ds

/-- A command packet: the header's `OP`, `A`, `B` and the `LEN` payload bytes (R70). -/
structure Packet where
  op : Byte
  a : Byte
  b : Half
  payload : List Byte
  deriving DecidableEq, Repr

/-- Why no command is read from the command stream. -/
inductive DecodeError where
  /-- The stream does not (yet) hold a whole packet: fewer than 8 header bytes, or fewer than `LEN` bytes after them
  (R72). -/
  | incomplete
  /-- The opcode byte is not in the table of R73 (R76); the packet's length is known all the same (R72). -/
  | unknownOpcode (op : Byte)
  deriving DecidableEq, Repr

/-- Framing (R70, R72): 8 header bytes, then `LEN` payload bytes; the answer holds the rest of the stream. The length
depends on neither the opcode nor the state. -/
def takePacket : List Byte → Option (Packet × List Byte)
  | op :: a :: b1 :: b0 :: l3 :: l2 :: l1 :: l0 :: rest =>
    if rest.length < beNat [l3, l2, l1, l0] then none
    else some (⟨op, a, BitVec.ofNat 16 (beNat [b1, b0]), rest.take (beNat [l3, l2, l1, l0])⟩,
      rest.drop (beNat [l3, l2, l1, l0]))
  | _ => none

/-- The opcode map of R73. -/
def decodePacket (k : Packet) : Except DecodeError Instr :=
  match k.op with
  | 0x01#8 => .ok (.dbl k.a k.b k.payload)
  | 0x02#8 => .ok (.dblinv k.a k.b k.payload)
  | 0x03#8 => .ok (.xor k.a k.b k.payload)
  | 0x04#8 => .ok (.pad k.a k.b k.payload)
  | 0x05#8 => .ok (.select k.a k.b k.payload)
  | 0x06#8 => .ok (.cmp k.a k.b k.payload)
  | 0x07#8 => .ok (.equal k.a k.b k.payload)
  | 0x10#8 => .ok (.sivInit k.a k.b k.payload)
  | 0x11#8 => .ok (.macInit k.a k.b k.payload)
  | 0x12#8 => .ok (.ctrInit k.a k.b k.payload)
  | 0x13#8 => .ok (.wipe k.a k.b k.payload)
  | 0x14#8 => .ok (.getStatus k.a k.b k.payload)
  | 0x20#8 => .ok (.macReset k.a k.b k.payload)
  | 0x21#8 => .ok (.macUpdate k.a k.b k.payload)
  | 0x22#8 => .ok (.macFinish k.a k.b k.payload)
  | 0x30#8 => .ok (.ctrSetiv k.a k.b k.payload)
  | 0x31#8 => .ok (.ctrXor k.a k.b k.payload)
  | 0x40#8 => .ok (.s2v k.a k.b k.payload)
  | 0x41#8 => .ok (.sivSeal k.a k.b k.payload)
  | 0x42#8 => .ok (.sivOpen k.a k.b k.payload)
  | op => .error (.unknownOpcode op)

/-- The decoder: the next command of a stream of bytes and the rest of the stream. -/
def decode (bytes : List Byte) : Except DecodeError (Instr × List Byte) :=
  match takePacket bytes with
  | none => .error .incomplete
  | some (k, rest) =>
    match decodePacket k with
    | .ok i => .ok (i, rest)
    | .error e => .error e

/-- The opcode byte of a command (R73). -/
def Instr.opcode : Instr → Byte
  | .dbl .. => 0x01
  | .dblinv .. => 0x02
  | .xor .. => 0x03
  | .pad .. => 0x04
  | .select .. => 0x05
  | .cmp .. => 0x06
  | .equal .. => 0x07
  | .sivInit .. => 0x10
  | .macInit .. => 0x11
  | .ctrInit .. => 0x12
  | .wipe .. => 0x13
  | .getStatus .. => 0x14
  | .macReset .. => 0x20
  | .macUpdate .. => 0x21
  | .macFinish .. => 0x22
  | .ctrSetiv .. => 0x30
  | .ctrXor .. => 0x31
  | .s2v .. => 0x40
  | .sivSeal .. => 0x41
  | .sivOpen .. => 0x42

/-- The 8 header bytes of a packet with `len` payload bytes (R70). -/
def packetHeader (op a : Byte) (b : Half) (len : Nat) : List Byte :=
  op :: a :: (beBytes 2 b.toNat ++ beBytes 4 len)

/-- The encoder: the packet of a command (R70). -/
def encode (i : Instr) : List Byte :=
  packetHeader i.opcode i.argA i.argB i.payload.length ++ i.payload

/-- The bytes of the table word `w` of `nbits` bits (DEDUCED, log 10). spec/opcode_table.json reads the 8-byte header
as ONE 64-bit word with `OP` in bits 63 to 56, so the word is laid out big-endian; bits from 64 on, where a row has any,
are the payload's bytes in order, and a payload byte that the row gives no bits is 0. -/
def tableBytes (nbits w : Nat) : List Byte :=
  beBytes 8 (w % 2 ^ nbits) ++
    (List.range (w % 2 ^ nbits % 2 ^ 32)).map fun k => BitVec.ofNat 8 ((w % 2 ^ nbits) >>> (64 + 8 * k))

/-- The instruction the decoder reads from the table word `w`. -/
def decodeTableWord (nbits w : Nat) : Option Instr :=
  match decode (tableBytes nbits w) with
  | .ok (i, _) => some i
  | .error _ => none

end Sys2Proof
end

