-- ==== Sys2Proof/Machine/State.lean ====
section
/-! DEFINITION. The state of one engine (10_state.md R20 to R36), its reset value, and why a step could stop. -/

namespace Sys2Proof.Machine

/-- The two MAC kinds (R2, R23). The register `MKIND` is an `Option MacKind`: the spec's None is `none`. -/
inductive MacKind where
  | cmac
  | pmac
  deriving DecidableEq, Repr

/-- The legal values of `KMACLEN` and `KCTRLEN` (R23): no key, 16 bytes, 32 bytes. -/
inductive KeyLen where
  | noKey
  | bytes16
  | bytes32
  deriving DecidableEq, Repr

/-- `MST`, the state of the MAC unit (R31). -/
inductive MacState where
  | fresh
  | accumulating
  | finished
  deriving DecidableEq, Repr

/-- `CST`, the state of the CTR unit (R32). -/
inductive CtrState where
  | idle
  | streaming
  deriving DecidableEq, Repr

/-- Which key register a request on the cipher port selects (R55). -/
inductive KeySel where
  | mac
  | ctr
  deriving DecidableEq, Repr

/-- One request on the cipher port (R55). -/
structure CipherReq where
  key : KeySel
  block : Block
  deriving DecidableEq, Repr

/-- The error status codes of 60_exceptions.md R241 (codes 1 to 14). -/
inductive Err where
  | integrity
  | keyLength
  | tooManyAd
  | truncated
  | ivLength
  | ctrOverflow
  | macFinished
  | pmacLimit
  | noKey
  | ctrState
  | opcode
  | badArg
  | length
  | framing
  deriving DecidableEq, Repr

/-- The whole state (R20) and, as the model's own fields, the three ports of R50. The block registers are the 42 that R21
names, `L` counted as 31; R21 states their number as 43 and names no other (DEDUCED, log 17: the model follows the
names, which R24 to R28 and R36 repeat). -/
structure State where
  /-- `KMAC` (R23). -/
  kmac : KeyReg
  /-- `KMACLEN` (R23). -/
  kmacLen : KeyLen
  /-- `KCTR` (R23). -/
  kctr : KeyReg
  /-- `KCTRLEN` (R23). -/
  kctrLen : KeyLen
  /-- `MKIND` (R23). -/
  mkind : Option MacKind
  /-- `K1` (R24). -/
  k1 : Block
  /-- `K2` (R24). -/
  k2 : Block
  /-- `CHAIN` (R24). -/
  chain : Block
  /-- `BUF` (R25). -/
  buf : Block
  /-- `POS` (R25). -/
  pos : Fin 17
  /-- `MST` (R31). -/
  mst : MacState
  /-- `L[0]` to `L[30]` (R26). -/
  lTab : Vector Block 31
  /-- `LINV` (R26). -/
  linv : Block
  /-- `OFFSET` (R26). -/
  offset : Block
  /-- `TAG` (R26). -/
  tag : Block
  /-- `CNT` (R26). -/
  cnt : BitVec 32
  /-- `CTRBLK` (R27). -/
  ctrblk : Block
  /-- `KS` (R27). -/
  ks : Block
  /-- `KPOS` (R27). -/
  kpos : Fin 17
  /-- `CST` (R32). -/
  cst : CtrState
  /-- `D` (R28). -/
  d : Block
  /-- `T` (R28). -/
  t : Block
  /-- `P` (R28). -/
  p : List Byte
  /-- `LASTERR` (R29). -/
  lasterr : BitVec 8
  /-- `ESTICKY` (R29). -/
  esticky : BitVec 16
  /-- MODEL FIELD (log 2): command stream bytes not consumed yet, first byte first (R50, R51). -/
  cmdStream : List Byte
  /-- MODEL FIELD (log 3): response stream bytes the host has not taken yet, first byte first (R50, R53). -/
  respStream : List Byte
  /-- MODEL FIELD (log 4): the requests made on the cipher port so far, oldest first (R55). -/
  cipherPort : List CipherReq
  deriving DecidableEq, Repr

/-- The machine right after reset (R36, R270): every register zero but `KPOS = 16`. The three ports are empty
(DESIGN CHOICE, log 2, 3, 4, 6: the host has presented nothing yet). -/
def State.reset : State where
  kmac := 0
  kmacLen := .noKey
  kctr := 0
  kctrLen := .noKey
  mkind := none
  k1 := 0
  k2 := 0
  chain := 0
  buf := 0
  pos := 0
  mst := .fresh
  lTab := Vector.replicate 31 0
  linv := 0
  offset := 0
  tag := 0
  cnt := 0
  ctrblk := 0
  ks := 0
  kpos := 16
  cst := .idle
  d := 0
  t := 0
  p := []
  lasterr := 0
  esticky := 0
  cmdStream := []
  respStream := []
  cipherPort := []

/-- Why a step stops the machine. There is no such reason (log 12): every error of the spec is a response, after which
"the engine is ready for the next command" (60_exceptions.md R240). Safe. -/
inductive Fault where
  deriving DecidableEq, Repr

/-- Why a step has no meaning. -/
inductive Refusal where
  /-- An instruction whose meaning is not written yet, by its mnemonic: raised by an arm of `exec` alone, and by no arm
  at present (log 12). Safe: nothing can be proved of such a step but that it stops. -/
  | notModelled (mnemonic : String)
  deriving DecidableEq, Repr

end Sys2Proof.Machine
end

