-- ==== Sys2Proof/Machine/Flags.lean ====
section
/-! DEFINITION. The codes of the state enumerations, of the errors, the error log's bits and the status block
(10_state.md R23, R29, R31, R32, R35; 60_exceptions.md R241). -/

namespace Sys2Proof.Machine

/-- The code of `MKIND`: None 0, CMAC 1, PMAC 2 (R23). -/
def mkindCode : Option MacKind → Byte
  | none => 0
  | some .cmac => 1
  | some .pmac => 2

/-- The number of bytes of a loaded key (R23). -/
def keyLenBytes : KeyLen → Nat
  | .noKey => 0
  | .bytes16 => 16
  | .bytes32 => 32

/-- The code of `MST` (R31). -/
def mstCode : MacState → Byte
  | .fresh => 0
  | .accumulating => 1
  | .finished => 2

/-- The code of `CST` (R32). -/
def cstCode : CtrState → Byte
  | .idle => 0
  | .streaming => 1

/-- The status code of an error (R241). -/
def errCode : Err → Byte
  | .integrity => 0x01
  | .keyLength => 0x02
  | .tooManyAd => 0x03
  | .truncated => 0x04
  | .ivLength => 0x05
  | .ctrOverflow => 0x06
  | .macFinished => 0x07
  | .pmacLimit => 0x08
  | .noKey => 0x09
  | .ctrState => 0x0a
  | .opcode => 0x0b
  | .badArg => 0x0c
  | .length => 0x0d
  | .framing => 0x0e

/-- The status code `OK` (R241). -/
def okCode : Byte := 0x00

/-- The bit of `ESTICKY` that an error sets: `1 << ST` (R29, R245). -/
def stickyBit (e : Err) : BitVec 16 := 1#16 <<< (errCode e).toNat

/-- The 14-byte status block of R35, in the order of its table. -/
def statusBlock (s : State) : List Byte :=
  [mkindCode s.mkind, BitVec.ofNat 8 (keyLenBytes s.kmacLen), BitVec.ofNat 8 (keyLenBytes s.kctrLen), mstCode s.mst,
    BitVec.ofNat 8 s.pos.val, cstCode s.cst, BitVec.ofNat 8 s.kpos.val, s.lasterr] ++
    beBytes 2 s.esticky.toNat ++ beBytes 4 s.cnt.toNat

end Sys2Proof.Machine
end

