-- ==== Sys2Proof/Machine/Ops.lean ====
section
/-! DEFINITION. The named operations every command shares: bytes of blocks, the cipher port, the error log, the
response, taking an error, and what the host can do between steps. -/

namespace Sys2Proof.Machine

/-! ### Byte strings and blocks (00_scope.md R14, R15) -/

/-- The 16 bytes of a block, index 0 first (R14, R15). -/
def blockBytes (b : Block) : List Byte := beBytes 16 b.toNat

/-- `blk`: the block a byte string of 16 bytes spells (R15). -/
def blockOf (bytes : List Byte) : Block := BitVec.ofNat 128 (beNat bytes)

/-- `b[i]`, the byte at index `i` of a block (R14). -/
def blockByte (b : Block) (i : Nat) : Byte := (blockBytes b).getD i 0

/-- `b[i] <- d`, the write of one byte of a block register (R17). -/
def setBlockByte (b : Block) (i : Nat) (d : Byte) : Block := blockOf ((blockBytes b).set i d)

/-- `s || 0^(n - len(s))`: a byte string filled up with zero bytes (R14). -/
def zeroFill (n : Nat) (bytes : List Byte) : List Byte := bytes ++ List.replicate (n - bytes.length) 0

/-- The 32 bytes of a key register. -/
def keyRegBytes (k : KeyReg) : List Byte := beBytes 32 k.toNat

/-- `key || 0^(32 - len(key))` as a key register (R132, R133). -/
def keyRegOf (key : List Byte) : KeyReg := BitVec.ofNat 256 (beNat (zeroFill 32 key))

/-- The length register's value for a key of `n` bytes (R132, R133). -/
def keyLenOf (n : Nat) : KeyLen := if n = 16 then .bytes16 else if n = 32 then .bytes32 else .noKey

/-! ### The outcome of a procedure (00_scope.md R17, R18) -/

/-- How a procedure ends: it answers a value, or it raises an error; in both cases with the state it leaves (R18: "a
`raise` inside a procedure ends the whole command"). -/
inductive Proc (α : Type) where
  | ok (v : α) (s : State)
  | raise (e : Err) (s : State)

/-- The next statement of a procedure, run when no error was raised before it (R18). -/
def andThen {α β : Type} (m : Proc α) (f : α → State → Proc β) : Proc β :=
  match m with
  | .ok v s => f v s
  | .raise e s => .raise e s

/-! ### The cipher port (20_memory.md R55) -/

/-- The loaded prefix of the selected key register (R23, R55). -/
def keyBytes (sel : KeySel) (s : State) : List Byte :=
  match sel with
  | .mac => (keyRegBytes s.kmac).take (keyLenBytes s.kmacLen)
  | .ctr => (keyRegBytes s.kctr).take (keyLenBytes s.kctrLen)

/-- One request on the cipher port, `E(KMAC, b)` or `E(KCTR, b)` (R17, R55): the answer, and the state with the request
recorded. -/
def encipher (E : Cipher) (sel : KeySel) (b : Block) (s : State) : Block × State :=
  (E (keyBytes sel s) b, { s with cipherPort := s.cipherPort ++ [⟨sel, b⟩] })

/-! ### Responses and errors (30_encoding.md R71, 60_exceptions.md R245, R250) -/

/-- A response packet: `ST`, `OP`, two zero bytes, `RLEN`, the response payload (R71). -/
def responsePacket (st op : Byte) (out : List Byte) : List Byte :=
  [st, op, 0, 0] ++ beBytes 4 out.length ++ out

/-- One response packet goes out on the response stream (R53, R71). -/
def respond (st op : Byte) (out : List Byte) (s : State) : State :=
  { s with respStream := s.respStream ++ responsePacket st op out }

/-- The error log takes an error: `LASTERR <- ST ; ESTICKY <- ESTICKY | (1 << ST)` (R245). -/
def logError (e : Err) (s : State) : State :=
  { s with lasterr := errCode e, esticky := s.esticky ||| stickyBit e }

/-- Taking an error, the engine's one kind of exception (R240, R245, R250): the log takes it and the response is the 8
bytes `ST OP 0 0 0 0 0 0`. There is no handler, no saved state and no return from an error (R240, R252). -/
def takeError (op : Byte) (e : Err) (s : State) : State := respond (errCode e) op [] (logError e s)

/-- The end of a command with opcode byte `op`: status `OK` and the payload `out`, or the error raised (R17). -/
def complete (op : Byte) : Proc (List Byte) → Host.Outcome State Fault Refusal
  | .ok out s => .next (respond okCode op out s)
  | .raise e s => .next (takeError op e s)

/-! ### Registers to their reset values (41_config.md R134, 70_reset_and_hazards.md R270) -/

/-- Every register of R20 except the error log to its reset value; the ports are no registers (R134). -/
def wipeRegisters (s : State) : State :=
  { State.reset with
    lasterr := s.lasterr, esticky := s.esticky
    cmdStream := s.cmdStream, respStream := s.respStream, cipherPort := s.cipherPort }

/-! ### What the host can do between two steps (log 7) -/

/-- The host presents bytes on the command stream (R9, R50). -/
def hostSend (bytes : List Byte) (s : State) : State := { s with cmdStream := s.cmdStream ++ bytes }

/-- The host takes the first `n` bytes of the response stream (R10, R50). -/
def hostTake (n : Nat) (s : State) : State := { s with respStream := s.respStream.drop n }

/-- The external reset, applied between steps (R270): every register at its reset value, the error log too. DESIGN
CHOICE (log 7): bytes in transit on the streams belong to the transport and stay. -/
def hostReset (s : State) : State :=
  { State.reset with
    cmdStream := s.cmdStream, respStream := s.respStream, cipherPort := s.cipherPort }

end Sys2Proof.Machine
end

