-- ==== Sys2Proof/Machine/Operands.lean ====
section
/-! DEFINITION. Operand assembly: how a command takes its operands from `A`, `B` and the payload (30_encoding.md R74, R75;
45_siv.md R216). -/

namespace Sys2Proof.Machine

/-- The block size `BS` in bytes (00_scope.md R12). -/
def blockSize : Nat := 16

/-- `MAX_AD`, the most associated-data items (00_scope.md R12). -/
def maxAd : Nat := 126

/-- The longest plaintext whose sealed message fits in a response: `2^32 - 17` bytes (45_siv.md R217). -/
def maxSealPlaintext : Nat := 2 ^ 32 - 17

/-- The argument `A` of a key load: 1 is CMAC, 2 is PMAC, anything else is reserved (R74, R76). -/
def kindOf (a : Byte) : Option MacKind :=
  if a = 1 then some .cmac else if a = 2 then some .pmac else none

/-- The items of a framed vector, each a 4-byte big-endian length and that many bytes, and the rest of the payload;
`none` where a length or an item runs past the payload (R75). -/
def parseItems : Nat → List Byte → Option (List (List Byte) × List Byte)
  | 0, bytes => some ([], bytes)
  | n + 1, l0 :: l1 :: l2 :: l3 :: rest =>
    if rest.length < beNat [l0, l1, l2, l3] then none
    else
      match parseItems n (rest.drop (beNat [l0, l1, l2, l3])) with
      | some (items, final) => some (rest.take (beNat [l0, l1, l2, l3]) :: items, final)
      | none => none
  | _ + 1, _ => none

/-- `parse_vector(A, payload)`, a stage 1 check that reads no state (R75). -/
def parseVector (a : Byte) (payload : List Byte) : Except Err (List (List Byte) × List Byte) :=
  if a.toNat > maxAd then .error .tooManyAd
  else
    match parseItems a.toNat payload with
    | some r => .ok r
    | none => .error .framing

/-- `split(key)`: the MAC key is the first half of the master key, the CTR key the second (R216). -/
def splitKey (key : List Byte) : List Byte × List Byte :=
  (key.take (key.length / 2), key.drop (key.length / 2))

end Sys2Proof.Machine
end

