-- ==== Sys2Proof/Machine/Ctr.lean ====
section
/-! DEFINITION. The CTR unit and the CTR family (44_ctr.md). -/

namespace Sys2Proof.Machine

/-- `ctr_clear()` (R191): counter and keystream wiped, no unused keystream byte, Idle; the key is kept. -/
def ctrClear (s : State) : State := { s with ctrblk := 0, ks := 0, kpos := 16, cst := .idle }

/-- `ctr_setiv(iv)` (R192). -/
def ctrSetiv (iv : Block) (s : State) : State := { s with ctrblk := iv, ks := 0, kpos := 16, cst := .streaming }

/-- `ctr_next_block()` (R194): overflow when the counter is all-`ff`, else one keystream block and the increment over
the whole block. -/
def ctrNextBlock (E : Cipher) (s : State) : Proc Unit :=
  if s.ctrblk = BitVec.allOnes 128 then .raise .ctrOverflow (ctrClear s)
  else
    let r := encipher E .ctr s.ctrblk s
    .ok () { r.2 with ks := r.1, ctrblk := s.ctrblk + 1, kpos := 0 }

/-- `ctr_xor(s)` (R193): each byte is XORed with the next keystream byte; a block is made when none is left. -/
def ctrXor (E : Cipher) : List Byte → State → Proc (List Byte)
  | [], s => .ok [] s
  | d :: ds, s =>
    andThen (if s.kpos = 16 then ctrNextBlock E s else .ok () s) fun _ s =>
      andThen (ctrXor E ds { s with kpos := s.kpos + 1 }) fun out s' =>
        .ok ((d ^^^ blockByte s.ks s.kpos.val) :: out) s'

/-- `CTR_SETIV` (R192). -/
def ctrSetivCommand (a : Byte) (b : Half) (payload : List Byte) (s : State) : Proc (List Byte) :=
  if a ≠ 0 ∨ b ≠ 0 then .raise .badArg s
  else if payload.length ≠ blockSize then .raise .ivLength s
  else if s.kctrLen = .noKey then .raise .noKey s
  else .ok [] (ctrSetiv (blockOf payload) s)

/-- `CTR_XOR` (R193). -/
def ctrXorCommand (E : Cipher) (a : Byte) (b : Half) (payload : List Byte) (s : State) : Proc (List Byte) :=
  if a ≠ 0 ∨ b ≠ 0 then .raise .badArg s
  else if s.kctrLen = .noKey then .raise .noKey s
  else if s.cst = .idle then .raise .ctrState s
  else ctrXor E payload s

/-- The meaning of `CTR_SETIV` (R192). -/
def execCtrSetiv (a : Byte) (b : Half) (payload : List Byte) (s : State) : Host.Outcome State Fault Refusal :=
  complete 0x30 (ctrSetivCommand a b payload s)

/-- The meaning of `CTR_XOR` (R193). -/
def execCtrXor (a : Byte) (b : Half) (payload : List Byte) (s : State) : Host.Outcome State Fault Refusal :=
  complete 0x31 (ctrXorCommand Config.E a b payload s)

end Sys2Proof.Machine
end

