-- ==== Sys2Proof/Machine/Helpers.lean ====
section
/-! DEFINITION. The helper functions and the helper family (40_helpers.md). -/

namespace Sys2Proof.Machine

/-! ### The functions -/

/-- `dbl` (R101): shift left by one, and `0x87` times the dropped bit XORed in; no branch on the carry. -/
def dbl (b : Block) : Block := (b <<< 1) ^^^ (0x87#128 * (b >>> 127))

/-- `dblinv` (R103, 90_conflicts.md C3): shift right by one, and `2^127 + 0x43` times the dropped bit XORed in. -/
def dblinv (b : Block) : Block :=
  (b >>> 1) ^^^ (0x80000000000000000000000000000043#128 * (b &&& 1#128))

/-- `xor(dst, src)` of byte strings, the tail of a longer `dst` unchanged (R105). -/
def xorBytes : List Byte → List Byte → List Byte
  | d :: ds, x :: xs => (d ^^^ x) :: xorBytes ds xs
  | ds, _ => ds

/-- `pad(b, pos)` (R107): `0x80` at index `pos`, zero bytes after it. -/
def pad (b : Block) (pos : Nat) : Block := blockOf (zeroFill 16 ((blockBytes b).take pos ++ [0x80#8]))

/-- `pad(s)` for a byte string shorter than a block (R107). -/
def padString (bytes : List Byte) : Block := pad (blockOf (zeroFill 16 bytes)) bytes.length

/-- `select_8(bit, a, b)` by mask arithmetic (R109). -/
def select8 (bit a b : Byte) : Byte := (~~~(bit - 1) &&& a) ||| ((bit - 1) &&& b)

/-- `select_8` at every index of two byte strings of equal length (R110). -/
def selectBytes (bit : Byte) : List Byte → List Byte → List Byte
  | a :: as, b :: bs => select8 bit a b :: selectBytes bit as bs
  | _, _ => []

/-- The OR over all indices of the XOR differences; every byte is visited (R111). -/
def orDifferences : List Byte → List Byte → Byte
  | a :: as, b :: bs => (a ^^^ b) ||| orDifferences as bs
  | _, _ => 0

/-- `compare(a, b)` (R111): 1 for equal strings, 0 for different ones or different lengths. -/
def compareBytes (a b : List Byte) : Byte :=
  if a.length = b.length ∧ orDifferences a b = 0 then 1 else 0

/-- `equal(a, b)` (R113): `compare`, but 0 when either string is empty. -/
def equalBytes (a b : List Byte) : Byte :=
  if a.length = 0 ∨ b.length = 0 then 0 else compareBytes a b

/-! ### The commands -/

/-- `DBL` (R102). -/
def dblCommand (a : Byte) (b : Half) (payload : List Byte) (s : State) : Proc (List Byte) :=
  if a ≠ 0 ∨ b ≠ 0 then .raise .badArg s
  else if payload.length ≠ blockSize then .raise .length s
  else .ok (blockBytes (dbl (blockOf payload))) s

/-- `DBLINV` (R104). -/
def dblinvCommand (a : Byte) (b : Half) (payload : List Byte) (s : State) : Proc (List Byte) :=
  if a ≠ 0 ∨ b ≠ 0 then .raise .badArg s
  else if payload.length ≠ blockSize then .raise .length s
  else .ok (blockBytes (dblinv (blockOf payload))) s

/-- `XOR` (R106). -/
def xorCommand (a : Byte) (n : Half) (payload : List Byte) (s : State) : Proc (List Byte) :=
  if a ≠ 0 then .raise .badArg s
  else if n.toNat > payload.length then .raise .badArg s
  else if (payload.drop n.toNat).length > (payload.take n.toNat).length then .raise .length s
  else .ok (xorBytes (payload.take n.toNat) (payload.drop n.toNat)) s

/-- `PAD` (R108). -/
def padCommand (pos : Byte) (b : Half) (payload : List Byte) (s : State) : Proc (List Byte) :=
  if b ≠ 0 then .raise .badArg s
  else if pos.toNat > 15 then .raise .badArg s
  else if payload.length ≠ blockSize then .raise .length s
  else .ok (blockBytes (pad (blockOf payload) pos.toNat)) s

/-- `SELECT` (R110). -/
def selectCommand (bit : Byte) (b : Half) (payload : List Byte) (s : State) : Proc (List Byte) :=
  if b ≠ 0 then .raise .badArg s
  else if bit.toNat > 1 then .raise .badArg s
  else if payload.length % 2 = 1 then .raise .length s
  else .ok (selectBytes bit (payload.take (payload.length / 2)) (payload.drop (payload.length / 2))) s

/-- `CMP` (R112). -/
def cmpCommand (a : Byte) (n : Half) (payload : List Byte) (s : State) : Proc (List Byte) :=
  if a ≠ 0 then .raise .badArg s
  else if n.toNat > payload.length then .raise .badArg s
  else .ok [compareBytes (payload.take n.toNat) (payload.drop n.toNat)] s

/-- `EQUAL` (R114). -/
def equalCommand (a : Byte) (n : Half) (payload : List Byte) (s : State) : Proc (List Byte) :=
  if a ≠ 0 then .raise .badArg s
  else if n.toNat > payload.length then .raise .badArg s
  else .ok [equalBytes (payload.take n.toNat) (payload.drop n.toNat)] s

/-- The meaning of `DBL` (R102). -/
def execDbl (a : Byte) (b : Half) (payload : List Byte) (s : State) : Host.Outcome State Fault Refusal :=
  complete 0x01 (dblCommand a b payload s)

/-- The meaning of `DBLINV` (R104). -/
def execDblinv (a : Byte) (b : Half) (payload : List Byte) (s : State) : Host.Outcome State Fault Refusal :=
  complete 0x02 (dblinvCommand a b payload s)

/-- The meaning of `XOR` (R106). -/
def execXor (a : Byte) (n : Half) (payload : List Byte) (s : State) : Host.Outcome State Fault Refusal :=
  complete 0x03 (xorCommand a n payload s)

/-- The meaning of `PAD` (R108). -/
def execPad (pos : Byte) (b : Half) (payload : List Byte) (s : State) : Host.Outcome State Fault Refusal :=
  complete 0x04 (padCommand pos b payload s)

/-- The meaning of `SELECT` (R110). -/
def execSelect (bit : Byte) (b : Half) (payload : List Byte) (s : State) : Host.Outcome State Fault Refusal :=
  complete 0x05 (selectCommand bit b payload s)

/-- The meaning of `CMP` (R112). -/
def execCmp (a : Byte) (n : Half) (payload : List Byte) (s : State) : Host.Outcome State Fault Refusal :=
  complete 0x06 (cmpCommand a n payload s)

/-- The meaning of `EQUAL` (R114). -/
def execEqual (a : Byte) (n : Half) (payload : List Byte) (s : State) : Host.Outcome State Fault Refusal :=
  complete 0x07 (equalCommand a n payload s)

end Sys2Proof.Machine
end

