-- ==== Sys2Proof/Machine/Cmac.lean ====
section
/-! DEFINITION. The MAC unit in CMAC kind, and the reset both kinds share (42_cmac.md). -/

namespace Sys2Proof.Machine

/-- `mac_reset()`, for both kinds (R152, R172): the accumulators are wiped, `MST` is Fresh; keys and key-dependent
constants stay. -/
def macReset (s : State) : State :=
  { s with chain := 0, buf := 0, pos := 0, offset := 0, tag := 0, cnt := 0, mst := .fresh }

/-- `cmac_construct()` (R151): the sub-keys from one request on the zero block. `Lz` is a transient. -/
def cmacConstruct (E : Cipher) (s : State) : State :=
  let r := encipher E .mac 0 s
  { r.2 with k1 := dbl r.1, k2 := dbl (dbl r.1) }

/-- The chaining step of R153: `CHAIN <- E(KMAC, CHAIN xor BUF)`, and the buffer is empty again. -/
def cmacBlock (E : Cipher) (s : State) : State :=
  let r := encipher E .mac (s.chain ^^^ s.buf) s
  { r.2 with chain := r.1, buf := 0, pos := 0 }

/-- `BUF[POS] <- d ; POS <- POS + 1` (R153, R173), for `POS` below 16. -/
def bufferByte (d : Byte) (s : State) : State :=
  { s with buf := setBlockByte s.buf s.pos.val d, pos := s.pos + 1 }

/-- One message byte in CMAC kind: a full buffer is processed first, because one more byte follows (R153). -/
def cmacAbsorb (E : Cipher) (d : Byte) (s : State) : State :=
  bufferByte d (if s.pos = 16 then cmacBlock E s else s)

/-- The loop of `mac_update` in CMAC kind (R153). -/
def cmacAbsorbAll (E : Cipher) : List Byte → State → State
  | [], s => s
  | d :: ds, s => cmacAbsorbAll E ds (cmacAbsorb E d s)

/-- `mac_update(s)` in CMAC kind (R153). -/
def cmacUpdate (E : Cipher) (bytes : List Byte) (s : State) : State :=
  { cmacAbsorbAll E bytes s with mst := .accumulating }

/-- The final block `X` of R154: the full buffer with `K1`, or the padded one with `K2`. -/
def cmacLastBlock (s : State) : Block :=
  if s.pos = 16 then s.buf ^^^ s.k1 else pad s.buf s.pos.val ^^^ s.k2

/-- `mac_finish()` in CMAC kind (R154): the tag, and the wiped accumulators. -/
def cmacFinish (E : Cipher) (s : State) : Block × State :=
  let r := encipher E .mac (s.chain ^^^ cmacLastBlock s) s
  (r.1, { r.2 with chain := 0, buf := 0, pos := 0, mst := .finished })

end Sys2Proof.Machine
end

