-- ==== Sys2Proof/Machine/Pmac.lean ====
section
/-! DEFINITION. The MAC unit in PMAC kind (43_pmac.md). -/

namespace Sys2Proof.Machine

/-- The trailing zero bits of a number, looking at no more than the given count of bits (00_scope.md R16). -/
def ctzWithin : Nat → Nat → Nat
  | 0, _ => 0
  | fuel + 1, n => if n % 2 = 1 then 0 else ctzWithin fuel (n / 2) + 1

/-- `ctz(n)` for `n >= 1`: the largest `j` with `2^j` dividing `n` (00_scope.md R16). -/
def ctz (n : Nat) : Nat := ctzWithin n n

/-- The first `n` doublings of a block, itself the first (R171). -/
def doublings : Nat → Block → List Block
  | 0, _ => []
  | n + 1, b => b :: doublings n (dbl b)

/-- `doublings n` holds `n` blocks: the table's length is the count it was built for. -/
theorem doublings_length (n : Nat) (b : Block) : (doublings n b).length = n := by
  induction n generalizing b with
  | zero => rfl
  | succ n ih => simp [doublings, ih]

/-- The table `L[0]` to `L[30]` grown from `L[0]` (R171). -/
def lTable (l0 : Block) : Vector Block 31 := ⟨(doublings 31 l0).toArray, by simp [doublings_length]⟩

/-- `pmac_construct()` (R171): the table and `LINV` from one request on the zero block. -/
def pmacConstruct (E : Cipher) (s : State) : State :=
  let r := encipher E .mac 0 s
  { r.2 with lTab := lTable r.1, linv := dblinv r.1 }

/-- `pmac_limit()` (R176): the digest is abandoned and the error raised. -/
def pmacLimit (s : State) : Proc Unit :=
  .raise .pmacLimit { s with buf := 0, pos := 0, offset := 0, tag := 0, cnt := 0, mst := .finished }

/-- `pmac_block()` (R174): one full, non-final block; the table index is `ctz(CNT + 1)`. -/
def pmacBlock (E : Cipher) (s : State) : Proc Unit :=
  if h : ctz (s.cnt.toNat + 1) < 31 then
    let offset := s.offset ^^^ s.lTab[ctz (s.cnt.toNat + 1)]
    let r := encipher E .mac (offset ^^^ s.buf) s
    .ok () { r.2 with offset := offset, tag := s.tag ^^^ r.1, cnt := s.cnt + 1, buf := 0, pos := 0 }
  else pmacLimit s

/-- The loop of `mac_update` in PMAC kind (R173); a full buffer is processed when a further byte arrives. -/
def pmacAbsorbAll (E : Cipher) : List Byte → State → Proc Unit
  | [], s => .ok () s
  | d :: ds, s =>
    andThen (if s.pos = 16 then pmacBlock E s else .ok () s) fun _ s => pmacAbsorbAll E ds (bufferByte d s)

/-- `mac_update(s)` in PMAC kind (R173). -/
def pmacUpdate (E : Cipher) (bytes : List Byte) (s : State) : Proc Unit :=
  andThen (pmacAbsorbAll E bytes s) fun _ s => .ok () { s with mst := .accumulating }

/-- What the final block adds to `TAG` (R175): the full buffer with `LINV`, or the padded one. -/
def pmacLastBlock (s : State) : Block :=
  if s.pos = 16 then s.buf ^^^ s.linv else pad s.buf s.pos.val

/-- `mac_finish()` in PMAC kind (R175): the tag, and the wiped accumulators. -/
def pmacFinish (E : Cipher) (s : State) : Block × State :=
  let r := encipher E .mac (s.tag ^^^ pmacLastBlock s) s
  (r.1, { r.2 with buf := 0, pos := 0, offset := 0, tag := 0, cnt := 0, mst := .finished })

end Sys2Proof.Machine
end

