-- ==== Sys2Proof/Machine/Mac.lean ====
section
/-! DEFINITION. The MAC family: the loaded kind decides the meaning (30_encoding.md R73; 42_cmac.md R152 to R156; 43_pmac.md). -/

namespace Sys2Proof.Machine

/-- `mac_update(s)` of the given kind (R153, R173). -/
def macUpdate (E : Cipher) (kind : MacKind) (bytes : List Byte) (s : State) : Proc Unit :=
  match kind with
  | .cmac => .ok () (cmacUpdate E bytes s)
  | .pmac => pmacUpdate E bytes s

/-- `mac_finish()` of the given kind (R154, R175). -/
def macFinish (E : Cipher) (kind : MacKind) (s : State) : Block × State :=
  match kind with
  | .cmac => cmacFinish E s
  | .pmac => pmacFinish E s

/-- `mac(s)`, the single-shot procedure (R155): reset, update, finish. -/
def macOf (E : Cipher) (kind : MacKind) (bytes : List Byte) (s : State) : Proc Block :=
  andThen (macUpdate E kind bytes (macReset s)) fun _ s => .ok (macFinish E kind s).1 (macFinish E kind s).2

/-- `MAC_RESET` (R152, R172). -/
def macResetCommand (a : Byte) (b : Half) (payload : List Byte) (s : State) : Proc (List Byte) :=
  if a ≠ 0 ∨ b ≠ 0 then .raise .badArg s
  else if payload.length ≠ 0 then .raise .length s
  else
    match s.mkind with
    | none => .raise .noKey s
    | some _ => .ok [] (macReset s)

/-- `MAC_UPDATE` (R153, R173). -/
def macUpdateCommand (E : Cipher) (a : Byte) (b : Half) (payload : List Byte) (s : State) : Proc (List Byte) :=
  if a ≠ 0 ∨ b ≠ 0 then .raise .badArg s
  else
    match s.mkind with
    | none => .raise .noKey s
    | some kind =>
      if s.mst = .finished then .raise .macFinished s
      else andThen (macUpdate E kind payload s) fun _ s => .ok [] s

/-- `MAC_FINISH` (R154, R175). -/
def macFinishCommand (E : Cipher) (a : Byte) (b : Half) (payload : List Byte) (s : State) : Proc (List Byte) :=
  if a ≠ 0 ∨ b ≠ 0 then .raise .badArg s
  else if payload.length ≠ 0 then .raise .length s
  else
    match s.mkind with
    | none => .raise .noKey s
    | some kind =>
      if s.mst = .finished then .raise .macFinished s
      else .ok (blockBytes (macFinish E kind s).1) (macFinish E kind s).2

/-- The meaning of `MAC_RESET` (R152, R172). -/
def execMacReset (a : Byte) (b : Half) (payload : List Byte) (s : State) : Host.Outcome State Fault Refusal :=
  complete 0x20 (macResetCommand a b payload s)

/-- The meaning of `MAC_UPDATE` (R153, R173). -/
def execMacUpdate (a : Byte) (b : Half) (payload : List Byte) (s : State) : Host.Outcome State Fault Refusal :=
  complete 0x21 (macUpdateCommand Config.E a b payload s)

/-- The meaning of `MAC_FINISH` (R154, R175). -/
def execMacFinish (a : Byte) (b : Half) (payload : List Byte) (s : State) : Host.Outcome State Fault Refusal :=
  complete 0x22 (macFinishCommand Config.E a b payload s)

end Sys2Proof.Machine
end

