-- ==== Sys2Proof/Machine/KeyLoad.lean ====
section
/-! DEFINITION. The configuration family: key loads, `WIPE`, `GET_STATUS` (41_config.md). -/

namespace Sys2Proof.Machine

/-- `mac_load(kind, key)` (R132): the key, the constants of the kind alone, a fresh MAC unit. -/
def macLoad (E : Cipher) (kind : MacKind) (key : List Byte) (s : State) : State :=
  let loaded : State :=
    { s with
      kmac := keyRegOf key, kmacLen := keyLenOf key.length, mkind := some kind
      k1 := 0, k2 := 0, lTab := Vector.replicate 31 0, linv := 0 }
  macReset
    (match kind with
      | .cmac => cmacConstruct E loaded
      | .pmac => pmacConstruct E loaded)

/-- `ctr_load(key)` (R133). -/
def ctrLoad (key : List Byte) (s : State) : State :=
  ctrClear { s with kctr := keyRegOf key, kctrLen := keyLenOf key.length }

/-- `SIV_INIT` (R131). -/
def sivInitCommand (E : Cipher) (a : Byte) (b : Half) (payload : List Byte) (s : State) : Proc (List Byte) :=
  if b ≠ 0 then .raise .badArg s
  else
    match kindOf a with
    | none => .raise .badArg s
    | some kind =>
      if payload.length ≠ 32 ∧ payload.length ≠ 64 then .raise .keyLength s
      else .ok [] (ctrLoad (splitKey payload).2 (macLoad E kind (splitKey payload).1 s))

/-- `MAC_INIT` (R132). -/
def macInitCommand (E : Cipher) (a : Byte) (b : Half) (payload : List Byte) (s : State) : Proc (List Byte) :=
  if b ≠ 0 then .raise .badArg s
  else
    match kindOf a with
    | none => .raise .badArg s
    | some kind =>
      if payload.length ≠ 16 ∧ payload.length ≠ 32 then .raise .keyLength s
      else .ok [] (macLoad E kind payload s)

/-- `CTR_INIT` (R133). -/
def ctrInitCommand (a : Byte) (b : Half) (payload : List Byte) (s : State) : Proc (List Byte) :=
  if a ≠ 0 ∨ b ≠ 0 then .raise .badArg s
  else if payload.length ≠ 16 ∧ payload.length ≠ 32 then .raise .keyLength s
  else .ok [] (ctrLoad payload s)

/-- `WIPE` (R134). -/
def wipeCommand (a : Byte) (b : Half) (payload : List Byte) (s : State) : Proc (List Byte) :=
  if a ≠ 0 ∨ b ≠ 0 then .raise .badArg s
  else if payload.length ≠ 0 then .raise .length s
  else .ok [] (wipeRegisters s)

/-- `GET_STATUS` (R135). -/
def getStatusCommand (a : Byte) (b : Half) (payload : List Byte) (s : State) : Proc (List Byte) :=
  if a ≠ 0 ∨ b ≠ 0 then .raise .badArg s
  else if payload.length ≠ 0 then .raise .length s
  else .ok (statusBlock s) s

/-- The meaning of `SIV_INIT` (R131). -/
def execSivInit (kind : Byte) (b : Half) (payload : List Byte) (s : State) : Host.Outcome State Fault Refusal :=
  complete 0x10 (sivInitCommand Config.E kind b payload s)

/-- The meaning of `MAC_INIT` (R132). -/
def execMacInit (kind : Byte) (b : Half) (payload : List Byte) (s : State) : Host.Outcome State Fault Refusal :=
  complete 0x11 (macInitCommand Config.E kind b payload s)

/-- The meaning of `CTR_INIT` (R133). -/
def execCtrInit (a : Byte) (b : Half) (payload : List Byte) (s : State) : Host.Outcome State Fault Refusal :=
  complete 0x12 (ctrInitCommand a b payload s)

/-- The meaning of `WIPE` (R134). -/
def execWipe (a : Byte) (b : Half) (payload : List Byte) (s : State) : Host.Outcome State Fault Refusal :=
  complete 0x13 (wipeCommand a b payload s)

/-- The meaning of `GET_STATUS` (R135). -/
def execGetStatus (a : Byte) (b : Half) (payload : List Byte) (s : State) : Host.Outcome State Fault Refusal :=
  complete 0x14 (getStatusCommand a b payload s)

end Sys2Proof.Machine
end

