-- ==== Sys2Proof/Machine/Siv.lean ====
section
/-! DEFINITION. S2V and the SIV family (45_siv.md). -/

namespace Sys2Proof.Machine

/-- The two bits the zero-IV-bit rule keeps clear: bit 7 of bytes 8 and 12, bits 63 and 31 of `int(V)` (R215). -/
def ivMask : Block := ~~~((1#128 <<< 63) ||| (1#128 <<< 31))

/-- `siv_iv(V)` (R215). -/
def sivIv (v : Block) : Block := v &&& ivMask

/-- The items of `s2v`, in order: `D <- dbl(D) ; D <- D xor mac(item)` (R213). -/
def s2vItems (E : Cipher) (kind : MacKind) : List (List Byte) → State → Proc Unit
  | [], s => .ok () s
  | item :: items, s =>
    andThen (macOf E kind item { s with d := dbl s.d }) fun m s =>
      s2vItems E kind items { s with d := s.d ^^^ m }

/-- The last block of `s2v`: `T` for the final string `p` (R213). -/
def s2vLast (p : List Byte) (s : State) : State :=
  if p.length ≥ 16 then { s with t := blockOf (p.drop (p.length - 16)) ^^^ s.d }
  else { s with d := dbl s.d, t := padString p ^^^ dbl s.d }

/-- `s2v(items, p)` (R213), with `D` and `T` in their registers. -/
def s2v (E : Cipher) (kind : MacKind) (items : List (List Byte)) (p : List Byte) (s : State) : Proc Block :=
  andThen (macOf E kind (List.replicate 16 0) s) fun d0 s =>
    andThen (s2vItems E kind items { s with d := d0 }) fun _ s =>
      macOf E kind (p.take (p.length - 16) ++ blockBytes (s2vLast p s).t) (s2vLast p s)

/-- `siv_end()` of the `S2V` command (R219, R212): transients wiped, MAC unit fresh, CTR unit not touched. -/
def s2vEnd (s : State) : State := macReset { s with d := 0, t := 0 }

/-- `siv_end()` of `SIV_SEAL` and `SIV_OPEN` (R219). -/
def sivEnd (s : State) : State := ctrClear (s2vEnd s)

/-- `wipe(P)` (R218). -/
def wipeP (s : State) : State := { s with p := [] }

/-- `siv_end()` runs "at the end of every SIV-family command that got past stage 2, whatever its outcome" (R219): after
the value, or before the error leaves (DEDUCED, log 8). -/
def endingWith {α : Type} (finish : State → State) : Proc α → Proc α
  | .ok v s => .ok v (finish s)
  | .raise e s => .raise e (finish s)

/-- `S2V` (R211, R212). -/
def s2vCommand (E : Cipher) (nad : Byte) (b : Half) (payload : List Byte) (s : State) : Proc (List Byte) :=
  if b ≠ 0 then .raise .badArg s
  else
    match parseVector nad payload with
    | .error e => .raise e s
    | .ok (items, p) =>
      match s.mkind with
      | none => .raise .noKey s
      | some kind => endingWith s2vEnd (andThen (s2v E kind items p s) fun v s => .ok (blockBytes v) s)

/-- `SIV_SEAL` past its checks (R217): the tag, then the plaintext under the keystream of the tag's IV. -/
def sealBody (E : Cipher) (kind : MacKind) (items : List (List Byte)) (p : List Byte) (s : State) : Proc (List Byte) :=
  andThen (s2v E kind items p s) fun v s =>
    andThen (ctrXor E p (ctrSetiv (sivIv v) s)) fun c s => .ok (blockBytes v ++ c) s

/-- `SIV_SEAL` (R211, R217). -/
def sivSealCommand (E : Cipher) (nad : Byte) (b : Half) (payload : List Byte) (s : State) : Proc (List Byte) :=
  if b ≠ 0 then .raise .badArg s
  else
    match parseVector nad payload with
    | .error e => .raise e s
    | .ok (items, p) =>
      if p.length > maxSealPlaintext then .raise .length s
      else
        match s.mkind with
        | none => .raise .noKey s
        | some kind =>
          if s.kctrLen = .noKey then .raise .noKey s
          else endingWith sivEnd (sealBody E kind items p s)

/-- `SIV_OPEN` past its checks (R218): decrypt into `P`, recompute the tag, and answer `P` only if the two tags are
equal. -/
def openBody (E : Cipher) (kind : MacKind) (items : List (List Byte)) (c : List Byte) (s : State) : Proc (List Byte) :=
  andThen (ctrXor E (c.drop 16) (ctrSetiv (sivIv (blockOf (c.take 16))) s)) fun plain s =>
    andThen (s2v E kind items plain { s with p := plain }) fun v s =>
      if equalBytes (blockBytes v) (c.take 16) ≠ 1 then .raise .integrity s else .ok s.p s

/-- `SIV_OPEN` (R211, R218). -/
def sivOpenCommand (E : Cipher) (nad : Byte) (b : Half) (payload : List Byte) (s : State) : Proc (List Byte) :=
  if b ≠ 0 then .raise .badArg s
  else
    match parseVector nad payload with
    | .error e => .raise e s
    | .ok (items, c) =>
      if c.length < 16 then .raise .truncated s
      else
        match s.mkind with
        | none => .raise .noKey s
        | some kind =>
          if s.kctrLen = .noKey then .raise .noKey s
          else endingWith (fun s => sivEnd (wipeP s)) (openBody E kind items c s)

/-- The meaning of `S2V` (R212). -/
def execS2v (nad : Byte) (b : Half) (payload : List Byte) (s : State) : Host.Outcome State Fault Refusal :=
  complete 0x40 (s2vCommand Config.E nad b payload s)

/-- The meaning of `SIV_SEAL` (R217). -/
def execSivSeal (nad : Byte) (b : Half) (payload : List Byte) (s : State) : Host.Outcome State Fault Refusal :=
  complete 0x41 (sivSealCommand Config.E nad b payload s)

/-- The meaning of `SIV_OPEN` (R218). -/
def execSivOpen (nad : Byte) (b : Half) (payload : List Byte) (s : State) : Host.Outcome State Fault Refusal :=
  complete 0x42 (sivOpenCommand Config.E nad b payload s)

end Sys2Proof.Machine
end

