-- ==== Sys2Proof/Machine/Dispatch.lean ====
section
/-! DEFINITION. One arm per command, each one call of its meaning (30_encoding.md R73). -/

namespace Sys2Proof.Machine

-- The meaning of one command packet (R9).
def exec (i : Instr) (s : State) : Host.Outcome State Fault Refusal :=
  match i with
  | .dbl a b payload => Sys2Proof.Machine.execDbl a b payload s
  | .dblinv a b payload => Sys2Proof.Machine.execDblinv a b payload s
  | .xor a n payload => Sys2Proof.Machine.execXor a n payload s
  | .pad pos b payload => Sys2Proof.Machine.execPad pos b payload s
  | .select bit b payload => Sys2Proof.Machine.execSelect bit b payload s
  | .cmp a n payload => Sys2Proof.Machine.execCmp a n payload s
  | .equal a n payload => Sys2Proof.Machine.execEqual a n payload s
  | .sivInit kind b payload => Sys2Proof.Machine.execSivInit kind b payload s
  | .macInit kind b payload => Sys2Proof.Machine.execMacInit kind b payload s
  | .ctrInit a b payload => Sys2Proof.Machine.execCtrInit a b payload s
  | .wipe a b payload => Sys2Proof.Machine.execWipe a b payload s
  | .getStatus a b payload => Sys2Proof.Machine.execGetStatus a b payload s
  | .macReset a b payload => Sys2Proof.Machine.execMacReset a b payload s
  | .macUpdate a b payload => Sys2Proof.Machine.execMacUpdate a b payload s
  | .macFinish a b payload => Sys2Proof.Machine.execMacFinish a b payload s
  | .ctrSetiv a b payload => Sys2Proof.Machine.execCtrSetiv a b payload s
  | .ctrXor a b payload => Sys2Proof.Machine.execCtrXor a b payload s
  | .s2v nad b payload => Sys2Proof.Machine.execS2v nad b payload s
  | .sivSeal nad b payload => Sys2Proof.Machine.execSivSeal nad b payload s
  | .sivOpen nad b payload => Sys2Proof.Machine.execSivOpen nad b payload s

end Sys2Proof.Machine
end

