-- ==== Sys2Proof/Machine/Fetch.lean ====
section
/-! DEFINITION. What one step does with the command stream (00_scope.md R9, 20_memory.md R51, 30_encoding.md R72, R76). -/

namespace Sys2Proof.Machine

/-- A whole packet leaves the stream: a defined opcode runs, an illegal one "does nothing but fail with `ERR_OPCODE`",
its payload consumed and its opcode byte echoed (R76, R71). -/
def runPacket (k : Packet) (s : State) : Host.Outcome State Fault Refusal :=
  match decodePacket k with
  | .ok i => exec i s
  | .error _ => .next (takeError k.op .opcode s)

/-- One step (R9, R51): exactly one whole packet is consumed and answered. While the stream holds no whole packet the
engine waits and nothing changes (DEDUCED, log 2: R270, 93_implementation_defined.md I15). -/
def stepOn (s : State) : Host.Outcome State Fault Refusal :=
  match takePacket s.cmdStream with
  | none => .next s
  | some (k, rest) => runPacket k { s with cmdStream := rest }

/-- The packet of a table word, put in front of the command stream (log 6, 10). -/
def placeTableWord (nbits w : Nat) (s : State) : State :=
  { s with cmdStream := tableBytes nbits w ++ s.cmdStream }

end Sys2Proof.Machine
end

