-- ==== Sys2Proof/Machine/Step.lean ====
section
/-! DEFINITION. The step of the machine (00_scope.md R9). -/

namespace Sys2Proof.Machine

/-- One step of the engine (R9). -/
def step (s : State) : Host.Outcome State Fault Refusal := stepOn s

/-- `s` with the table word `w` where the next step reads its command. -/
def State.withFetchWord (s : State) (nbits w : Nat) : State := placeTableWord nbits w s

end Sys2Proof.Machine
end

