-- ==== Sys2Proof/Safety.lean ====
section
/-! DEFINITION. The terms the statements are written in: the invariants of a safe run (10_state.md R23, R29, R30, R34),
the order of the checks (60_exceptions.md R244), the closed forms of the tags and of the keystream (R157, R177, R190, R213), framed
vectors (R75), request counts (R222) and what an observer without the data sees (R279). No meaning uses them. -/

namespace Sys2Proof.Machine

/-! ### Invariants -/

/-- The invariants that hold between commands: R30 (a) to (i), the zero bytes past a key (R23), and the error log (R29). R30
(b) and the bound `POS <= 16` of (a) are in the types of `POS` and `KPOS`. -/
structure Inv (s : State) : Prop where
  /-- R30 (a). -/
  bufTail : ∀ i, s.pos.val ≤ i → blockByte s.buf i = 0
  /-- R30 (c), CMAC registers. -/
  cmacOnly : s.mkind ≠ some .cmac → s.k1 = 0 ∧ s.k2 = 0 ∧ s.chain = 0
  /-- R30 (c), PMAC registers. -/
  pmacOnly : s.mkind ≠ some .pmac →
    s.lTab = Vector.replicate 31 0 ∧ s.linv = 0 ∧ s.offset = 0 ∧ s.tag = 0 ∧ s.cnt = 0
  /-- R30 (d) and (e). -/
  noDigest : s.mst ≠ .accumulating →
    s.chain = 0 ∧ s.buf = 0 ∧ s.offset = 0 ∧ s.tag = 0 ∧ s.pos = 0 ∧ s.cnt = 0
  /-- R30 (f). -/
  noStream : s.cst = .idle → s.ctrblk = 0 ∧ s.ks = 0 ∧ s.kpos = 16
  /-- R30 (g). -/
  cntBound : s.cnt.toNat ≤ 2 ^ 31 - 1
  /-- R30 (h), first clause. -/
  kindIffKey : s.mkind = none ↔ s.kmacLen = .noKey
  /-- R30 (h), second clause. -/
  noKindFresh : s.mkind = none → s.mst = .fresh
  /-- R30 (h), third clause. -/
  noKeyIdle : s.kctrLen = .noKey → s.cst = .idle
  /-- R30 (i). -/
  transients : s.d = 0 ∧ s.t = 0 ∧ s.p = []
  /-- R23: the bytes of `KMAC` past the key are zero. -/
  kmacTail : ∀ i, keyLenBytes s.kmacLen ≤ i → (keyRegBytes s.kmac).getD i 0 = 0
  /-- R23: the bytes of `KCTR` past the key are zero. -/
  kctrTail : ∀ i, keyLenBytes s.kctrLen ≤ i → (keyRegBytes s.kctr).getD i 0 = 0
  /-- R29: bits 0 and 15 of `ESTICKY` are zero. -/
  stickyEnds : s.esticky.getLsbD 0 = false ∧ s.esticky.getLsbD 15 = false
  /-- R29: the code in `LASTERR` has its bit in `ESTICKY`. -/
  lastLogged : s.lasterr ≠ 0 → s.esticky.getLsbD s.lasterr.toNat = true
  /-- R29: `LASTERR` is 0 only while no error has been logged. -/
  nothingLogged : s.lasterr = 0 → s.esticky = 0
  /-- R29, R241: no code above 14. -/
  lastCode : s.lasterr.toNat ≤ 14

/-- The key-dependent constants are those of the loaded MAC key (R24, R26, R34, R151, R171). -/
structure KeyConstants (E : Cipher) (s : State) : Prop where
  /-- R151. -/
  subkeys : s.mkind = some .cmac → s.k1 = dbl (E (keyBytes .mac s) 0) ∧ s.k2 = dbl s.k1
  /-- R171: `L[0]`. -/
  tableStart : s.mkind = some .pmac → s.lTab[0] = E (keyBytes .mac s) 0
  /-- R171: `L[i] = dbl(L[i-1])`. -/
  tableStep : s.mkind = some .pmac → ∀ i, (h : i < 30) → s.lTab[i + 1] = dbl s.lTab[i]
  /-- R171: `dbl(LINV) = L[0]`. -/
  inverse : s.mkind = some .pmac → dbl s.linv = s.lTab[0]

/-- A state without its three ports: the spec's registers alone (R20). -/
def registers (s : State) : State := { s with cmdStream := [], respStream := [], cipherPort := [] }

/-- Two states whose keys, MAC kind and key-dependent constants are the same. -/
def SameKeys (s t : State) : Prop :=
  t.kmac = s.kmac ∧ t.kmacLen = s.kmacLen ∧ t.kctr = s.kctr ∧ t.kctrLen = s.kctrLen ∧ t.mkind = s.mkind ∧
    t.k1 = s.k1 ∧ t.k2 = s.k2 ∧ t.lTab = s.lTab ∧ t.linv = s.linv

/-- Two states whose MAC unit registers are the same (R24, R25, R26). -/
def SameMacUnit (s t : State) : Prop :=
  t.k1 = s.k1 ∧ t.k2 = s.k2 ∧ t.chain = s.chain ∧ t.buf = s.buf ∧ t.pos = s.pos ∧ t.mst = s.mst ∧ t.lTab = s.lTab ∧
    t.linv = s.linv ∧ t.offset = s.offset ∧ t.tag = s.tag ∧ t.cnt = s.cnt

/-- Two states whose CTR unit registers are the same (R27). -/
def SameCtrUnit (s t : State) : Prop :=
  t.ctrblk = s.ctrblk ∧ t.ks = s.ks ∧ t.kpos = s.kpos ∧ t.cst = s.cst

/-- Two states whose S2V transients are the same (R28). -/
def SameTransients (s t : State) : Prop := t.d = s.d ∧ t.t = s.t ∧ t.p = s.p

/-- The twenty opcodes of R73. -/
def definedOpcodes : List Byte :=
  [0x01, 0x02, 0x03, 0x04, 0x05, 0x06, 0x07, 0x10, 0x11, 0x12, 0x13, 0x14, 0x20, 0x21, 0x22, 0x30, 0x31, 0x40, 0x41, 0x42]

/-! ### The order of the checks (R244) -/

/-- The stage 1 checks of a framed vector (R75). -/
def vectorError (nad : Byte) (payload : List Byte) : Option Err :=
  if nad.toNat > 126 then some .tooManyAd
  else if parseItems nad.toNat payload = none then some .framing
  else none

/-- The length of the final string of a framed vector that parses (R75). -/
def finalLength (nad : Byte) (payload : List Byte) : Nat :=
  match parseItems nad.toNat payload with
  | some (_, final) => final.length
  | none => 0

/-- Stage 1 of the table of R244: the first packet check that fails. -/
def packetError : Instr → Option Err
  | .dbl a b p | .dblinv a b p =>
    if a ≠ 0 ∨ b ≠ 0 then some .badArg else if p.length ≠ 16 then some .length else none
  | .xor a n p =>
    if a ≠ 0 ∨ n.toNat > p.length then some .badArg
    else if p.length - n.toNat > n.toNat then some .length else none
  | .pad pos b p =>
    if b ≠ 0 ∨ pos.toNat > 15 then some .badArg else if p.length ≠ 16 then some .length else none
  | .select bit b p =>
    if b ≠ 0 ∨ bit.toNat > 1 then some .badArg else if p.length % 2 = 1 then some .length else none
  | .cmp a n p | .equal a n p => if a ≠ 0 ∨ n.toNat > p.length then some .badArg else none
  | .sivInit kind b p =>
    if b ≠ 0 ∨ (kind ≠ 1 ∧ kind ≠ 2) then some .badArg
    else if p.length ≠ 32 ∧ p.length ≠ 64 then some .keyLength else none
  | .macInit kind b p =>
    if b ≠ 0 ∨ (kind ≠ 1 ∧ kind ≠ 2) then some .badArg
    else if p.length ≠ 16 ∧ p.length ≠ 32 then some .keyLength else none
  | .ctrInit a b p =>
    if a ≠ 0 ∨ b ≠ 0 then some .badArg else if p.length ≠ 16 ∧ p.length ≠ 32 then some .keyLength else none
  | .wipe a b p | .getStatus a b p | .macReset a b p | .macFinish a b p =>
    if a ≠ 0 ∨ b ≠ 0 then some .badArg else if p.length ≠ 0 then some .length else none
  | .macUpdate a b _ | .ctrXor a b _ => if a ≠ 0 ∨ b ≠ 0 then some .badArg else none
  | .ctrSetiv a b p =>
    if a ≠ 0 ∨ b ≠ 0 then some .badArg else if p.length ≠ 16 then some .ivLength else none
  | .s2v nad b p => if b ≠ 0 then some .badArg else vectorError nad p
  | .sivSeal nad b p =>
    if b ≠ 0 then some .badArg
    else (vectorError nad p).or (if finalLength nad p > 2 ^ 32 - 17 then some .length else none)
  | .sivOpen nad b p =>
    if b ≠ 0 then some .badArg
    else (vectorError nad p).or (if finalLength nad p < 16 then some .truncated else none)

/-- Stage 2 of the table of R244: the first state check that fails. -/
def stateError : Instr → State → Option Err
  | .macReset .., s | .s2v .., s => if s.mkind = none then some .noKey else none
  | .macUpdate .., s | .macFinish .., s =>
    if s.mkind = none then some .noKey else if s.mst = .finished then some .macFinished else none
  | .ctrSetiv .., s => if s.kctrLen = .noKey then some .noKey else none
  | .ctrXor .., s =>
    if s.kctrLen = .noKey then some .noKey else if s.cst = .idle then some .ctrState else none
  | .sivSeal .., s | .sivOpen .., s => if s.mkind = none ∨ s.kctrLen = .noKey then some .noKey else none
  | _, _ => none

/-- The error a command fails with before it executes: stage 1, then stage 2 (R244). -/
def earlyError (i : Instr) (s : State) : Option Err := (packetError i).or (stateError i s)

/-- The one stage 3 error a command can raise, if it has one; `MAC_UPDATE` has one in PMAC kind alone (R244, R221). -/
def executionError : Instr → State → Option Err
  | .macUpdate .., s => if s.mkind = some .pmac then some .pmacLimit else none
  | .ctrXor .., _ => some .ctrOverflow
  | .sivOpen .., _ => some .integrity
  | _, _ => none

/-! ### Sequences of commands, and what a SIV command leaves -/

/-- The commands, executed one after the other, lead from one state to the other (R59). -/
def Runs : List Instr → State → State → Prop
  | [], s, t => t = s
  | i :: is, s, t => ∃ u, exec i s = .next u ∧ Runs is u t

/-- What `S2V` leaves: an empty, fresh MAC unit, wiped transients, and its requests on the cipher port (R212, R219). -/
def afterS2v (s : State) (reqs : List CipherReq) : State :=
  { s with
    chain := 0, buf := 0, pos := 0, offset := 0, tag := 0, cnt := 0, mst := .fresh, d := 0, t := 0
    cipherPort := s.cipherPort ++ reqs }

/-- What `SIV_SEAL` and `SIV_OPEN` leave: the same, and an idle CTR unit (R219, R249). -/
def afterSiv (s : State) (reqs : List CipherReq) : State :=
  { afterS2v s reqs with ctrblk := 0, ks := 0, kpos := 16, cst := .idle }

/-! ### Messages in blocks -/

/-- The blocks of an `n`-byte message processed before its last piece: `max(0, ceil(n / 16) - 1)` (R153, R173). -/
def wholeBlocks (n : Nat) : Nat := (n + 15) / 16 - 1

/-- Block `i` of a message, counted from 0 (R157, R177). -/
def messageBlock (m : List Byte) (i : Nat) : Block := blockOf ((m.drop (16 * i)).take 16)

/-- The last piece of a message, 1 to 16 bytes, or none of an empty message (R157, R177). -/
def lastPiece (m : List Byte) : List Byte := m.drop (16 * wholeBlocks m.length)

/-- The requests on the cipher port for the blocks `lo` to `hi - 1`, given the block each request sends (R55). -/
def blockRequests (sel : KeySel) (f : Nat → Block) (lo hi : Nat) : List CipherReq :=
  (List.range' lo (hi - lo)).map fun i => ⟨sel, f i⟩

/-! ### CMAC in closed form (R157) -/

/-- `C_i` of R157. -/
def cmacChain (E : Cipher) (key : List Byte) (m : List Byte) : Nat → Block
  | 0 => 0
  | i + 1 => E key (cmacChain E key m i ^^^ messageBlock m i)

/-- The CMAC tag of R157. -/
def cmacTag (E : Cipher) (key : List Byte) (k1 k2 : Block) (m : List Byte) : Block :=
  E key (cmacChain E key m (wholeBlocks m.length) ^^^
    (if (lastPiece m).length = 16 then blockOf (lastPiece m) ^^^ k1 else padString (lastPiece m) ^^^ k2))

/-- The MAC unit holds the unfinished CMAC digest of the message `m` (R153). -/
def CmacHolds (E : Cipher) (s : State) (m : List Byte) : Prop :=
  s.chain = cmacChain E (keyBytes .mac s) m (wholeBlocks m.length) ∧ s.pos.val = (lastPiece m).length ∧
    s.buf = blockOf (zeroFill 16 (lastPiece m))

/-! ### PMAC in closed form (R177) -/

/-- `O_i` of R177, over the table `L`. -/
def pmacOffset (l : Vector Block 31) : Nat → Block
  | 0 => 0
  | i + 1 => pmacOffset l i ^^^ l.toList.getD (ctz (i + 1)) 0

/-- `S` of R177 after `i` blocks. -/
def pmacSum (E : Cipher) (key : List Byte) (l : Vector Block 31) (m : List Byte) : Nat → Block
  | 0 => 0
  | i + 1 => pmacSum E key l m i ^^^ E key (pmacOffset l (i + 1) ^^^ messageBlock m i)

/-- The PMAC tag of R177. -/
def pmacTag (E : Cipher) (key : List Byte) (l : Vector Block 31) (linv : Block) (m : List Byte) : Block :=
  E key (pmacSum E key l m (wholeBlocks m.length) ^^^
    (if (lastPiece m).length = 16 then blockOf (lastPiece m) ^^^ linv else padString (lastPiece m)))

/-- The MAC unit holds the unfinished PMAC digest of the message `m` (R173, R174). -/
def PmacHolds (E : Cipher) (s : State) (m : List Byte) : Prop :=
  s.cnt.toNat = wholeBlocks m.length ∧ s.offset = pmacOffset s.lTab (wholeBlocks m.length) ∧
    s.tag = pmacSum E (keyBytes .mac s) s.lTab m (wholeBlocks m.length) ∧ s.pos.val = (lastPiece m).length ∧
    s.buf = blockOf (zeroFill 16 (lastPiece m))

/-- The tag of the message `m` under the MAC key and the key-dependent constants of a state (R157, R177). -/
def macTag (E : Cipher) (kind : MacKind) (s : State) (m : List Byte) : Block :=
  match kind with
  | .cmac => cmacTag E (keyBytes .mac s) s.k1 s.k2 m
  | .pmac => pmacTag E (keyBytes .mac s) s.lTab s.linv m

/-! ### The keystream in closed form (R190, R193) -/

/-- Keystream byte number `p` of the stream of an IV (R190). -/
def keystreamByte (E : Cipher) (key : List Byte) (iv : Block) (p : Nat) : Byte :=
  blockByte (E key (iv + BitVec.ofNat 128 (p / 16))) (p % 16)

/-- A byte string XORed with the keystream from byte number `n` of the stream on (R190). -/
def ctrStream (E : Cipher) (key : List Byte) (iv : Block) : Nat → List Byte → List Byte
  | _, [] => []
  | n, d :: ds => (d ^^^ keystreamByte E key iv n) :: ctrStream E key iv (n + 1) ds

/-- The CTR unit stands `n` bytes into the stream of `iv` (R193). -/
def CtrHolds (E : Cipher) (s : State) (iv : Block) (n : Nat) : Prop :=
  s.ctrblk.toNat = iv.toNat + (n + 15) / 16 ∧ s.kpos.val = (if n % 16 = 0 then 16 else n % 16) ∧
    (n % 16 ≠ 0 → s.ks = E (keyBytes .ctr s) (iv + BitVec.ofNat 128 (n / 16)))

/-! ### S2V and framed vectors in closed form (R75, R213, R222) -/

/-- The payload of a framed vector (R75). -/
def frameVector (items : List (List Byte)) (final : List Byte) : List Byte :=
  items.flatMap (fun item => beBytes 4 item.length ++ item) ++ final

/-- `s2v(items, p)` of R213, over any MAC function. -/
def s2vTag (mac : List Byte → Block) (items : List (List Byte)) (p : List Byte) : Block :=
  let d := items.foldl (fun d item => dbl d ^^^ mac item) (mac (List.replicate 16 0))
  if p.length ≥ 16 then
    mac (p.take (p.length - 16) ++ blockBytes (blockOf (p.drop (p.length - 16)) ^^^ d))
  else mac (blockBytes (padString p ^^^ dbl d))

/-- `c(n)`, the cipher requests of one `mac` of `n` bytes (R222). -/
def macRequests (n : Nat) : Nat := max 1 ((n + 15) / 16)

/-- The cipher requests of `s2v(items, p)`, of which only the lengths matter (R222). -/
def s2vRequests (itemLengths : List Nat) (pLength : Nat) : Nat :=
  macRequests 16 + (itemLengths.map macRequests).sum + macRequests (max pLength 16)

/-- The items and the final string fit in a packet (R13, R211). -/
def VectorFits (items : List (List Byte)) (final : List Byte) : Prop :=
  items.length ≤ 126 ∧ (frameVector items final).length < 2 ^ 32

/-! ### What does not depend on the data (R279) -/

/-- The lengths of the items and of the final string, or the error of the framing (R75, R279). -/
def vectorShape (nad : Byte) (payload : List Byte) : Except Err (List Nat × Nat) :=
  match parseVector nad payload with
  | .ok (items, final) => .ok (items.map List.length, final.length)
  | .error e => .error e

/-- Two commands with the same header, and the same item lengths where the payload is a framed vector (R279 (1)). -/
def SameShape (i j : Instr) : Prop :=
  i.opcode = j.opcode ∧ i.argA = j.argA ∧ i.argB = j.argB ∧ i.payload.length = j.payload.length ∧
    (i.opcode ∈ [0x40#8, 0x41#8, 0x42#8] → vectorShape i.argA i.payload = vectorShape j.argA j.payload)

/-- Two states an observer without the data cannot tell apart: R279 (1) and (2), with the counter, whose distance from
all-`ff` decides an overflow. -/
def SameControl (s t : State) : Prop :=
  s.mkind = t.mkind ∧ s.kctrLen = t.kctrLen ∧ s.mst = t.mst ∧ s.cst = t.cst ∧ s.pos = t.pos ∧ s.kpos = t.kpos ∧
    s.cnt = t.cnt ∧ s.ctrblk = t.ctrblk

end Sys2Proof.Machine
end

