-- ==== Sys2Proof/Certificates/Slice0/Obligations.lean ====
section
/-! DEFINITION. The statements for the provers. Every one is about all states, those no run reaches among them, unless it
says otherwise; `Config.E` is the block cipher, of which nothing is known (00_scope.md R11). -/

section Statements

open Sys2Proof Sys2Proof.Machine

/-! ### Packets: encoding, framing, opcode map (30_encoding.md) -/

/-- Decoding an encoded command gives it back, whatever follows it on the stream (R70, R72, R73). -/
def Obligations.DecodeInvertsEncode : Prop :=
  ∀ (i : Instr) (rest : List Byte), i.WellFormed → decode (encode i ++ rest) = .ok (i, rest)

/-- Encoding a decoded command gives the bytes back: no two byte strings mean the same command (R70, R72, R73). -/
def Obligations.EncodeInvertsDecode : Prop :=
  ∀ (bytes : List Byte) (i : Instr) (rest : List Byte),
    decode bytes = .ok (i, rest) → i.WellFormed ∧ encode i ++ rest = bytes

/-- A few packets written out from the spec: those of R78, R102 and R106, a key load, and a packet without payload. -/
def Obligations.KnownPacketsDecode : Prop :=
  decode [0x41, 0x01, 0x00, 0x00, 0x00, 0x00, 0x00, 0x0a, 0x00, 0x00, 0x00, 0x03, 0x10, 0x11, 0x12, 0x11, 0x22, 0x33] =
      .ok (.sivSeal 1 0 [0x00, 0x00, 0x00, 0x03, 0x10, 0x11, 0x12, 0x11, 0x22, 0x33], []) ∧
    decode ([0x01, 0x00, 0x00, 0x00, 0x00, 0x00, 0x00, 0x10, 0x80] ++ List.replicate 15 0x00) =
      .ok (.dbl 0 0 (0x80 :: List.replicate 15 0), []) ∧
    decode [0x03, 0x00, 0x00, 0x04, 0x00, 0x00, 0x00, 0x06, 0x01, 0x02, 0x03, 0x04, 0x05, 0xf0] =
      .ok (.xor 0 4 [0x01, 0x02, 0x03, 0x04, 0x05, 0xf0], []) ∧
    decode ([0x11, 0x02, 0x00, 0x00, 0x00, 0x00, 0x00, 0x10] ++ List.replicate 16 0xab) =
      .ok (.macInit 2 0 (List.replicate 16 0xab), []) ∧
    decode [0x14, 0x00, 0x00, 0x00, 0x00, 0x00, 0x00, 0x00, 0x13] = .ok (.getStatus 0 0 [], [0x13])

/-- The framing of a packet: 8 header bytes, of which bytes 4 to 7 are `LEN` big-endian, then `LEN` payload bytes; the byte
after them starts the next packet, and nothing else decides the length (R72). -/
def Obligations.HeaderDecidesPacketLength : Prop :=
  ∀ bytes : List Byte,
    let len := 16777216 * (bytes.getD 4 0).toNat + 65536 * (bytes.getD 5 0).toNat + 256 * (bytes.getD 6 0).toNat +
      (bytes.getD 7 0).toNat
    takePacket bytes =
      if bytes.length < 8 ∨ bytes.length < 8 + len then none
      else
        some (⟨bytes.getD 0 0, bytes.getD 1 0,
          BitVec.ofNat 16 (256 * (bytes.getD 2 0).toNat + (bytes.getD 3 0).toNat), (bytes.drop 8).take len⟩,
          bytes.drop (8 + len))

/-- Exactly the twenty opcode bytes of R73 decode, each with its own header arguments and payload; every other one is
named in the decoder's answer (R73, R76). -/
def Obligations.OpcodeMapHasTwentyEntries : Prop :=
  definedOpcodes.length = 20 ∧ definedOpcodes.Nodup ∧
    ∀ k : Packet,
      (k.op ∈ definedOpcodes →
        ∃ i, decodePacket k = .ok i ∧ i.opcode = k.op ∧ i.argA = k.a ∧ i.argB = k.b ∧ i.payload = k.payload) ∧
      (k.op ∉ definedOpcodes → decodePacket k = .error (.unknownOpcode k.op))

/-! ### The step (00_scope.md R9, 20_memory.md R51, R53) -/

/-- A step runs the command at the head of the command stream, with that command taken off the stream (R9, R51). -/
def Obligations.StepRunsDecodedCommand : Prop :=
  ∀ (s : State) (i : Instr) (rest : List Byte),
    decode s.cmdStream = .ok (i, rest) → step s = exec i { s with cmdStream := rest }

/-- A whole packet on the stream, legal or not, is consumed and answered by exactly one response packet of R71's form, with
a status code of R241 and, unless the status is `OK`, no payload (R51, R53, R71). -/
def Obligations.StepAnswersOnePacket : Prop :=
  ∀ (s : State) (k : Packet) (rest : List Byte), takePacket s.cmdStream = some (k, rest) →
    ∃ t st out, step s = .next t ∧ t.cmdStream = rest ∧
      t.respStream = s.respStream ++ ([st, k.op, 0, 0] ++ beBytes 4 out.length ++ out) ∧ out.length < 2 ^ 32 ∧
      st.toNat ≤ 14 ∧ (st ≠ 0 → out = [])

/-- An opcode byte outside the map does nothing but fail with `ERR_OPCODE`: its payload is consumed, the log takes the
error, the opcode byte is echoed, and every register but the log keeps its value (R76, R71). -/
def Obligations.IllegalOpcodeOnlyFails : Prop :=
  ∀ (s : State) (k : Packet) (rest : List Byte), takePacket s.cmdStream = some (k, rest) → k.op ∉ definedOpcodes →
    ∃ t, step s = .next t ∧
      registers t = { registers s with lasterr := 0x0b, esticky := s.esticky ||| 0x0800 } ∧
      t.cipherPort = s.cipherPort ∧ t.cmdStream = rest ∧ t.respStream = s.respStream ++ [0x0b, k.op, 0, 0, 0, 0, 0, 0]

/-- THE MODEL'S CHOICE (log 2): with no whole packet on the command stream the engine waits, and nothing changes. -/
def Obligations.EngineWaitsForAWholePacket : Prop :=
  ∀ s : State, takePacket s.cmdStream = none → step s = .next s

/-! ### Reset and invariants (10_state.md R23 to R36, 70_reset_and_hazards.md R270, R271) -/

/-- After reset every register is zero, with one exception: `KPOS = 16`; and what the status block reads (R36). -/
def Obligations.ResetRegisterValues : Prop :=
  State.reset.kmac = 0 ∧ State.reset.kmacLen = .noKey ∧ State.reset.kctr = 0 ∧ State.reset.kctrLen = .noKey ∧
    State.reset.mkind = none ∧ State.reset.k1 = 0 ∧ State.reset.k2 = 0 ∧ State.reset.chain = 0 ∧ State.reset.buf = 0 ∧
    State.reset.pos = 0 ∧ State.reset.mst = .fresh ∧ (∀ i, (h : i < 31) → State.reset.lTab[i] = 0) ∧
    State.reset.linv = 0 ∧ State.reset.offset = 0 ∧ State.reset.tag = 0 ∧ State.reset.cnt = 0 ∧
    State.reset.ctrblk = 0 ∧ State.reset.ks = 0 ∧ State.reset.kpos = 16 ∧ State.reset.cst = .idle ∧
    State.reset.d = 0 ∧ State.reset.t = 0 ∧ State.reset.p = [] ∧ State.reset.lasterr = 0 ∧ State.reset.esticky = 0 ∧
    statusBlock State.reset = [0x00, 0x00, 0x00, 0x00, 0x00, 0x00, 0x10, 0x00, 0x00, 0x00, 0x00, 0x00, 0x00, 0x00]

/-- The external reset puts every register, the error log among them, at its reset value; `WIPE` does the same but keeps the
log, so that afterwards the status blocks differ in bytes 7 to 9 at most (R270, R271). That the bytes in transit on the
streams stay is THE MODEL'S CHOICE (log 7) and is not stated here. -/
def Obligations.ResetAndWipeCompared : Prop :=
  ∀ s : State, registers (hostReset s) = State.reset ∧
    ∃ t, exec (.wipe 0 0 []) s = .next t ∧
      registers t = { State.reset with lasterr := s.lasterr, esticky := s.esticky } ∧
      ∀ n, n ≠ 7 → n ≠ 8 → n ≠ 9 → (statusBlock t)[n]? = (statusBlock (hostReset s))[n]?

/-- The invariants of R30 and the register rules R23, R29, R34 hold at reset. -/
def Obligations.ResetSatisfiesInvariants : Prop :=
  Inv State.reset ∧ KeyConstants Config.E State.reset

/-- Every step keeps the invariants of R30, the zero bytes past a key (R23) and the rules of the error log (R29). -/
def Obligations.StepKeepsInvariants : Prop :=
  ∀ s t : State, Inv s → step s = .next t → Inv t

/-- Every step keeps the key-dependent constants those of the loaded MAC key: they are computed when a key is loaded and
never change otherwise (R34, R24, R26, R151, R171). -/
def Obligations.StepKeepsKeyConstants : Prop :=
  ∀ s t : State, KeyConstants Config.E s → step s = .next t → KeyConstants Config.E t

/-! ### Errors (60_exceptions.md) -/

/-- The table of R244: the first failing check of stage 1, then of stage 2, decides the status, and nothing else happens;
with no such check failing, the command answers `OK`, or raises the one stage 3 error its row names for the state's MAC kind.
So `MAC_UPDATE` in CMAC kind raises nothing in stage 3, and a SIV command nothing but `ERR_INTEGRITY` from `SIV_OPEN`
(R221). -/
def Obligations.ChecksFollowPriorityTable : Prop :=
  (∀ (k : Packet) (s : State), k.op ∉ definedOpcodes → runPacket k s = .next (takeError k.op .opcode s)) ∧
    ∀ (i : Instr) (s : State), i.WellFormed →
      (∀ e, earlyError i s = some e → exec i s = .next (takeError i.opcode e s)) ∧
      (earlyError i s = none →
        (∃ out t, exec i s = .next (respond okCode i.opcode out t)) ∨
          ∃ e t, executionError i s = some e ∧ exec i s = .next (takeError i.opcode e t))

/-- A stage 1 or stage 2 error changes nothing but the error log: no other register, no request on the cipher port, no
response payload; and the command fails identically if repeated (R246, R252). -/
def Obligations.EarlyErrorsChangeOnlyTheLog : Prop :=
  ∀ (i : Instr) (s : State) (e : Err), earlyError i s = some e →
    ∃ t, exec i s = .next t ∧
      registers t = { registers s with lasterr := errCode e, esticky := s.esticky ||| (1#16 <<< (errCode e).toNat) } ∧
      t.cipherPort = s.cipherPort ∧ t.cmdStream = s.cmdStream ∧
      t.respStream = s.respStream ++ [errCode e, i.opcode, 0, 0, 0, 0, 0, 0] ∧ earlyError i t = some e

/-- Every response with a status other than `OK` is 8 bytes and enters the error log; a response with status `OK` leaves the
log as it is (R245, R250). -/
def Obligations.EveryErrorResponseIsLogged : Prop :=
  ∀ (s t : State) (k : Packet) (rest : List Byte), takePacket s.cmdStream = some (k, rest) → step s = .next t →
    (∃ out, t.respStream = s.respStream ++ responsePacket okCode k.op out ∧ t.lasterr = s.lasterr ∧
        t.esticky = s.esticky) ∨
      ∃ st : Byte, st ≠ okCode ∧ t.respStream = s.respStream ++ [st, k.op, 0, 0, 0, 0, 0, 0] ∧ t.lasterr = st ∧
        t.esticky = s.esticky ||| (1#16 <<< st.toNat)

/-- The error log is read by `GET_STATUS` alone: with another log, any other command does and answers the same (R29). -/
def Obligations.ErrorLogIsReadByGetStatusAlone : Prop :=
  ∀ (i : Instr) (s t : State) (l : BitVec 8) (x : BitVec 16), i.WellFormed → i.opcode ≠ 0x14 → exec i s = .next t →
    ∃ l' x', exec i { s with lasterr := l, esticky := x } = .next { t with lasterr := l', esticky := x' }

/-- A bit of `ESTICKY` once set stays set through every step, and `LASTERR` is never cleared: only the external reset clears
the log (R29). -/
def Obligations.OnlyResetClearsTheLog : Prop :=
  ∀ s t : State, step s = .next t →
    (∀ n, s.esticky.getLsbD n = true → t.esticky.getLsbD n = true) ∧ (s.lasterr ≠ 0 → t.lasterr ≠ 0) ∧
      (hostReset s).esticky = 0 ∧ (hostReset s).lasterr = 0

/-! ### What each family touches (10_state.md R37) -/

/-- Keys, MAC kind and key-dependent constants are written by `SIV_INIT`, `MAC_INIT`, `CTR_INIT` and `WIPE` alone (R23, R24,
R26, R37). -/
def Obligations.OnlyKeyLoadsWriteKeys : Prop :=
  ∀ (i : Instr) (s t : State), i.WellFormed → i.opcode ∉ [0x10#8, 0x11#8, 0x12#8, 0x13#8] → exec i s = .next t →
    SameKeys s t

/-- The seven helpers and `GET_STATUS` write no register but the error log, and make no cipher request; the helpers read no
register either: their response is the same in every state (R37, R100). -/
def Obligations.HelpersTouchNoRegister : Prop :=
  ∀ (i : Instr) (s t : State), exec i s = .next t →
    (i.opcode ∈ [0x01#8, 0x02#8, 0x03#8, 0x04#8, 0x05#8, 0x06#8, 0x07#8, 0x14#8] →
      registers t = { registers s with lasterr := t.lasterr, esticky := t.esticky } ∧ t.cipherPort = s.cipherPort ∧
        t.cmdStream = s.cmdStream) ∧
    (i.opcode ∈ [0x01#8, 0x02#8, 0x03#8, 0x04#8, 0x05#8, 0x06#8, 0x07#8] →
      ∃ r, t.respStream = s.respStream ++ r ∧
        ∀ s' t' : State, exec i s' = .next t' → t'.respStream = s'.respStream ++ r)

/-- `MAC_INIT`, the MAC family and `S2V` do not touch the CTR key or the CTR unit; `CTR_INIT` and the CTR family do not touch
the MAC key, the MAC unit or the S2V transients (R37, R132, R133, R190, R212). -/
def Obligations.UnitsAreWrittenSeparately : Prop :=
  ∀ (i : Instr) (s t : State), i.WellFormed → exec i s = .next t →
    (i.opcode ∈ [0x11#8, 0x20#8, 0x21#8, 0x22#8, 0x40#8] →
      t.kctr = s.kctr ∧ t.kctrLen = s.kctrLen ∧ SameCtrUnit s t) ∧
    (i.opcode ∈ [0x12#8, 0x30#8, 0x31#8] →
      t.kmac = s.kmac ∧ t.kmacLen = s.kmacLen ∧ t.mkind = s.mkind ∧ SameMacUnit s t ∧ SameTransients s t)

/-- The MAC family and `S2V` read nothing of the CTR key or the CTR unit, and the CTR family reads nothing of the MAC key or
the MAC unit: whatever those hold, the response and the own unit's next state are the same (R37, R190). -/
def Obligations.UnitsAreReadSeparately : Prop :=
  ∀ (i : Instr) (s s' t t' : State), i.WellFormed → exec i s = .next t → exec i s' = .next t' →
    (i.opcode ∈ [0x20#8, 0x21#8, 0x22#8, 0x40#8] → s'.kmac = s.kmac → s'.kmacLen = s.kmacLen → s'.mkind = s.mkind →
      SameMacUnit s s' →
        SameMacUnit t t' ∧ ∃ r, t.respStream = s.respStream ++ r ∧ t'.respStream = s'.respStream ++ r) ∧
    (i.opcode ∈ [0x30#8, 0x31#8] → s'.kctr = s.kctr → s'.kctrLen = s.kctrLen → SameCtrUnit s s' →
        SameCtrUnit t t' ∧ ∃ r, t.respStream = s.respStream ++ r ∧ t'.respStream = s'.respStream ++ r)

/-! ### The helper family (40_helpers.md) -/

/-- `DBL` (R102), with `dbl` byte by byte as R101 puts it: every byte shifted left by one, taking the top bit of the byte
after it; `0x87` into the last byte when the top bit of the block was 1. -/
def Obligations.DblDoublesABlock : Prop :=
  ∀ (a : Byte) (b : Half) (payload : List Byte) (s : State),
    (a = 0 → b = 0 → payload.length = 16 →
      ∃ out, exec (.dbl a b payload) s = .next (respond okCode 0x01 out s) ∧ out.length = 16 ∧
        (∀ i, i < 15 → out.getD i 0 = (payload.getD i 0 <<< 1) ||| (payload.getD (i + 1) 0 >>> 7)) ∧
        out.getD 15 0 = (payload.getD 15 0 <<< 1) ^^^ (if (payload.getD 0 0).getLsbD 7 = true then 0x87 else 0)) ∧
    (a ≠ 0 ∨ b ≠ 0 → exec (.dbl a b payload) s = .next (takeError 0x01 .badArg s)) ∧
    (a = 0 → b = 0 → payload.length ≠ 16 → exec (.dbl a b payload) s = .next (takeError 0x01 .length s))

/-- `DBLINV` (R104), with `dblinv` byte by byte as R103 puts it: every byte shifted right by one, taking the bottom bit of
the byte before it; `0x80` into the first byte and `0x43` into the last one when the bottom bit of the block was 1. And each of
`DBL` and `DBLINV` gives back the payload the other one answered. -/
def Obligations.DblinvHalvesABlock : Prop :=
  ∀ (a : Byte) (b : Half) (payload : List Byte) (s : State),
    (a = 0 → b = 0 → payload.length = 16 →
      ∃ out, exec (.dblinv a b payload) s = .next (respond okCode 0x02 out s) ∧ out.length = 16 ∧
        (∀ i, 0 < i → i < 15 → out.getD i 0 = (payload.getD i 0 >>> 1) ||| (payload.getD (i - 1) 0 <<< 7)) ∧
        out.getD 0 0 = (payload.getD 0 0 >>> 1) ^^^ (if (payload.getD 15 0).getLsbD 0 = true then 0x80 else 0) ∧
        out.getD 15 0 = ((payload.getD 15 0 >>> 1) ||| (payload.getD 14 0 <<< 7)) ^^^
          (if (payload.getD 15 0).getLsbD 0 = true then 0x43 else 0)) ∧
    (a ≠ 0 ∨ b ≠ 0 → exec (.dblinv a b payload) s = .next (takeError 0x02 .badArg s)) ∧
    (a = 0 → b = 0 → payload.length ≠ 16 → exec (.dblinv a b payload) s = .next (takeError 0x02 .length s)) ∧
    (a = 0 → b = 0 → payload.length = 16 → ∀ out,
      (exec (.dbl a b payload) s = .next (respond okCode 0x01 out s) →
        exec (.dblinv a b out) s = .next (respond okCode 0x02 payload s)) ∧
      (exec (.dblinv a b payload) s = .next (respond okCode 0x02 out s) →
        exec (.dbl a b out) s = .next (respond okCode 0x01 payload s)))

/-- `dbl` is linear over XOR, and `dblinv` is its inverse on both sides (R101, R103, R104). -/
def Obligations.DblIsALinearBijection : Prop :=
  ∀ x y : Block, dbl (x ^^^ y) = dbl x ^^^ dbl y ∧ dblinv (dbl x) = x ∧ dbl (dblinv x) = x

/-- `XOR` (R106) with `xor` of R105: the first `n = B` bytes with the rest XORed in from index 0; the tail is unchanged. -/
def Obligations.XorMixesTheSourceIn : Prop :=
  ∀ (a : Byte) (n : Half) (payload : List Byte) (s : State),
    (a = 0 → n.toNat ≤ payload.length → payload.length - n.toNat ≤ n.toNat →
      ∃ out, exec (.xor a n payload) s = .next (respond okCode 0x03 out s) ∧ out.length = n.toNat ∧
        (∀ i, i < payload.length - n.toNat → out.getD i 0 = payload.getD i 0 ^^^ payload.getD (n.toNat + i) 0) ∧
        ∀ i, payload.length - n.toNat ≤ i → i < n.toNat → out.getD i 0 = payload.getD i 0) ∧
    (a ≠ 0 ∨ payload.length < n.toNat → exec (.xor a n payload) s = .next (takeError 0x03 .badArg s)) ∧
    (a = 0 → n.toNat ≤ payload.length → n.toNat < payload.length - n.toNat →
      exec (.xor a n payload) s = .next (takeError 0x03 .length s))

/-- `PAD` (R108) with `pad` of R107: the bytes before `pos` stay, `0x80` at `pos`, zero after it. -/
def Obligations.PadWritesTheMarker : Prop :=
  ∀ (pos : Byte) (b : Half) (payload : List Byte) (s : State),
    (b = 0 → pos.toNat ≤ 15 → payload.length = 16 →
      ∃ out, exec (.pad pos b payload) s = .next (respond okCode 0x04 out s) ∧ out.length = 16 ∧
        (∀ i, i < pos.toNat → out.getD i 0 = payload.getD i 0) ∧ out.getD pos.toNat 0 = 0x80 ∧
        ∀ i, pos.toNat < i → out.getD i 0 = 0) ∧
    (b ≠ 0 ∨ 15 < pos.toNat → exec (.pad pos b payload) s = .next (takeError 0x04 .badArg s)) ∧
    (b = 0 → pos.toNat ≤ 15 → payload.length ≠ 16 → exec (.pad pos b payload) s = .next (takeError 0x04 .length s))

/-- `SELECT` (R110): `a` when the bit is 1 and `b` when it is 0, and this is the mask arithmetic of R109 byte by byte. -/
def Obligations.SelectPicksAHalf : Prop :=
  ∀ (bit : Byte) (b : Half) (payload : List Byte) (s : State),
    (b = 0 → bit.toNat ≤ 1 → payload.length % 2 = 0 →
      exec (.select bit b payload) s =
          .next (respond okCode 0x05
            (if bit = 1 then payload.take (payload.length / 2) else payload.drop (payload.length / 2)) s) ∧
        ∀ x y : Byte, (~~~(bit - 1) &&& x) ||| ((bit - 1) &&& y) = if bit = 1 then x else y) ∧
    (b ≠ 0 ∨ 1 < bit.toNat → exec (.select bit b payload) s = .next (takeError 0x05 .badArg s)) ∧
    (b = 0 → bit.toNat ≤ 1 → payload.length % 2 = 1 →
      exec (.select bit b payload) s = .next (takeError 0x05 .length s))

/-- `CMP` (R112) answers 1 exactly for equal strings (R111), two empty ones among them; `EQUAL` (R114) the same, but 0 when
either string is empty (R113). -/
def Obligations.CmpAndEqualCompareStrings : Prop :=
  ∀ (a : Byte) (n : Half) (payload : List Byte) (s : State),
    (a = 0 → n.toNat ≤ payload.length →
      exec (.cmp a n payload) s =
          .next (respond okCode 0x06 [if payload.take n.toNat = payload.drop n.toNat then 1 else 0] s) ∧
        exec (.equal a n payload) s =
          .next (respond okCode 0x07
            [if payload.take n.toNat = payload.drop n.toNat ∧ payload ≠ [] then 1 else 0] s)) ∧
    (a ≠ 0 ∨ payload.length < n.toNat →
      exec (.cmp a n payload) s = .next (takeError 0x06 .badArg s) ∧
        exec (.equal a n payload) s = .next (takeError 0x07 .badArg s))

/-! ### The configuration family (41_config.md) -/

/-- `SIV_INIT` leaves exactly the state of `MAC_INIT` with the first half of the master key and then `CTR_INIT` with the
second, with one cipher request and one response (R131, R216, R79). -/
def Obligations.SivInitLoadsBothHalves : Prop :=
  ∀ (kind : Byte) (b : Half) (key : List Byte) (s : State),
    (b = 0 → kind = 1 ∨ kind = 2 → key.length = 32 ∨ key.length = 64 →
      ∃ t u v, exec (.sivInit kind b key) s = .next t ∧
        exec (.macInit kind 0 (key.take (key.length / 2))) s = .next u ∧
        exec (.ctrInit 0 0 (key.drop (key.length / 2))) u = .next v ∧ registers t = registers v ∧
        t.cipherPort = s.cipherPort ++ [⟨.mac, 0⟩] ∧ v.cipherPort = t.cipherPort ∧ t.cmdStream = s.cmdStream ∧
        t.respStream = s.respStream ++ [0, 0x10, 0, 0, 0, 0, 0, 0] ∧
        (keyRegBytes t.kmac).take (key.length / 2) = key.take (key.length / 2) ∧
        (keyRegBytes t.kctr).take (key.length / 2) = key.drop (key.length / 2)) ∧
    (b ≠ 0 ∨ (kind ≠ 1 ∧ kind ≠ 2) → exec (.sivInit kind b key) s = .next (takeError 0x10 .badArg s)) ∧
    (b = 0 → kind = 1 ∨ kind = 2 → key.length ≠ 32 → key.length ≠ 64 →
      exec (.sivInit kind b key) s = .next (takeError 0x10 .keyLength s))

/-- `MAC_INIT` of the CMAC kind (R132, R151): the key, the two sub-keys from one request on the zero block, the PMAC
constants zero, an empty fresh MAC unit; the CTR unit and the log stay. And the checks of `MAC_INIT`, in order. -/
def Obligations.MacInitBuildsCmacSubkeys : Prop :=
  ∀ (kind : Byte) (b : Half) (key : List Byte) (s : State),
    (kind = 1 → b = 0 → key.length = 16 ∨ key.length = 32 →
      ∃ reg : KeyReg, keyRegBytes reg = key ++ List.replicate (32 - key.length) 0 ∧
        exec (.macInit kind b key) s =
          .next (respond okCode 0x11 []
            { s with
              kmac := reg, kmacLen := if key.length = 16 then .bytes16 else .bytes32, mkind := some .cmac
              k1 := dbl (Config.E key 0), k2 := dbl (dbl (Config.E key 0)), lTab := Vector.replicate 31 0, linv := 0
              chain := 0, buf := 0, pos := 0, offset := 0, tag := 0, cnt := 0, mst := .fresh
              cipherPort := s.cipherPort ++ [⟨.mac, 0⟩] })) ∧
    (b ≠ 0 ∨ (kind ≠ 1 ∧ kind ≠ 2) → exec (.macInit kind b key) s = .next (takeError 0x11 .badArg s)) ∧
    (b = 0 → kind = 1 ∨ kind = 2 → key.length ≠ 16 → key.length ≠ 32 →
      exec (.macInit kind b key) s = .next (takeError 0x11 .keyLength s))

/-- `MAC_INIT` of the PMAC kind (R132, R171): the key, the 31-entry table of doublings and `LINV` from one request on the
zero block, the CMAC sub-keys zero, an empty fresh MAC unit; the CTR unit and the log stay. -/
def Obligations.MacInitBuildsPmacTable : Prop :=
  ∀ (key : List Byte) (s : State), key.length = 16 ∨ key.length = 32 →
    ∃ (reg : KeyReg) (l : Vector Block 31) (inv : Block), keyRegBytes reg = key ++ List.replicate (32 - key.length) 0 ∧
      l[0] = Config.E key 0 ∧ (∀ i, (h : i < 30) → l[i + 1] = dbl l[i]) ∧ inv = dblinv l[0] ∧ dbl inv = l[0] ∧
      exec (.macInit 2 0 key) s =
        .next (respond okCode 0x11 []
          { s with
            kmac := reg, kmacLen := if key.length = 16 then .bytes16 else .bytes32, mkind := some .pmac
            k1 := 0, k2 := 0, lTab := l, linv := inv
            chain := 0, buf := 0, pos := 0, offset := 0, tag := 0, cnt := 0, mst := .fresh
            cipherPort := s.cipherPort ++ [⟨.mac, 0⟩] })

/-- `CTR_INIT` (R133): the key and a cleared, idle CTR unit; no cipher request, and the MAC unit stays. -/
def Obligations.CtrInitLoadsTheKey : Prop :=
  ∀ (a : Byte) (b : Half) (key : List Byte) (s : State),
    (a = 0 → b = 0 → key.length = 16 ∨ key.length = 32 →
      ∃ reg : KeyReg, keyRegBytes reg = key ++ List.replicate (32 - key.length) 0 ∧
        exec (.ctrInit a b key) s =
          .next (respond okCode 0x12 []
            { s with
              kctr := reg, kctrLen := if key.length = 16 then .bytes16 else .bytes32
              ctrblk := 0, ks := 0, kpos := 16, cst := .idle })) ∧
    (a ≠ 0 ∨ b ≠ 0 → exec (.ctrInit a b key) s = .next (takeError 0x12 .badArg s)) ∧
    (a = 0 → b = 0 → key.length ≠ 16 → key.length ≠ 32 →
      exec (.ctrInit a b key) s = .next (takeError 0x12 .keyLength s))

/-- `WIPE` (R134): every register but the error log at its reset value. -/
def Obligations.WipeKeepsOnlyTheLog : Prop :=
  ∀ (a : Byte) (b : Half) (payload : List Byte) (s : State),
    (a = 0 → b = 0 → payload = [] →
      exec (.wipe a b payload) s =
        .next (respond okCode 0x13 []
          { State.reset with
            lasterr := s.lasterr, esticky := s.esticky
            cmdStream := s.cmdStream, respStream := s.respStream, cipherPort := s.cipherPort })) ∧
    (a ≠ 0 ∨ b ≠ 0 → exec (.wipe a b payload) s = .next (takeError 0x13 .badArg s)) ∧
    (a = 0 → b = 0 → payload ≠ [] → exec (.wipe a b payload) s = .next (takeError 0x13 .length s))

/-- `GET_STATUS` (R135): the 14 bytes of R35, and no state change. -/
def Obligations.GetStatusReadsTheStatusBlock : Prop :=
  ∀ (a : Byte) (b : Half) (payload : List Byte) (s : State),
    (a = 0 → b = 0 → payload = [] →
      exec (.getStatus a b payload) s =
        .next (respond okCode 0x14
          [match s.mkind with | none => 0 | some .cmac => 1 | some .pmac => 2,
            match s.kmacLen with | .noKey => 0 | .bytes16 => 16 | .bytes32 => 32,
            match s.kctrLen with | .noKey => 0 | .bytes16 => 16 | .bytes32 => 32,
            match s.mst with | .fresh => 0 | .accumulating => 1 | .finished => 2,
            BitVec.ofNat 8 s.pos.val,
            match s.cst with | .idle => 0 | .streaming => 1,
            BitVec.ofNat 8 s.kpos.val, s.lasterr, s.esticky.extractLsb' 8 8, s.esticky.extractLsb' 0 8,
            s.cnt.extractLsb' 24 8, s.cnt.extractLsb' 16 8, s.cnt.extractLsb' 8 8, s.cnt.extractLsb' 0 8] s)) ∧
    (a ≠ 0 ∨ b ≠ 0 → exec (.getStatus a b payload) s = .next (takeError 0x14 .badArg s)) ∧
    (a = 0 → b = 0 → payload ≠ [] → exec (.getStatus a b payload) s = .next (takeError 0x14 .length s))

/-! ### The MAC family (42_cmac.md, 43_pmac.md) -/

/-- `MAC_RESET`, in every state of the unit and for both kinds (R152, R172): empty accumulators, `MST` Fresh, keys and
key-dependent constants kept, no cipher request. -/
def Obligations.MacResetEmptiesTheUnit : Prop :=
  ∀ (a : Byte) (b : Half) (payload : List Byte) (s : State),
    (a = 0 → b = 0 → payload = [] → s.mkind ≠ none →
      exec (.macReset a b payload) s =
        .next (respond okCode 0x20 []
          { s with chain := 0, buf := 0, pos := 0, offset := 0, tag := 0, cnt := 0, mst := .fresh })) ∧
    (a ≠ 0 ∨ b ≠ 0 → exec (.macReset a b payload) s = .next (takeError 0x20 .badArg s)) ∧
    (a = 0 → b = 0 → payload ≠ [] → exec (.macReset a b payload) s = .next (takeError 0x20 .length s)) ∧
    (a = 0 → b = 0 → payload = [] → s.mkind = none →
      exec (.macReset a b payload) s = .next (takeError 0x20 .noKey s))

/-- `MAC_UPDATE` in CMAC kind (R153): no byte changes `MST` alone; a byte goes into the buffer, after the full buffer was
processed if there was one; several bytes are one piece after another. Any piece is answered `OK`, and nothing but `CHAIN`,
`BUF`, `POS`, `MST` and the cipher port changes. -/
def Obligations.CmacUpdateFeedsBytes : Prop :=
  ∀ s : State, s.mkind = some .cmac → s.mst ≠ .finished →
    exec (.macUpdate 0 0 []) s = .next (respond okCode 0x21 [] { s with mst := .accumulating }) ∧
    (∀ d : Byte, s.pos.val < 16 →
      exec (.macUpdate 0 0 [d]) s =
        .next (respond okCode 0x21 []
          { s with buf := setBlockByte s.buf s.pos.val d, pos := s.pos + 1, mst := .accumulating })) ∧
    (∀ d : Byte, s.pos = 16 →
      exec (.macUpdate 0 0 [d]) s =
        .next (respond okCode 0x21 []
          { s with
            chain := Config.E (keyBytes .mac s) (s.chain ^^^ s.buf), buf := setBlockByte 0 0 d, pos := 1
            mst := .accumulating, cipherPort := s.cipherPort ++ [⟨.mac, s.chain ^^^ s.buf⟩] })) ∧
    (∀ bytes : List Byte, ∃ chain buf pos reqs,
      exec (.macUpdate 0 0 bytes) s =
        .next (respond okCode 0x21 []
          { s with
            chain := chain, buf := buf, pos := pos, mst := .accumulating, cipherPort := s.cipherPort ++ reqs })) ∧
    ∀ (x y : List Byte) (t u : State), exec (.macUpdate 0 0 x) s = .next t → exec (.macUpdate 0 0 y) t = .next u →
      exec (.macUpdate 0 0 (x ++ y)) s = .next { u with respStream := t.respStream }

/-- `MAC_UPDATE` in PMAC kind (R173, R174, R176): as in CMAC kind, but a full buffer is processed under the offset whose
table index `j` is the count of trailing zero bits of `CNT + 1`, and a `j` above 30 ends the digest. -/
def Obligations.PmacUpdateFeedsBytes : Prop :=
  ∀ s : State, s.mkind = some .pmac → s.mst ≠ .finished →
    exec (.macUpdate 0 0 []) s = .next (respond okCode 0x21 [] { s with mst := .accumulating }) ∧
    (∀ d : Byte, s.pos.val < 16 →
      exec (.macUpdate 0 0 [d]) s =
        .next (respond okCode 0x21 []
          { s with buf := setBlockByte s.buf s.pos.val d, pos := s.pos + 1, mst := .accumulating })) ∧
    (∀ (d : Byte) (j : Nat), s.pos = 16 → 2 ^ j ∣ s.cnt.toNat + 1 → ¬2 ^ (j + 1) ∣ s.cnt.toNat + 1 →
      (∀ h : j < 31,
        exec (.macUpdate 0 0 [d]) s =
          .next (respond okCode 0x21 []
            { s with
              offset := s.offset ^^^ s.lTab[j]
              tag := s.tag ^^^ Config.E (keyBytes .mac s) (s.offset ^^^ s.lTab[j] ^^^ s.buf), cnt := s.cnt + 1
              buf := setBlockByte 0 0 d, pos := 1, mst := .accumulating
              cipherPort := s.cipherPort ++ [⟨.mac, s.offset ^^^ s.lTab[j] ^^^ s.buf⟩] })) ∧
      (31 ≤ j →
        exec (.macUpdate 0 0 [d]) s =
          .next (takeError 0x21 .pmacLimit
            { s with buf := 0, pos := 0, offset := 0, tag := 0, cnt := 0, mst := .finished }))) ∧
    ∀ (x y : List Byte) (t u : State), exec (.macUpdate 0 0 x) s = .next t →
      (t.mst = .accumulating → exec (.macUpdate 0 0 y) t = .next u →
        exec (.macUpdate 0 0 (x ++ y)) s = .next { u with respStream := s.respStream ++ u.respStream.drop t.respStream.length }) ∧
      (t.mst = .finished → exec (.macUpdate 0 0 (x ++ y)) s = .next t)

/-- `MAC_FINISH` in CMAC kind (R154): the tag over the full buffer with `K1` or the padded one with `K2`, the wiped
accumulators, one cipher request; and its checks in order. -/
def Obligations.CmacFinishAnswersTheTag : Prop :=
  ∀ (a : Byte) (b : Half) (payload : List Byte) (s : State),
    (a = 0 → b = 0 → payload = [] → s.mkind = some .cmac → s.mst ≠ .finished →
      let x := s.chain ^^^ (if s.pos = 16 then s.buf ^^^ s.k1 else pad s.buf s.pos.val ^^^ s.k2)
      exec (.macFinish a b payload) s =
        .next (respond okCode 0x22 (blockBytes (Config.E (keyBytes .mac s) x))
          { s with chain := 0, buf := 0, pos := 0, mst := .finished, cipherPort := s.cipherPort ++ [⟨.mac, x⟩] })) ∧
    (a ≠ 0 ∨ b ≠ 0 → exec (.macFinish a b payload) s = .next (takeError 0x22 .badArg s)) ∧
    (a = 0 → b = 0 → payload ≠ [] → exec (.macFinish a b payload) s = .next (takeError 0x22 .length s)) ∧
    (a = 0 → b = 0 → payload = [] → s.mkind = none →
      exec (.macFinish a b payload) s = .next (takeError 0x22 .noKey s)) ∧
    (a = 0 → b = 0 → payload = [] → s.mkind = some .cmac → s.mst = .finished →
      exec (.macFinish a b payload) s = .next (takeError 0x22 .macFinished s))

/-- `MAC_FINISH` in PMAC kind (R175): the tag over the full buffer with `LINV` or the padded one, the wiped accumulators, one
cipher request; and its checks in order. -/
def Obligations.PmacFinishAnswersTheTag : Prop :=
  ∀ (a : Byte) (b : Half) (payload : List Byte) (s : State),
    (a = 0 → b = 0 → payload = [] → s.mkind = some .pmac → s.mst ≠ .finished →
      let x := s.tag ^^^ (if s.pos = 16 then s.buf ^^^ s.linv else pad s.buf s.pos.val)
      exec (.macFinish a b payload) s =
        .next (respond okCode 0x22 (blockBytes (Config.E (keyBytes .mac s) x))
          { s with
            buf := 0, pos := 0, offset := 0, tag := 0, cnt := 0, mst := .finished
            cipherPort := s.cipherPort ++ [⟨.mac, x⟩] })) ∧
    (a ≠ 0 ∨ b ≠ 0 → exec (.macFinish a b payload) s = .next (takeError 0x22 .badArg s)) ∧
    (a = 0 → b = 0 → payload ≠ [] → exec (.macFinish a b payload) s = .next (takeError 0x22 .length s)) ∧
    (a = 0 → b = 0 → payload = [] → s.mkind = none →
      exec (.macFinish a b payload) s = .next (takeError 0x22 .noKey s)) ∧
    (a = 0 → b = 0 → payload = [] → s.mkind = some .pmac → s.mst = .finished →
      exec (.macFinish a b payload) s = .next (takeError 0x22 .macFinished s))

/-- A CMAC digest, fed in any pieces, ends in the tag of R157 over the whole message, after `max(1, ceil(n / 16))` cipher
requests; how the message was cut does not show (R157). -/
def Obligations.CmacDigestIsTheClosedForm : Prop :=
  ∀ (s : State) (pieces : List (List Byte)), s.mkind = some .cmac →
    ∃ t u reqs, Runs (.macReset 0 0 [] :: pieces.map (.macUpdate 0 0)) s t ∧ exec (.macFinish 0 0 []) t = .next u ∧
      u.respStream = t.respStream ++
        responsePacket okCode 0x22 (blockBytes (cmacTag Config.E (keyBytes .mac s) s.k1 s.k2 pieces.flatten)) ∧
      u.cipherPort = s.cipherPort ++ reqs ∧
      reqs.map CipherReq.key = List.replicate (max 1 ((pieces.flatten.length + 15) / 16)) .mac

/-- A PMAC digest of at most `2^35` bytes, fed in any pieces, ends in the tag of R177 over the whole message, after
`max(1, ceil(n / 16))` cipher requests; how the message was cut does not show (R177). -/
def Obligations.PmacDigestIsTheClosedForm : Prop :=
  ∀ (s : State) (pieces : List (List Byte)), s.mkind = some .pmac → pieces.flatten.length ≤ 2 ^ 35 →
    ∃ t u reqs, Runs (.macReset 0 0 [] :: pieces.map (.macUpdate 0 0)) s t ∧ exec (.macFinish 0 0 []) t = .next u ∧
      u.respStream = t.respStream ++
        responsePacket okCode 0x22 (blockBytes (pmacTag Config.E (keyBytes .mac s) s.lTab s.linv pieces.flatten)) ∧
      u.cipherPort = s.cipherPort ++ reqs ∧
      reqs.map CipherReq.key = List.replicate (max 1 ((pieces.flatten.length + 15) / 16)) .mac

/-- Where a PMAC digest ends (R176, R247): with `CNT` in its reachable range, up to `2^35` bytes in all are accepted; one
byte more and the digest is abandoned with `ERR_PMAC_LIMIT`, keys, constants and CTR unit unchanged, after the requests of the
blocks that `CNT` still had room for, and the same command then fails with `ERR_MAC_FINISHED`. -/
def Obligations.PmacLimitAbandonsTheDigest : Prop :=
  ∀ (s : State) (bytes : List Byte), s.mkind = some .pmac → s.mst ≠ .finished → s.cnt.toNat ≤ 2 ^ 31 - 1 →
    (16 * s.cnt.toNat + s.pos.val + bytes.length ≤ 2 ^ 35 →
      ∃ t, exec (.macUpdate 0 0 bytes) s = .next (respond okCode 0x21 [] t) ∧ t.mst = .accumulating) ∧
    (2 ^ 35 < 16 * s.cnt.toNat + s.pos.val + bytes.length →
      ∃ reqs : List Block, reqs.length = 2 ^ 31 - 1 - s.cnt.toNat ∧
        let t := takeError 0x21 .pmacLimit
          { s with
            buf := 0, pos := 0, offset := 0, tag := 0, cnt := 0, mst := .finished
            cipherPort := s.cipherPort ++ reqs.map (CipherReq.mk .mac) }
        exec (.macUpdate 0 0 bytes) s = .next t ∧
          exec (.macUpdate 0 0 bytes) t = .next (takeError 0x21 .macFinished t))

/-- The transitions of `MST`, for both kinds (R156, R31): a rejected command leaves it; a key load, `WIPE`, `MAC_RESET` and
the SIV family leave Fresh; `MAC_UPDATE` leaves Accumulating, or Finished at the PMAC limit; `MAC_FINISH` leaves Finished;
every other command leaves it. -/
def Obligations.MacStateTransitions : Prop :=
  ∀ (i : Instr) (s t : State), i.WellFormed → exec i s = .next t →
    (earlyError i s ≠ none → t.mst = s.mst) ∧
    (earlyError i s = none →
      (i.opcode ∈ [0x10#8, 0x11#8, 0x13#8, 0x20#8, 0x40#8, 0x41#8, 0x42#8] → t.mst = .fresh) ∧
      (i.opcode = 0x21 →
        t.mst = .accumulating ∨ (t.mst = .finished ∧ s.mkind = some .pmac ∧ t.lasterr = errCode .pmacLimit)) ∧
      (i.opcode = 0x22 → t.mst = .finished) ∧
      (i.opcode ∉ [0x10#8, 0x11#8, 0x13#8, 0x20#8, 0x21#8, 0x22#8, 0x40#8, 0x41#8, 0x42#8] → t.mst = s.mst))

/-! ### The CTR family (44_ctr.md) -/

/-- The transitions of `CST` (R32): a rejected command leaves it; `CTR_SETIV` leaves Streaming; `CTR_INIT`, `SIV_INIT`, `WIPE`,
`SIV_SEAL` and `SIV_OPEN` leave Idle; `CTR_XOR` leaves Streaming, or Idle after an overflow; every other command leaves it. -/
def Obligations.CtrStateTransitions : Prop :=
  ∀ (i : Instr) (s t : State), i.WellFormed → exec i s = .next t →
    (earlyError i s ≠ none → t.cst = s.cst) ∧
    (earlyError i s = none →
      (i.opcode = 0x30 → t.cst = .streaming) ∧
      (i.opcode ∈ [0x10#8, 0x12#8, 0x13#8, 0x41#8, 0x42#8] → t.cst = .idle) ∧
      (i.opcode = 0x31 → t.cst = .streaming ∨ (t.cst = .idle ∧ t.lasterr = errCode .ctrOverflow)) ∧
      (i.opcode ∉ [0x10#8, 0x12#8, 0x13#8, 0x30#8, 0x31#8, 0x41#8, 0x42#8] → t.cst = s.cst))

/-- `CTR_SETIV`, in both states of the unit (R192): the counter is the IV as it stands, no keystream byte is left, no cipher
request is made; and its checks in order. -/
def Obligations.CtrSetivStartsAStream : Prop :=
  ∀ (a : Byte) (b : Half) (payload : List Byte) (s : State),
    (a = 0 → b = 0 → payload.length = 16 → s.kctrLen ≠ .noKey →
      ∃ iv : Block, blockBytes iv = payload ∧
        exec (.ctrSetiv a b payload) s =
          .next (respond okCode 0x30 [] { s with ctrblk := iv, ks := 0, kpos := 16, cst := .streaming })) ∧
    (a ≠ 0 ∨ b ≠ 0 → exec (.ctrSetiv a b payload) s = .next (takeError 0x30 .badArg s)) ∧
    (a = 0 → b = 0 → payload.length ≠ 16 → exec (.ctrSetiv a b payload) s = .next (takeError 0x30 .ivLength s)) ∧
    (a = 0 → b = 0 → payload.length = 16 → s.kctrLen = .noKey →
      exec (.ctrSetiv a b payload) s = .next (takeError 0x30 .noKey s))

/-- `CTR_XOR` (R193, R194, R195): no byte changes nothing; a byte takes the next keystream byte, after a new keystream block
if none is left; a block is needed and the counter is all-`ff`: the stream dies; several bytes are one piece after
another, and a piece that overflows makes the whole overflow. -/
def Obligations.CtrXorUsesTheNextKeystreamByte : Prop :=
  ∀ s : State, s.kctrLen ≠ .noKey → s.cst = .streaming →
    exec (.ctrXor 0 0 []) s = .next (respond okCode 0x31 [] s) ∧
    (∀ d : Byte, s.kpos.val < 16 →
      exec (.ctrXor 0 0 [d]) s =
        .next (respond okCode 0x31 [d ^^^ blockByte s.ks s.kpos.val] { s with kpos := s.kpos + 1 })) ∧
    (∀ d : Byte, s.kpos = 16 → s.ctrblk ≠ BitVec.allOnes 128 →
      exec (.ctrXor 0 0 [d]) s =
        .next (respond okCode 0x31 [d ^^^ blockByte (Config.E (keyBytes .ctr s) s.ctrblk) 0]
          { s with
            ks := Config.E (keyBytes .ctr s) s.ctrblk, ctrblk := s.ctrblk + 1, kpos := 1
            cipherPort := s.cipherPort ++ [⟨.ctr, s.ctrblk⟩] })) ∧
    (∀ d : Byte, s.kpos = 16 → s.ctrblk = BitVec.allOnes 128 →
      exec (.ctrXor 0 0 [d]) s =
        .next (takeError 0x31 .ctrOverflow { s with ctrblk := 0, ks := 0, kpos := 16, cst := .idle })) ∧
    ∀ (x y : List Byte) (t u : State), exec (.ctrXor 0 0 x) s = .next t →
      (t.cst = .streaming → exec (.ctrXor 0 0 y) t = .next u → u.cst = .streaming →
        ∃ ox oy, t.respStream = s.respStream ++ responsePacket okCode 0x31 ox ∧
          u.respStream = t.respStream ++ responsePacket okCode 0x31 oy ∧
          exec (.ctrXor 0 0 (x ++ y)) s =
            .next { u with respStream := s.respStream ++ responsePacket okCode 0x31 (ox ++ oy) }) ∧
      (t.cst = .streaming → exec (.ctrXor 0 0 y) t = .next u → u.cst = .idle →
        exec (.ctrXor 0 0 (x ++ y)) s =
          .next { u with respStream := s.respStream ++ responsePacket (errCode .ctrOverflow) 0x31 [] }) ∧
      (t.cst = .idle → exec (.ctrXor 0 0 (x ++ y)) s = .next t)

/-- A stream, read in any pieces, is XORed with the keystream `E(KCTR, iv) || E(KCTR, iv + 1) || ...` (R190), as long as the
counter stays below all-`ff` when a block is made; the counter and `KPOS` stand where R193 says, `ceil(n / 16)` cipher
requests were made, all with the CTR key, and the MAC key and the MAC unit are not touched. -/
def Obligations.CtrStreamIsTheKeystream : Prop :=
  ∀ (s : State) (iv : Block) (pieces : List (List Byte)) (ds : List Byte), s.kctrLen ≠ .noKey →
    let n := pieces.flatten.length + ds.length
    iv.toNat + (n + 15) / 16 ≤ 2 ^ 128 - 1 →
    ∃ t u reqs, Runs (.ctrSetiv 0 0 (blockBytes iv) :: pieces.map (.ctrXor 0 0)) s t ∧
      exec (.ctrXor 0 0 ds) t = .next u ∧
      u.respStream = t.respStream ++
        responsePacket okCode 0x31 (ctrStream Config.E (keyBytes .ctr s) iv pieces.flatten.length ds) ∧
      u.ctrblk.toNat = iv.toNat + (n + 15) / 16 ∧ u.kpos.val = (if n % 16 = 0 then 16 else n % 16) ∧
      u.cipherPort = s.cipherPort ++ reqs ∧ reqs.map CipherReq.key = List.replicate ((n + 15) / 16) .ctr ∧
      u.kmac = s.kmac ∧ u.kmacLen = s.kmacLen ∧ u.mkind = s.mkind ∧ SameMacUnit s u

/-- Where a stream ends (R194, R248, R277): with `16 - KPOS` bytes of keystream left and `2^128 - 1 - CTRBLK` blocks to come,
that many bytes are processed and one more overflows: no payload, counter and keystream wiped, CTR key and MAC unit
unchanged, after the requests of the blocks that were to come, and the same command then fails with `ERR_CTR_STATE`. -/
def Obligations.CtrOverflowKillsTheStream : Prop :=
  ∀ (s : State) (bytes : List Byte), s.kctrLen ≠ .noKey → s.cst = .streaming →
    (bytes.length ≤ 16 - s.kpos.val + 16 * (2 ^ 128 - 1 - s.ctrblk.toNat) →
      ∃ out ctrblk ks kpos reqs, exec (.ctrXor 0 0 bytes) s =
          .next (respond okCode 0x31 out
            { s with ctrblk := ctrblk, ks := ks, kpos := kpos, cipherPort := s.cipherPort ++ reqs }) ∧
        out.length = bytes.length) ∧
    (16 - s.kpos.val + 16 * (2 ^ 128 - 1 - s.ctrblk.toNat) < bytes.length →
      ∃ reqs : List Block, reqs.length = 2 ^ 128 - 1 - s.ctrblk.toNat ∧
        let t := takeError 0x31 .ctrOverflow
          { s with
            ctrblk := 0, ks := 0, kpos := 16, cst := .idle
            cipherPort := s.cipherPort ++ reqs.map (CipherReq.mk .ctr) }
        exec (.ctrXor 0 0 bytes) s = .next t ∧ exec (.ctrXor 0 0 bytes) t = .next (takeError 0x31 .ctrState t))

/-! ### The SIV family (45_siv.md) -/

/-- The zero-IV-bit rule (R215): bytes 8 and 12 lose their top bit, the other fourteen bytes stay. -/
def Obligations.ZeroIvBitsClearTwoBits : Prop :=
  ∀ v : Block, blockByte (sivIv v) 8 = blockByte v 8 &&& 0x7f ∧ blockByte (sivIv v) 12 = blockByte v 12 &&& 0x7f ∧
    ∀ i, i ≠ 8 → i ≠ 12 → blockByte (sivIv v) i = blockByte v i

/-- The framed vector (R75): more than 126 items are too many; otherwise the payload parses to exactly the items and the
final string whose framing it is, and to a framing error if there are none. -/
def Obligations.FramedVectorParses : Prop :=
  ∀ (nad : Byte) (payload : List Byte),
    (126 < nad.toNat → parseVector nad payload = .error .tooManyAd) ∧
    (nad.toNat ≤ 126 →
      (∀ items final, parseVector nad payload = .ok (items, final) ↔
        items.length = nad.toNat ∧ (∀ item ∈ items, item.length < 2 ^ 32) ∧ payload = frameVector items final) ∧
      ((∀ items final, ¬(items.length = nad.toNat ∧ (∀ item ∈ items, item.length < 2 ^ 32) ∧
          payload = frameVector items final)) →
        parseVector nad payload = .error .framing))

/-- `S2V` (R212, R213) answers the S2V of its items and its final string, makes the requests R222 counts, with the MAC key,
and leaves the MAC unit fresh and empty and the CTR unit as it was. -/
def Obligations.S2vAnswersTheVectorTag : Prop :=
  ∀ (kind : MacKind) (items : List (List Byte)) (p : List Byte) (s : State), VectorFits items p → s.mkind = some kind →
    ∃ reqs, exec (.s2v (BitVec.ofNat 8 items.length) 0 (frameVector items p)) s =
        .next (respond okCode 0x40 (blockBytes (s2vTag (macTag Config.E kind s) items p)) (afterS2v s reqs)) ∧
      reqs.map CipherReq.key = List.replicate (s2vRequests (items.map List.length) p.length) .mac

/-- `SIV_SEAL` (R217) answers the tag and the plaintext under the keystream of the tag's IV, with the requests of R222, and
leaves what `siv_end` leaves (R219). -/
def Obligations.SealAnswersTagAndCiphertext : Prop :=
  ∀ (kind : MacKind) (items : List (List Byte)) (p : List Byte) (s : State), VectorFits items p →
    p.length ≤ 2 ^ 32 - 17 → s.mkind = some kind → s.kctrLen ≠ .noKey →
    let v := s2vTag (macTag Config.E kind s) items p
    ∃ reqs, exec (.sivSeal (BitVec.ofNat 8 items.length) 0 (frameVector items p)) s =
        .next (respond okCode 0x41 (blockBytes v ++ ctrStream Config.E (keyBytes .ctr s) (sivIv v) 0 p)
          (afterSiv s reqs)) ∧
      reqs.map CipherReq.key =
        List.replicate (s2vRequests (items.map List.length) p.length) .mac ++ List.replicate ((p.length + 15) / 16) .ctr

/-- `SIV_OPEN` (R218) decrypts the body, recomputes the tag, and answers the plaintext if the two tags are equal and
`ERR_INTEGRITY` without payload otherwise; the requests of R222, CTR first, and the state left are the same in both cases
but for the error log (R249). -/
def Obligations.OpenReleasesVerifiedPlaintextOnly : Prop :=
  ∀ (kind : MacKind) (items : List (List Byte)) (tag : Block) (body : List Byte) (s : State),
    VectorFits items (blockBytes tag ++ body) → s.mkind = some kind → s.kctrLen ≠ .noKey →
    let p := ctrStream Config.E (keyBytes .ctr s) (sivIv tag) 0 body
    ∃ reqs,
      (s2vTag (macTag Config.E kind s) items p = tag →
        exec (.sivOpen (BitVec.ofNat 8 items.length) 0 (frameVector items (blockBytes tag ++ body))) s =
          .next (respond okCode 0x42 p { afterSiv s reqs with p := [] })) ∧
      (s2vTag (macTag Config.E kind s) items p ≠ tag →
        exec (.sivOpen (BitVec.ofNat 8 items.length) 0 (frameVector items (blockBytes tag ++ body))) s =
          .next (takeError 0x42 .integrity { afterSiv s reqs with p := [] })) ∧
      reqs.map CipherReq.key =
        List.replicate ((body.length + 15) / 16) .ctr ++
          List.replicate (s2vRequests (items.map List.length) body.length) .mac

/-- Round trip (R220, R281 P1): for all keys, kinds, items and plaintexts within the length limits, opening what was sealed
gives the plaintext back. -/
def Obligations.OpenInvertsSeal : Prop :=
  ∀ (items : List (List Byte)) (p : List Byte) (s : State), items.length ≤ 126 →
    (frameVector items p).length + 16 < 2 ^ 32 → s.mkind ≠ none → s.kctrLen ≠ .noKey →
    ∃ (c : List Byte) (t u : State),
      exec (.sivSeal (BitVec.ofNat 8 items.length) 0 (frameVector items p)) s = .next t ∧
      t.respStream = s.respStream ++ responsePacket okCode 0x41 c ∧ c.length = p.length + 16 ∧
      exec (.sivOpen (BitVec.ofNat 8 items.length) 0 (frameVector items c)) t = .next u ∧
      u.respStream = t.respStream ++ responsePacket okCode 0x42 p

/-- After any `SIV_SEAL` or `SIV_OPEN` past stage 2, whatever its outcome, every register other than the keys, the
key-dependent constants and the error log has its reset value; `P` has it after `SIV_OPEN`, and `SIV_SEAL` does not touch
it (R219, R281 P10). -/
def Obligations.SivCommandsLeaveNoTrace : Prop :=
  ∀ (i : Instr) (s t : State), i.WellFormed → i.opcode = 0x41 ∨ i.opcode = 0x42 → earlyError i s = none →
    exec i s = .next t →
    registers t =
      { State.reset with
        kmac := s.kmac, kmacLen := s.kmacLen, kctr := s.kctr, kctrLen := s.kctrLen, mkind := s.mkind
        k1 := s.k1, k2 := s.k2, lTab := s.lTab, linv := s.linv, lasterr := t.lasterr, esticky := t.esticky
        p := if i.opcode = 0x42 then [] else s.p }

/-! ### Whole-machine properties -/

/-- Data independence (R279): for two commands of the same header and the same item lengths, in two states that agree on the
control registers, the same checks fail in stages 1 and 2, the same keys are selected by the same number of cipher requests
in the same order, and the status and the response's length are the same, but for `ERR_INTEGRITY` against `OK` in `SIV_OPEN`. -/
def Obligations.SecretsDoNotSteerExecution : Prop :=
  ∀ (i j : Instr) (s s' t t' : State), i.WellFormed → j.WellFormed → SameShape i j → SameControl s s' →
    exec i s = .next t → exec j s' = .next t' →
    earlyError i s = earlyError j s' ∧
      (∃ reqs reqs', t.cipherPort = s.cipherPort ++ reqs ∧ t'.cipherPort = s'.cipherPort ++ reqs' ∧
        reqs.map CipherReq.key = reqs'.map CipherReq.key) ∧
      ∃ st st' out out', t.respStream = s.respStream ++ responsePacket st i.opcode out ∧
        t'.respStream = s'.respStream ++ responsePacket st' j.opcode out' ∧
        (st = st' ∧ out.length = out'.length ∨
          i.opcode = 0x42 ∧ (st = okCode ∧ st' = errCode .integrity ∨ st = errCode .integrity ∧ st' = okCode))

/-- Every command but `MAC_UPDATE`, `MAC_FINISH` and `CTR_XOR` gives the same response and the same final state when repeated
with the same packet (R57). -/
def Obligations.RepeatedCommandsRepeat : Prop :=
  ∀ (i : Instr) (s t u : State), i.WellFormed → i.opcode ∉ [0x21#8, 0x22#8, 0x31#8] → exec i s = .next t →
    exec i t = .next u →
    registers u = registers t ∧ ∃ r, t.respStream = s.respStream ++ r ∧ u.respStream = t.respStream ++ r

end Statements
end

