-- ==== Sys2Proof/Laws/Bytes.lean ====
section
/-! SUPPORT. Big-endian byte strings, blocks and key registers: lengths, round trips, single bytes. -/

namespace Sys2Proof

@[simp] theorem beBytes_length (n v : Nat) : (beBytes n v).length = n := by
  induction n with
  | zero => rfl
  | succ n ih => simp [beBytes, ih]

theorem beNatFrom_eq (ds : List Byte) (acc : Nat) : beNatFrom acc ds = acc * 256 ^ ds.length + beNat ds := by
  induction ds generalizing acc with
  | nil => simp [beNatFrom, beNat]
  | cons d ds ih =>
    have e : beNat (d :: ds) = beNatFrom (0 * 256 + d.toNat) ds := rfl
    rw [e, beNatFrom, ih, ih (0 * 256 + d.toNat), List.length_cons, Nat.pow_succ, Nat.add_mul, Nat.zero_mul, Nat.zero_add,
      Nat.mul_assoc, Nat.mul_comm 256, Nat.add_assoc]

@[simp] theorem beNat_nil : beNat [] = 0 := rfl

theorem beNat_cons (d : Byte) (ds : List Byte) : beNat (d :: ds) = d.toNat * 256 ^ ds.length + beNat ds := by
  have e : beNat (d :: ds) = beNatFrom (0 * 256 + d.toNat) ds := rfl
  rw [e, beNatFrom_eq, Nat.zero_mul, Nat.zero_add]

theorem beNat_append (as bs : List Byte) : beNat (as ++ bs) = beNat as * 256 ^ bs.length + beNat bs := by
  induction as with
  | nil => simp
  | cons a as ih =>
    rw [List.cons_append, beNat_cons, beNat_cons, ih, List.length_append, Nat.pow_add, Nat.add_mul, Nat.mul_assoc,
      Nat.add_assoc]

theorem beNat_lt (ds : List Byte) : beNat ds < 256 ^ ds.length := by
  induction ds with
  | nil => simp
  | cons d ds ih =>
    rw [beNat_cons, List.length_cons, Nat.pow_succ]
    have hd : d.toNat < 256 := d.isLt
    have : (d.toNat + 1) * 256 ^ ds.length ≤ 256 * 256 ^ ds.length := Nat.mul_le_mul_right _ hd
    rw [Nat.add_mul] at this
    omega

/-- Reading back the bytes of a number gives its low bytes. -/
theorem beNat_beBytes (n v : Nat) : beNat (beBytes n v) = v % 256 ^ n := by
  induction n with
  | zero => simp [beBytes, Nat.mod_one]
  | succ n ih =>
    have e : 256 ^ (n + 1) = 256 ^ n * 256 := Nat.pow_succ _ _
    rw [beBytes, beNat_cons, ih, beBytes_length, BitVec.toNat_ofNat, e, Nat.mod_mul, Nat.mul_comm, Nat.add_comm]

/-- The bytes of a number are those of its low bytes alone. -/
theorem beBytes_add_mul (n v k : Nat) : beBytes n (v + k * 256 ^ n) = beBytes n v := by
  induction n generalizing k with
  | zero => rfl
  | succ n ih =>
    rw [beBytes, beBytes]
    have e : v + k * 256 ^ (n + 1) = v + k * 256 * 256 ^ n := by rw [Nat.pow_succ, Nat.mul_assoc, Nat.mul_comm 256]
    congr 1
    · rw [e, Nat.add_mul_div_right _ _ (Nat.pow_pos (by decide))]
      apply BitVec.eq_of_toNat_eq
      rw [BitVec.toNat_ofNat, BitVec.toNat_ofNat]
      omega
    · rw [e, ih]

theorem beBytes_mod (n v : Nat) : beBytes n (v % 256 ^ n) = beBytes n v := by
  have := beBytes_add_mul n (v % 256 ^ n) (v / 256 ^ n)
  rw [Nat.mul_comm, Nat.mod_add_div] at this
  exact this.symm

/-- Writing a byte string's number gives the string back. -/
theorem beBytes_beNat (ds : List Byte) : beBytes ds.length (beNat ds) = ds := by
  induction ds with
  | nil => rfl
  | cons d ds ih =>
    rw [List.length_cons, beBytes, beNat_cons]
    congr 1
    · rw [Nat.add_comm, Nat.add_mul_div_right _ _ (Nat.pow_pos (by decide)), Nat.div_eq_of_lt (beNat_lt ds), Nat.zero_add]
      simp
    · rw [Nat.add_comm, beBytes_add_mul, ih]

theorem beBytes_beNat_of_length {n : Nat} {ds : List Byte} (h : ds.length = n) : beBytes n (beNat ds) = ds := by
  subst h; exact beBytes_beNat ds

theorem beBytes_getElem (n v i : Nat) (h : i < (beBytes n v).length) :
    (beBytes n v)[i] = BitVec.ofNat 8 (v / 256 ^ (n - 1 - i)) := by
  induction n generalizing i with
  | zero => simp [beBytes] at h
  | succ n ih =>
    cases i with
    | zero => simp [beBytes]
    | succ i =>
      simp only [beBytes, List.getElem_cons_succ]
      rw [ih, show n + 1 - 1 - (i + 1) = n - 1 - i from by omega]

namespace Machine

/-! ### Blocks -/

@[simp] theorem blockBytes_length (b : Block) : (blockBytes b).length = 16 := beBytes_length 16 _

@[simp] theorem keyRegBytes_length (k : KeyReg) : (keyRegBytes k).length = 32 := beBytes_length 32 _

@[simp] theorem blockOf_blockBytes (b : Block) : blockOf (blockBytes b) = b := by
  unfold blockOf blockBytes
  rw [beNat_beBytes, Nat.mod_eq_of_lt (show b.toNat < 256 ^ 16 from b.isLt)]
  simp

theorem blockBytes_blockOf {ds : List Byte} (h : ds.length = 16) : blockBytes (blockOf ds) = ds := by
  unfold blockOf blockBytes
  have hlt : beNat ds < 2 ^ 128 := by
    have := beNat_lt ds
    rw [h] at this
    exact this
  rw [BitVec.toNat_ofNat, Nat.mod_eq_of_lt hlt]
  exact beBytes_beNat_of_length h

theorem blockBytes_inj {a b : Block} (h : blockBytes a = blockBytes b) : a = b := by
  rw [← blockOf_blockBytes a, h, blockOf_blockBytes]

theorem blockOf_inj {as bs : List Byte} (ha : as.length = 16) (hb : bs.length = 16) (h : blockOf as = blockOf bs) :
    as = bs := by
  rw [← blockBytes_blockOf ha, h, blockBytes_blockOf hb]

/-- Byte `i` of a block is the eight bits from bit `8 * (15 - i)` of `int(b)` up (R15). -/
theorem blockByte_eq_extract (b : Block) {i : Nat} (h : i < 16) : blockByte b i = b.extractLsb' (8 * (15 - i)) 8 := by
  have hl : i < (beBytes 16 b.toNat).length := by simpa using h
  unfold blockByte blockBytes
  rw [List.getD_eq_getElem?_getD, List.getElem?_eq_getElem hl, Option.getD_some, beBytes_getElem]
  apply BitVec.eq_of_toNat_eq
  rw [BitVec.toNat_ofNat, BitVec.extractLsb'_toNat, Nat.shiftRight_eq_div_pow,
    show 16 - 1 - i = 15 - i from by omega, Nat.pow_mul]

theorem blockByte_of_le (b : Block) {i : Nat} (h : 16 ≤ i) : blockByte b i = 0 := by
  unfold blockByte
  rw [List.getD_eq_getElem?_getD, List.getElem?_eq_none (by simpa using h)]
  rfl

/-- A block is its sixteen bytes. -/
theorem block_ext {a b : Block} (h : ∀ i, i < 16 → blockByte a i = blockByte b i) : a = b := by
  apply blockBytes_inj
  apply List.ext_getElem (by simp)
  intro i h1 h2
  have hi : i < 16 := by simpa using h1
  have := h i hi
  unfold blockByte at this
  rwa [List.getD_eq_getElem?_getD, List.getD_eq_getElem?_getD, List.getElem?_eq_getElem h1,
    List.getElem?_eq_getElem h2] at this

theorem blockByte_blockOf {ds : List Byte} (h : ds.length = 16) (i : Nat) : blockByte (blockOf ds) i = ds.getD i 0 := by
  rw [blockByte, blockBytes_blockOf h]

/-- XOR of blocks is XOR of their bytes (R105). -/
theorem blockByte_xor (a b : Block) (i : Nat) : blockByte (a ^^^ b) i = blockByte a i ^^^ blockByte b i := by
  by_cases h : i < 16
  · rw [blockByte_eq_extract _ h, blockByte_eq_extract _ h, blockByte_eq_extract _ h]
    ext j
    simp
  · rw [blockByte_of_le _ (by omega), blockByte_of_le _ (by omega), blockByte_of_le _ (by omega)]
    rfl

@[simp] theorem blockByte_zero (i : Nat) : blockByte 0 i = 0 := by
  by_cases h : i < 16
  · rw [blockByte_eq_extract _ h]; simp
  · exact blockByte_of_le _ (by omega)

theorem zeroFill_length (n : Nat) (ds : List Byte) (h : ds.length ≤ n) : (zeroFill n ds).length = n := by
  simp [zeroFill]; omega

theorem zeroFill_getD (n : Nat) (ds : List Byte) (i : Nat) : (zeroFill n ds).getD i 0 = ds.getD i 0 := by
  unfold zeroFill
  by_cases h : i < ds.length
  · simp [List.getElem?_append_left h]
  · simp only [List.getD_eq_getElem?_getD]
    rw [List.getElem?_append_right (by omega), List.getElem?_eq_none (l := ds) (by omega), List.getElem?_replicate]
    split <;> rfl

theorem zeroFill_self {n : Nat} {ds : List Byte} (h : ds.length = n) : zeroFill n ds = ds := by
  simp [zeroFill, h]

/-- `b[i] <- d` writes byte `i` and no other (R17). -/
theorem blockByte_setBlockByte (b : Block) {i : Nat} (h : i < 16) (d : Byte) (j : Nat) :
    blockByte (setBlockByte b i d) j = if j = i then d else blockByte b j := by
  unfold setBlockByte
  rw [blockByte_blockOf (by simp)]
  unfold blockByte
  simp only [List.getD_eq_getElem?_getD]
  by_cases e : j = i
  · subst e
    simp [h]
  · simp [Ne.symm e, e]

/-- `b[i] <- d` on a block whose bytes from `i` on are zero: the block with the byte put after its first `i`. -/
theorem setBlockByte_zeroFill {ds : List Byte} (h : ds.length < 16) (d : Byte) :
    setBlockByte (blockOf (zeroFill 16 ds)) ds.length d = blockOf (zeroFill 16 (ds ++ [d])) := by
  have hl : (zeroFill 16 ds).length = 16 := zeroFill_length 16 ds (by omega)
  have hl' : (zeroFill 16 (ds ++ [d])).length = 16 := zeroFill_length 16 (ds ++ [d]) (by simp; omega)
  apply block_ext
  intro i _
  rw [blockByte_setBlockByte _ h, blockByte_blockOf hl, blockByte_blockOf hl', zeroFill_getD, zeroFill_getD]
  by_cases e : i = ds.length
  · subst e; simp
  · simp only [e, if_false, List.getD_eq_getElem?_getD]
    by_cases hi : i < ds.length
    · rw [List.getElem?_append_left hi]
    · rw [List.getElem?_eq_none (by omega), List.getElem?_eq_none (by simp; omega)]

/-! ### Key registers -/

theorem keyRegBytes_keyRegOf {key : List Byte} (h : key.length ≤ 32) : keyRegBytes (keyRegOf key) = zeroFill 32 key := by
  have hl : (zeroFill 32 key).length = 32 := zeroFill_length 32 key h
  unfold keyRegBytes keyRegOf
  have hlt : beNat (zeroFill 32 key) < 2 ^ 256 := by
    have := beNat_lt (zeroFill 32 key)
    rw [hl] at this
    exact this
  rw [BitVec.toNat_ofNat, Nat.mod_eq_of_lt hlt]
  exact beBytes_beNat_of_length hl

/-- The loaded prefix of a key register just loaded is the key (R23, R132, R133). -/
theorem keyRegBytes_take {key : List Byte} (h : key.length ≤ 32) : (keyRegBytes (keyRegOf key)).take key.length = key := by
  rw [keyRegBytes_keyRegOf h]
  simp [zeroFill]

theorem keyLenBytes_keyLenOf {n : Nat} (h : n = 16 ∨ n = 32) : keyLenBytes (keyLenOf n) = n := by
  rcases h with rfl | rfl <;> rfl

end Machine

end Sys2Proof
end

