-- ==== Sys2Proof/Laws/State.lean ====
section
/-! SUPPORT. What each shared update of the state leaves in each field, true by definition: one lemma per field and update. -/

namespace Sys2Proof.Machine

/-! ### One response packet goes out; nothing else changes (R53, R71). -/

@[simp] theorem respond_kmac (st op : Byte) (out : List Byte) (s : State) : (respond st op out s).kmac = s.kmac := rfl
@[simp] theorem respond_kmacLen (st op : Byte) (out : List Byte) (s : State) : (respond st op out s).kmacLen = s.kmacLen := rfl
@[simp] theorem respond_kctr (st op : Byte) (out : List Byte) (s : State) : (respond st op out s).kctr = s.kctr := rfl
@[simp] theorem respond_kctrLen (st op : Byte) (out : List Byte) (s : State) : (respond st op out s).kctrLen = s.kctrLen := rfl
@[simp] theorem respond_mkind (st op : Byte) (out : List Byte) (s : State) : (respond st op out s).mkind = s.mkind := rfl
@[simp] theorem respond_k1 (st op : Byte) (out : List Byte) (s : State) : (respond st op out s).k1 = s.k1 := rfl
@[simp] theorem respond_k2 (st op : Byte) (out : List Byte) (s : State) : (respond st op out s).k2 = s.k2 := rfl
@[simp] theorem respond_chain (st op : Byte) (out : List Byte) (s : State) : (respond st op out s).chain = s.chain := rfl
@[simp] theorem respond_buf (st op : Byte) (out : List Byte) (s : State) : (respond st op out s).buf = s.buf := rfl
@[simp] theorem respond_pos (st op : Byte) (out : List Byte) (s : State) : (respond st op out s).pos = s.pos := rfl
@[simp] theorem respond_mst (st op : Byte) (out : List Byte) (s : State) : (respond st op out s).mst = s.mst := rfl
@[simp] theorem respond_lTab (st op : Byte) (out : List Byte) (s : State) : (respond st op out s).lTab = s.lTab := rfl
@[simp] theorem respond_linv (st op : Byte) (out : List Byte) (s : State) : (respond st op out s).linv = s.linv := rfl
@[simp] theorem respond_offset (st op : Byte) (out : List Byte) (s : State) : (respond st op out s).offset = s.offset := rfl
@[simp] theorem respond_tag (st op : Byte) (out : List Byte) (s : State) : (respond st op out s).tag = s.tag := rfl
@[simp] theorem respond_cnt (st op : Byte) (out : List Byte) (s : State) : (respond st op out s).cnt = s.cnt := rfl
@[simp] theorem respond_ctrblk (st op : Byte) (out : List Byte) (s : State) : (respond st op out s).ctrblk = s.ctrblk := rfl
@[simp] theorem respond_ks (st op : Byte) (out : List Byte) (s : State) : (respond st op out s).ks = s.ks := rfl
@[simp] theorem respond_kpos (st op : Byte) (out : List Byte) (s : State) : (respond st op out s).kpos = s.kpos := rfl
@[simp] theorem respond_cst (st op : Byte) (out : List Byte) (s : State) : (respond st op out s).cst = s.cst := rfl
@[simp] theorem respond_d (st op : Byte) (out : List Byte) (s : State) : (respond st op out s).d = s.d := rfl
@[simp] theorem respond_t (st op : Byte) (out : List Byte) (s : State) : (respond st op out s).t = s.t := rfl
@[simp] theorem respond_p (st op : Byte) (out : List Byte) (s : State) : (respond st op out s).p = s.p := rfl
@[simp] theorem respond_lasterr (st op : Byte) (out : List Byte) (s : State) : (respond st op out s).lasterr = s.lasterr := rfl
@[simp] theorem respond_esticky (st op : Byte) (out : List Byte) (s : State) : (respond st op out s).esticky = s.esticky := rfl
@[simp] theorem respond_cmdStream (st op : Byte) (out : List Byte) (s : State) : (respond st op out s).cmdStream = s.cmdStream := rfl
@[simp] theorem respond_respStream (st op : Byte) (out : List Byte) (s : State) : (respond st op out s).respStream = s.respStream ++ responsePacket st op out := rfl
@[simp] theorem respond_cipherPort (st op : Byte) (out : List Byte) (s : State) : (respond st op out s).cipherPort = s.cipherPort := rfl

/-! ### The error log alone changes (R245). -/

@[simp] theorem logError_kmac (e : Err) (s : State) : (logError e s).kmac = s.kmac := rfl
@[simp] theorem logError_kmacLen (e : Err) (s : State) : (logError e s).kmacLen = s.kmacLen := rfl
@[simp] theorem logError_kctr (e : Err) (s : State) : (logError e s).kctr = s.kctr := rfl
@[simp] theorem logError_kctrLen (e : Err) (s : State) : (logError e s).kctrLen = s.kctrLen := rfl
@[simp] theorem logError_mkind (e : Err) (s : State) : (logError e s).mkind = s.mkind := rfl
@[simp] theorem logError_k1 (e : Err) (s : State) : (logError e s).k1 = s.k1 := rfl
@[simp] theorem logError_k2 (e : Err) (s : State) : (logError e s).k2 = s.k2 := rfl
@[simp] theorem logError_chain (e : Err) (s : State) : (logError e s).chain = s.chain := rfl
@[simp] theorem logError_buf (e : Err) (s : State) : (logError e s).buf = s.buf := rfl
@[simp] theorem logError_pos (e : Err) (s : State) : (logError e s).pos = s.pos := rfl
@[simp] theorem logError_mst (e : Err) (s : State) : (logError e s).mst = s.mst := rfl
@[simp] theorem logError_lTab (e : Err) (s : State) : (logError e s).lTab = s.lTab := rfl
@[simp] theorem logError_linv (e : Err) (s : State) : (logError e s).linv = s.linv := rfl
@[simp] theorem logError_offset (e : Err) (s : State) : (logError e s).offset = s.offset := rfl
@[simp] theorem logError_tag (e : Err) (s : State) : (logError e s).tag = s.tag := rfl
@[simp] theorem logError_cnt (e : Err) (s : State) : (logError e s).cnt = s.cnt := rfl
@[simp] theorem logError_ctrblk (e : Err) (s : State) : (logError e s).ctrblk = s.ctrblk := rfl
@[simp] theorem logError_ks (e : Err) (s : State) : (logError e s).ks = s.ks := rfl
@[simp] theorem logError_kpos (e : Err) (s : State) : (logError e s).kpos = s.kpos := rfl
@[simp] theorem logError_cst (e : Err) (s : State) : (logError e s).cst = s.cst := rfl
@[simp] theorem logError_d (e : Err) (s : State) : (logError e s).d = s.d := rfl
@[simp] theorem logError_t (e : Err) (s : State) : (logError e s).t = s.t := rfl
@[simp] theorem logError_p (e : Err) (s : State) : (logError e s).p = s.p := rfl
@[simp] theorem logError_lasterr (e : Err) (s : State) : (logError e s).lasterr = errCode e := rfl
@[simp] theorem logError_esticky (e : Err) (s : State) : (logError e s).esticky = s.esticky ||| stickyBit e := rfl
@[simp] theorem logError_cmdStream (e : Err) (s : State) : (logError e s).cmdStream = s.cmdStream := rfl
@[simp] theorem logError_respStream (e : Err) (s : State) : (logError e s).respStream = s.respStream := rfl
@[simp] theorem logError_cipherPort (e : Err) (s : State) : (logError e s).cipherPort = s.cipherPort := rfl

/-! ### Taking an error writes the log and the response alone (R245, R250). -/

@[simp] theorem takeError_kmac (op : Byte) (e : Err) (s : State) : (takeError op e s).kmac = s.kmac := rfl
@[simp] theorem takeError_kmacLen (op : Byte) (e : Err) (s : State) : (takeError op e s).kmacLen = s.kmacLen := rfl
@[simp] theorem takeError_kctr (op : Byte) (e : Err) (s : State) : (takeError op e s).kctr = s.kctr := rfl
@[simp] theorem takeError_kctrLen (op : Byte) (e : Err) (s : State) : (takeError op e s).kctrLen = s.kctrLen := rfl
@[simp] theorem takeError_mkind (op : Byte) (e : Err) (s : State) : (takeError op e s).mkind = s.mkind := rfl
@[simp] theorem takeError_k1 (op : Byte) (e : Err) (s : State) : (takeError op e s).k1 = s.k1 := rfl
@[simp] theorem takeError_k2 (op : Byte) (e : Err) (s : State) : (takeError op e s).k2 = s.k2 := rfl
@[simp] theorem takeError_chain (op : Byte) (e : Err) (s : State) : (takeError op e s).chain = s.chain := rfl
@[simp] theorem takeError_buf (op : Byte) (e : Err) (s : State) : (takeError op e s).buf = s.buf := rfl
@[simp] theorem takeError_pos (op : Byte) (e : Err) (s : State) : (takeError op e s).pos = s.pos := rfl
@[simp] theorem takeError_mst (op : Byte) (e : Err) (s : State) : (takeError op e s).mst = s.mst := rfl
@[simp] theorem takeError_lTab (op : Byte) (e : Err) (s : State) : (takeError op e s).lTab = s.lTab := rfl
@[simp] theorem takeError_linv (op : Byte) (e : Err) (s : State) : (takeError op e s).linv = s.linv := rfl
@[simp] theorem takeError_offset (op : Byte) (e : Err) (s : State) : (takeError op e s).offset = s.offset := rfl
@[simp] theorem takeError_tag (op : Byte) (e : Err) (s : State) : (takeError op e s).tag = s.tag := rfl
@[simp] theorem takeError_cnt (op : Byte) (e : Err) (s : State) : (takeError op e s).cnt = s.cnt := rfl
@[simp] theorem takeError_ctrblk (op : Byte) (e : Err) (s : State) : (takeError op e s).ctrblk = s.ctrblk := rfl
@[simp] theorem takeError_ks (op : Byte) (e : Err) (s : State) : (takeError op e s).ks = s.ks := rfl
@[simp] theorem takeError_kpos (op : Byte) (e : Err) (s : State) : (takeError op e s).kpos = s.kpos := rfl
@[simp] theorem takeError_cst (op : Byte) (e : Err) (s : State) : (takeError op e s).cst = s.cst := rfl
@[simp] theorem takeError_d (op : Byte) (e : Err) (s : State) : (takeError op e s).d = s.d := rfl
@[simp] theorem takeError_t (op : Byte) (e : Err) (s : State) : (takeError op e s).t = s.t := rfl
@[simp] theorem takeError_p (op : Byte) (e : Err) (s : State) : (takeError op e s).p = s.p := rfl
@[simp] theorem takeError_lasterr (op : Byte) (e : Err) (s : State) : (takeError op e s).lasterr = errCode e := rfl
@[simp] theorem takeError_esticky (op : Byte) (e : Err) (s : State) : (takeError op e s).esticky = s.esticky ||| stickyBit e := rfl
@[simp] theorem takeError_cmdStream (op : Byte) (e : Err) (s : State) : (takeError op e s).cmdStream = s.cmdStream := rfl
@[simp] theorem takeError_respStream (op : Byte) (e : Err) (s : State) : (takeError op e s).respStream = s.respStream ++ responsePacket (errCode e) op [] := rfl
@[simp] theorem takeError_cipherPort (op : Byte) (e : Err) (s : State) : (takeError op e s).cipherPort = s.cipherPort := rfl

/-! ### A cipher request changes no register (R55). -/

@[simp] theorem encipher_kmac (E : Cipher) (sel : KeySel) (b : Block) (s : State) : (encipher E sel b s).2.kmac = s.kmac := rfl
@[simp] theorem encipher_kmacLen (E : Cipher) (sel : KeySel) (b : Block) (s : State) : (encipher E sel b s).2.kmacLen = s.kmacLen := rfl
@[simp] theorem encipher_kctr (E : Cipher) (sel : KeySel) (b : Block) (s : State) : (encipher E sel b s).2.kctr = s.kctr := rfl
@[simp] theorem encipher_kctrLen (E : Cipher) (sel : KeySel) (b : Block) (s : State) : (encipher E sel b s).2.kctrLen = s.kctrLen := rfl
@[simp] theorem encipher_mkind (E : Cipher) (sel : KeySel) (b : Block) (s : State) : (encipher E sel b s).2.mkind = s.mkind := rfl
@[simp] theorem encipher_k1 (E : Cipher) (sel : KeySel) (b : Block) (s : State) : (encipher E sel b s).2.k1 = s.k1 := rfl
@[simp] theorem encipher_k2 (E : Cipher) (sel : KeySel) (b : Block) (s : State) : (encipher E sel b s).2.k2 = s.k2 := rfl
@[simp] theorem encipher_chain (E : Cipher) (sel : KeySel) (b : Block) (s : State) : (encipher E sel b s).2.chain = s.chain := rfl
@[simp] theorem encipher_buf (E : Cipher) (sel : KeySel) (b : Block) (s : State) : (encipher E sel b s).2.buf = s.buf := rfl
@[simp] theorem encipher_pos (E : Cipher) (sel : KeySel) (b : Block) (s : State) : (encipher E sel b s).2.pos = s.pos := rfl
@[simp] theorem encipher_mst (E : Cipher) (sel : KeySel) (b : Block) (s : State) : (encipher E sel b s).2.mst = s.mst := rfl
@[simp] theorem encipher_lTab (E : Cipher) (sel : KeySel) (b : Block) (s : State) : (encipher E sel b s).2.lTab = s.lTab := rfl
@[simp] theorem encipher_linv (E : Cipher) (sel : KeySel) (b : Block) (s : State) : (encipher E sel b s).2.linv = s.linv := rfl
@[simp] theorem encipher_offset (E : Cipher) (sel : KeySel) (b : Block) (s : State) : (encipher E sel b s).2.offset = s.offset := rfl
@[simp] theorem encipher_tag (E : Cipher) (sel : KeySel) (b : Block) (s : State) : (encipher E sel b s).2.tag = s.tag := rfl
@[simp] theorem encipher_cnt (E : Cipher) (sel : KeySel) (b : Block) (s : State) : (encipher E sel b s).2.cnt = s.cnt := rfl
@[simp] theorem encipher_ctrblk (E : Cipher) (sel : KeySel) (b : Block) (s : State) : (encipher E sel b s).2.ctrblk = s.ctrblk := rfl
@[simp] theorem encipher_ks (E : Cipher) (sel : KeySel) (b : Block) (s : State) : (encipher E sel b s).2.ks = s.ks := rfl
@[simp] theorem encipher_kpos (E : Cipher) (sel : KeySel) (b : Block) (s : State) : (encipher E sel b s).2.kpos = s.kpos := rfl
@[simp] theorem encipher_cst (E : Cipher) (sel : KeySel) (b : Block) (s : State) : (encipher E sel b s).2.cst = s.cst := rfl
@[simp] theorem encipher_d (E : Cipher) (sel : KeySel) (b : Block) (s : State) : (encipher E sel b s).2.d = s.d := rfl
@[simp] theorem encipher_t (E : Cipher) (sel : KeySel) (b : Block) (s : State) : (encipher E sel b s).2.t = s.t := rfl
@[simp] theorem encipher_p (E : Cipher) (sel : KeySel) (b : Block) (s : State) : (encipher E sel b s).2.p = s.p := rfl
@[simp] theorem encipher_lasterr (E : Cipher) (sel : KeySel) (b : Block) (s : State) : (encipher E sel b s).2.lasterr = s.lasterr := rfl
@[simp] theorem encipher_esticky (E : Cipher) (sel : KeySel) (b : Block) (s : State) : (encipher E sel b s).2.esticky = s.esticky := rfl
@[simp] theorem encipher_cmdStream (E : Cipher) (sel : KeySel) (b : Block) (s : State) : (encipher E sel b s).2.cmdStream = s.cmdStream := rfl
@[simp] theorem encipher_respStream (E : Cipher) (sel : KeySel) (b : Block) (s : State) : (encipher E sel b s).2.respStream = s.respStream := rfl
@[simp] theorem encipher_cipherPort (E : Cipher) (sel : KeySel) (b : Block) (s : State) : (encipher E sel b s).2.cipherPort = s.cipherPort ++ [⟨sel, b⟩] := rfl

/-! ### `mac_reset()` (R152). -/

@[simp] theorem macReset_kmac (s : State) : (macReset s).kmac = s.kmac := rfl
@[simp] theorem macReset_kmacLen (s : State) : (macReset s).kmacLen = s.kmacLen := rfl
@[simp] theorem macReset_kctr (s : State) : (macReset s).kctr = s.kctr := rfl
@[simp] theorem macReset_kctrLen (s : State) : (macReset s).kctrLen = s.kctrLen := rfl
@[simp] theorem macReset_mkind (s : State) : (macReset s).mkind = s.mkind := rfl
@[simp] theorem macReset_k1 (s : State) : (macReset s).k1 = s.k1 := rfl
@[simp] theorem macReset_k2 (s : State) : (macReset s).k2 = s.k2 := rfl
@[simp] theorem macReset_chain (s : State) : (macReset s).chain = 0 := rfl
@[simp] theorem macReset_buf (s : State) : (macReset s).buf = 0 := rfl
@[simp] theorem macReset_pos (s : State) : (macReset s).pos = 0 := rfl
@[simp] theorem macReset_mst (s : State) : (macReset s).mst = .fresh := rfl
@[simp] theorem macReset_lTab (s : State) : (macReset s).lTab = s.lTab := rfl
@[simp] theorem macReset_linv (s : State) : (macReset s).linv = s.linv := rfl
@[simp] theorem macReset_offset (s : State) : (macReset s).offset = 0 := rfl
@[simp] theorem macReset_tag (s : State) : (macReset s).tag = 0 := rfl
@[simp] theorem macReset_cnt (s : State) : (macReset s).cnt = 0 := rfl
@[simp] theorem macReset_ctrblk (s : State) : (macReset s).ctrblk = s.ctrblk := rfl
@[simp] theorem macReset_ks (s : State) : (macReset s).ks = s.ks := rfl
@[simp] theorem macReset_kpos (s : State) : (macReset s).kpos = s.kpos := rfl
@[simp] theorem macReset_cst (s : State) : (macReset s).cst = s.cst := rfl
@[simp] theorem macReset_d (s : State) : (macReset s).d = s.d := rfl
@[simp] theorem macReset_t (s : State) : (macReset s).t = s.t := rfl
@[simp] theorem macReset_p (s : State) : (macReset s).p = s.p := rfl
@[simp] theorem macReset_lasterr (s : State) : (macReset s).lasterr = s.lasterr := rfl
@[simp] theorem macReset_esticky (s : State) : (macReset s).esticky = s.esticky := rfl
@[simp] theorem macReset_cmdStream (s : State) : (macReset s).cmdStream = s.cmdStream := rfl
@[simp] theorem macReset_respStream (s : State) : (macReset s).respStream = s.respStream := rfl
@[simp] theorem macReset_cipherPort (s : State) : (macReset s).cipherPort = s.cipherPort := rfl

/-! ### One byte into `BUF` (R153, R173). -/

@[simp] theorem bufferByte_kmac (d : Byte) (s : State) : (bufferByte d s).kmac = s.kmac := rfl
@[simp] theorem bufferByte_kmacLen (d : Byte) (s : State) : (bufferByte d s).kmacLen = s.kmacLen := rfl
@[simp] theorem bufferByte_kctr (d : Byte) (s : State) : (bufferByte d s).kctr = s.kctr := rfl
@[simp] theorem bufferByte_kctrLen (d : Byte) (s : State) : (bufferByte d s).kctrLen = s.kctrLen := rfl
@[simp] theorem bufferByte_mkind (d : Byte) (s : State) : (bufferByte d s).mkind = s.mkind := rfl
@[simp] theorem bufferByte_k1 (d : Byte) (s : State) : (bufferByte d s).k1 = s.k1 := rfl
@[simp] theorem bufferByte_k2 (d : Byte) (s : State) : (bufferByte d s).k2 = s.k2 := rfl
@[simp] theorem bufferByte_chain (d : Byte) (s : State) : (bufferByte d s).chain = s.chain := rfl
@[simp] theorem bufferByte_buf (d : Byte) (s : State) : (bufferByte d s).buf = setBlockByte s.buf s.pos.val d := rfl
@[simp] theorem bufferByte_pos (d : Byte) (s : State) : (bufferByte d s).pos = s.pos + 1 := rfl
@[simp] theorem bufferByte_mst (d : Byte) (s : State) : (bufferByte d s).mst = s.mst := rfl
@[simp] theorem bufferByte_lTab (d : Byte) (s : State) : (bufferByte d s).lTab = s.lTab := rfl
@[simp] theorem bufferByte_linv (d : Byte) (s : State) : (bufferByte d s).linv = s.linv := rfl
@[simp] theorem bufferByte_offset (d : Byte) (s : State) : (bufferByte d s).offset = s.offset := rfl
@[simp] theorem bufferByte_tag (d : Byte) (s : State) : (bufferByte d s).tag = s.tag := rfl
@[simp] theorem bufferByte_cnt (d : Byte) (s : State) : (bufferByte d s).cnt = s.cnt := rfl
@[simp] theorem bufferByte_ctrblk (d : Byte) (s : State) : (bufferByte d s).ctrblk = s.ctrblk := rfl
@[simp] theorem bufferByte_ks (d : Byte) (s : State) : (bufferByte d s).ks = s.ks := rfl
@[simp] theorem bufferByte_kpos (d : Byte) (s : State) : (bufferByte d s).kpos = s.kpos := rfl
@[simp] theorem bufferByte_cst (d : Byte) (s : State) : (bufferByte d s).cst = s.cst := rfl
@[simp] theorem bufferByte_d (d : Byte) (s : State) : (bufferByte d s).d = s.d := rfl
@[simp] theorem bufferByte_t (d : Byte) (s : State) : (bufferByte d s).t = s.t := rfl
@[simp] theorem bufferByte_p (d : Byte) (s : State) : (bufferByte d s).p = s.p := rfl
@[simp] theorem bufferByte_lasterr (d : Byte) (s : State) : (bufferByte d s).lasterr = s.lasterr := rfl
@[simp] theorem bufferByte_esticky (d : Byte) (s : State) : (bufferByte d s).esticky = s.esticky := rfl
@[simp] theorem bufferByte_cmdStream (d : Byte) (s : State) : (bufferByte d s).cmdStream = s.cmdStream := rfl
@[simp] theorem bufferByte_respStream (d : Byte) (s : State) : (bufferByte d s).respStream = s.respStream := rfl
@[simp] theorem bufferByte_cipherPort (d : Byte) (s : State) : (bufferByte d s).cipherPort = s.cipherPort := rfl

/-! ### `ctr_clear()` (R191). -/

@[simp] theorem ctrClear_kmac (s : State) : (ctrClear s).kmac = s.kmac := rfl
@[simp] theorem ctrClear_kmacLen (s : State) : (ctrClear s).kmacLen = s.kmacLen := rfl
@[simp] theorem ctrClear_kctr (s : State) : (ctrClear s).kctr = s.kctr := rfl
@[simp] theorem ctrClear_kctrLen (s : State) : (ctrClear s).kctrLen = s.kctrLen := rfl
@[simp] theorem ctrClear_mkind (s : State) : (ctrClear s).mkind = s.mkind := rfl
@[simp] theorem ctrClear_k1 (s : State) : (ctrClear s).k1 = s.k1 := rfl
@[simp] theorem ctrClear_k2 (s : State) : (ctrClear s).k2 = s.k2 := rfl
@[simp] theorem ctrClear_chain (s : State) : (ctrClear s).chain = s.chain := rfl
@[simp] theorem ctrClear_buf (s : State) : (ctrClear s).buf = s.buf := rfl
@[simp] theorem ctrClear_pos (s : State) : (ctrClear s).pos = s.pos := rfl
@[simp] theorem ctrClear_mst (s : State) : (ctrClear s).mst = s.mst := rfl
@[simp] theorem ctrClear_lTab (s : State) : (ctrClear s).lTab = s.lTab := rfl
@[simp] theorem ctrClear_linv (s : State) : (ctrClear s).linv = s.linv := rfl
@[simp] theorem ctrClear_offset (s : State) : (ctrClear s).offset = s.offset := rfl
@[simp] theorem ctrClear_tag (s : State) : (ctrClear s).tag = s.tag := rfl
@[simp] theorem ctrClear_cnt (s : State) : (ctrClear s).cnt = s.cnt := rfl
@[simp] theorem ctrClear_ctrblk (s : State) : (ctrClear s).ctrblk = 0 := rfl
@[simp] theorem ctrClear_ks (s : State) : (ctrClear s).ks = 0 := rfl
@[simp] theorem ctrClear_kpos (s : State) : (ctrClear s).kpos = 16 := rfl
@[simp] theorem ctrClear_cst (s : State) : (ctrClear s).cst = .idle := rfl
@[simp] theorem ctrClear_d (s : State) : (ctrClear s).d = s.d := rfl
@[simp] theorem ctrClear_t (s : State) : (ctrClear s).t = s.t := rfl
@[simp] theorem ctrClear_p (s : State) : (ctrClear s).p = s.p := rfl
@[simp] theorem ctrClear_lasterr (s : State) : (ctrClear s).lasterr = s.lasterr := rfl
@[simp] theorem ctrClear_esticky (s : State) : (ctrClear s).esticky = s.esticky := rfl
@[simp] theorem ctrClear_cmdStream (s : State) : (ctrClear s).cmdStream = s.cmdStream := rfl
@[simp] theorem ctrClear_respStream (s : State) : (ctrClear s).respStream = s.respStream := rfl
@[simp] theorem ctrClear_cipherPort (s : State) : (ctrClear s).cipherPort = s.cipherPort := rfl

/-! ### `ctr_setiv(iv)` (R192). -/

@[simp] theorem ctrSetiv_kmac (iv : Block) (s : State) : (ctrSetiv iv s).kmac = s.kmac := rfl
@[simp] theorem ctrSetiv_kmacLen (iv : Block) (s : State) : (ctrSetiv iv s).kmacLen = s.kmacLen := rfl
@[simp] theorem ctrSetiv_kctr (iv : Block) (s : State) : (ctrSetiv iv s).kctr = s.kctr := rfl
@[simp] theorem ctrSetiv_kctrLen (iv : Block) (s : State) : (ctrSetiv iv s).kctrLen = s.kctrLen := rfl
@[simp] theorem ctrSetiv_mkind (iv : Block) (s : State) : (ctrSetiv iv s).mkind = s.mkind := rfl
@[simp] theorem ctrSetiv_k1 (iv : Block) (s : State) : (ctrSetiv iv s).k1 = s.k1 := rfl
@[simp] theorem ctrSetiv_k2 (iv : Block) (s : State) : (ctrSetiv iv s).k2 = s.k2 := rfl
@[simp] theorem ctrSetiv_chain (iv : Block) (s : State) : (ctrSetiv iv s).chain = s.chain := rfl
@[simp] theorem ctrSetiv_buf (iv : Block) (s : State) : (ctrSetiv iv s).buf = s.buf := rfl
@[simp] theorem ctrSetiv_pos (iv : Block) (s : State) : (ctrSetiv iv s).pos = s.pos := rfl
@[simp] theorem ctrSetiv_mst (iv : Block) (s : State) : (ctrSetiv iv s).mst = s.mst := rfl
@[simp] theorem ctrSetiv_lTab (iv : Block) (s : State) : (ctrSetiv iv s).lTab = s.lTab := rfl
@[simp] theorem ctrSetiv_linv (iv : Block) (s : State) : (ctrSetiv iv s).linv = s.linv := rfl
@[simp] theorem ctrSetiv_offset (iv : Block) (s : State) : (ctrSetiv iv s).offset = s.offset := rfl
@[simp] theorem ctrSetiv_tag (iv : Block) (s : State) : (ctrSetiv iv s).tag = s.tag := rfl
@[simp] theorem ctrSetiv_cnt (iv : Block) (s : State) : (ctrSetiv iv s).cnt = s.cnt := rfl
@[simp] theorem ctrSetiv_ctrblk (iv : Block) (s : State) : (ctrSetiv iv s).ctrblk = iv := rfl
@[simp] theorem ctrSetiv_ks (iv : Block) (s : State) : (ctrSetiv iv s).ks = 0 := rfl
@[simp] theorem ctrSetiv_kpos (iv : Block) (s : State) : (ctrSetiv iv s).kpos = 16 := rfl
@[simp] theorem ctrSetiv_cst (iv : Block) (s : State) : (ctrSetiv iv s).cst = .streaming := rfl
@[simp] theorem ctrSetiv_d (iv : Block) (s : State) : (ctrSetiv iv s).d = s.d := rfl
@[simp] theorem ctrSetiv_t (iv : Block) (s : State) : (ctrSetiv iv s).t = s.t := rfl
@[simp] theorem ctrSetiv_p (iv : Block) (s : State) : (ctrSetiv iv s).p = s.p := rfl
@[simp] theorem ctrSetiv_lasterr (iv : Block) (s : State) : (ctrSetiv iv s).lasterr = s.lasterr := rfl
@[simp] theorem ctrSetiv_esticky (iv : Block) (s : State) : (ctrSetiv iv s).esticky = s.esticky := rfl
@[simp] theorem ctrSetiv_cmdStream (iv : Block) (s : State) : (ctrSetiv iv s).cmdStream = s.cmdStream := rfl
@[simp] theorem ctrSetiv_respStream (iv : Block) (s : State) : (ctrSetiv iv s).respStream = s.respStream := rfl
@[simp] theorem ctrSetiv_cipherPort (iv : Block) (s : State) : (ctrSetiv iv s).cipherPort = s.cipherPort := rfl

/-! ### `siv_end()` of `S2V` (R219). -/

@[simp] theorem s2vEnd_kmac (s : State) : (s2vEnd s).kmac = s.kmac := rfl
@[simp] theorem s2vEnd_kmacLen (s : State) : (s2vEnd s).kmacLen = s.kmacLen := rfl
@[simp] theorem s2vEnd_kctr (s : State) : (s2vEnd s).kctr = s.kctr := rfl
@[simp] theorem s2vEnd_kctrLen (s : State) : (s2vEnd s).kctrLen = s.kctrLen := rfl
@[simp] theorem s2vEnd_mkind (s : State) : (s2vEnd s).mkind = s.mkind := rfl
@[simp] theorem s2vEnd_k1 (s : State) : (s2vEnd s).k1 = s.k1 := rfl
@[simp] theorem s2vEnd_k2 (s : State) : (s2vEnd s).k2 = s.k2 := rfl
@[simp] theorem s2vEnd_chain (s : State) : (s2vEnd s).chain = 0 := rfl
@[simp] theorem s2vEnd_buf (s : State) : (s2vEnd s).buf = 0 := rfl
@[simp] theorem s2vEnd_pos (s : State) : (s2vEnd s).pos = 0 := rfl
@[simp] theorem s2vEnd_mst (s : State) : (s2vEnd s).mst = .fresh := rfl
@[simp] theorem s2vEnd_lTab (s : State) : (s2vEnd s).lTab = s.lTab := rfl
@[simp] theorem s2vEnd_linv (s : State) : (s2vEnd s).linv = s.linv := rfl
@[simp] theorem s2vEnd_offset (s : State) : (s2vEnd s).offset = 0 := rfl
@[simp] theorem s2vEnd_tag (s : State) : (s2vEnd s).tag = 0 := rfl
@[simp] theorem s2vEnd_cnt (s : State) : (s2vEnd s).cnt = 0 := rfl
@[simp] theorem s2vEnd_ctrblk (s : State) : (s2vEnd s).ctrblk = s.ctrblk := rfl
@[simp] theorem s2vEnd_ks (s : State) : (s2vEnd s).ks = s.ks := rfl
@[simp] theorem s2vEnd_kpos (s : State) : (s2vEnd s).kpos = s.kpos := rfl
@[simp] theorem s2vEnd_cst (s : State) : (s2vEnd s).cst = s.cst := rfl
@[simp] theorem s2vEnd_d (s : State) : (s2vEnd s).d = 0 := rfl
@[simp] theorem s2vEnd_t (s : State) : (s2vEnd s).t = 0 := rfl
@[simp] theorem s2vEnd_p (s : State) : (s2vEnd s).p = s.p := rfl
@[simp] theorem s2vEnd_lasterr (s : State) : (s2vEnd s).lasterr = s.lasterr := rfl
@[simp] theorem s2vEnd_esticky (s : State) : (s2vEnd s).esticky = s.esticky := rfl
@[simp] theorem s2vEnd_cmdStream (s : State) : (s2vEnd s).cmdStream = s.cmdStream := rfl
@[simp] theorem s2vEnd_respStream (s : State) : (s2vEnd s).respStream = s.respStream := rfl
@[simp] theorem s2vEnd_cipherPort (s : State) : (s2vEnd s).cipherPort = s.cipherPort := rfl

/-! ### `siv_end()` (R219). -/

@[simp] theorem sivEnd_kmac (s : State) : (sivEnd s).kmac = s.kmac := rfl
@[simp] theorem sivEnd_kmacLen (s : State) : (sivEnd s).kmacLen = s.kmacLen := rfl
@[simp] theorem sivEnd_kctr (s : State) : (sivEnd s).kctr = s.kctr := rfl
@[simp] theorem sivEnd_kctrLen (s : State) : (sivEnd s).kctrLen = s.kctrLen := rfl
@[simp] theorem sivEnd_mkind (s : State) : (sivEnd s).mkind = s.mkind := rfl
@[simp] theorem sivEnd_k1 (s : State) : (sivEnd s).k1 = s.k1 := rfl
@[simp] theorem sivEnd_k2 (s : State) : (sivEnd s).k2 = s.k2 := rfl
@[simp] theorem sivEnd_chain (s : State) : (sivEnd s).chain = 0 := rfl
@[simp] theorem sivEnd_buf (s : State) : (sivEnd s).buf = 0 := rfl
@[simp] theorem sivEnd_pos (s : State) : (sivEnd s).pos = 0 := rfl
@[simp] theorem sivEnd_mst (s : State) : (sivEnd s).mst = .fresh := rfl
@[simp] theorem sivEnd_lTab (s : State) : (sivEnd s).lTab = s.lTab := rfl
@[simp] theorem sivEnd_linv (s : State) : (sivEnd s).linv = s.linv := rfl
@[simp] theorem sivEnd_offset (s : State) : (sivEnd s).offset = 0 := rfl
@[simp] theorem sivEnd_tag (s : State) : (sivEnd s).tag = 0 := rfl
@[simp] theorem sivEnd_cnt (s : State) : (sivEnd s).cnt = 0 := rfl
@[simp] theorem sivEnd_ctrblk (s : State) : (sivEnd s).ctrblk = 0 := rfl
@[simp] theorem sivEnd_ks (s : State) : (sivEnd s).ks = 0 := rfl
@[simp] theorem sivEnd_kpos (s : State) : (sivEnd s).kpos = 16 := rfl
@[simp] theorem sivEnd_cst (s : State) : (sivEnd s).cst = .idle := rfl
@[simp] theorem sivEnd_d (s : State) : (sivEnd s).d = 0 := rfl
@[simp] theorem sivEnd_t (s : State) : (sivEnd s).t = 0 := rfl
@[simp] theorem sivEnd_p (s : State) : (sivEnd s).p = s.p := rfl
@[simp] theorem sivEnd_lasterr (s : State) : (sivEnd s).lasterr = s.lasterr := rfl
@[simp] theorem sivEnd_esticky (s : State) : (sivEnd s).esticky = s.esticky := rfl
@[simp] theorem sivEnd_cmdStream (s : State) : (sivEnd s).cmdStream = s.cmdStream := rfl
@[simp] theorem sivEnd_respStream (s : State) : (sivEnd s).respStream = s.respStream := rfl
@[simp] theorem sivEnd_cipherPort (s : State) : (sivEnd s).cipherPort = s.cipherPort := rfl

/-! ### `wipe(P)` (R218). -/

@[simp] theorem wipeP_kmac (s : State) : (wipeP s).kmac = s.kmac := rfl
@[simp] theorem wipeP_kmacLen (s : State) : (wipeP s).kmacLen = s.kmacLen := rfl
@[simp] theorem wipeP_kctr (s : State) : (wipeP s).kctr = s.kctr := rfl
@[simp] theorem wipeP_kctrLen (s : State) : (wipeP s).kctrLen = s.kctrLen := rfl
@[simp] theorem wipeP_mkind (s : State) : (wipeP s).mkind = s.mkind := rfl
@[simp] theorem wipeP_k1 (s : State) : (wipeP s).k1 = s.k1 := rfl
@[simp] theorem wipeP_k2 (s : State) : (wipeP s).k2 = s.k2 := rfl
@[simp] theorem wipeP_chain (s : State) : (wipeP s).chain = s.chain := rfl
@[simp] theorem wipeP_buf (s : State) : (wipeP s).buf = s.buf := rfl
@[simp] theorem wipeP_pos (s : State) : (wipeP s).pos = s.pos := rfl
@[simp] theorem wipeP_mst (s : State) : (wipeP s).mst = s.mst := rfl
@[simp] theorem wipeP_lTab (s : State) : (wipeP s).lTab = s.lTab := rfl
@[simp] theorem wipeP_linv (s : State) : (wipeP s).linv = s.linv := rfl
@[simp] theorem wipeP_offset (s : State) : (wipeP s).offset = s.offset := rfl
@[simp] theorem wipeP_tag (s : State) : (wipeP s).tag = s.tag := rfl
@[simp] theorem wipeP_cnt (s : State) : (wipeP s).cnt = s.cnt := rfl
@[simp] theorem wipeP_ctrblk (s : State) : (wipeP s).ctrblk = s.ctrblk := rfl
@[simp] theorem wipeP_ks (s : State) : (wipeP s).ks = s.ks := rfl
@[simp] theorem wipeP_kpos (s : State) : (wipeP s).kpos = s.kpos := rfl
@[simp] theorem wipeP_cst (s : State) : (wipeP s).cst = s.cst := rfl
@[simp] theorem wipeP_d (s : State) : (wipeP s).d = s.d := rfl
@[simp] theorem wipeP_t (s : State) : (wipeP s).t = s.t := rfl
@[simp] theorem wipeP_p (s : State) : (wipeP s).p = [] := rfl
@[simp] theorem wipeP_lasterr (s : State) : (wipeP s).lasterr = s.lasterr := rfl
@[simp] theorem wipeP_esticky (s : State) : (wipeP s).esticky = s.esticky := rfl
@[simp] theorem wipeP_cmdStream (s : State) : (wipeP s).cmdStream = s.cmdStream := rfl
@[simp] theorem wipeP_respStream (s : State) : (wipeP s).respStream = s.respStream := rfl
@[simp] theorem wipeP_cipherPort (s : State) : (wipeP s).cipherPort = s.cipherPort := rfl

end Sys2Proof.Machine
end

