-- ==== Sys2Proof/Laws/Ops.lean ====
section
/-! SUPPORT. What the shared operations can do: sequencing, completing a command, the cipher port and its key. -/

namespace Sys2Proof.Machine

/-! ### Sequencing (R18) -/

@[simp] theorem andThen_ok {α β : Type} (v : α) (s : State) (f : α → State → Proc β) : andThen (.ok v s) f = f v s := rfl

@[simp] theorem andThen_raise {α β : Type} (e : Err) (s : State) (f : α → State → Proc β) :
    andThen (.raise e s) f = .raise e s := rfl

/-- A sequence that answers did so in both parts. -/
theorem andThen_eq_ok {α β : Type} {m : Proc α} {f : α → State → Proc β} {v : β} {t : State}
    (h : andThen m f = .ok v t) : ∃ u s, m = .ok u s ∧ f u s = .ok v t := by
  cases m with
  | ok u s => exact ⟨u, s, rfl, h⟩
  | raise e s => cases h

/-- A sequence that raises did so in its first part or, after that answered, in its second. -/
theorem andThen_eq_raise {α β : Type} {m : Proc α} {f : α → State → Proc β} {e : Err} {t : State}
    (h : andThen m f = .raise e t) : m = .raise e t ∨ ∃ u s, m = .ok u s ∧ f u s = .raise e t := by
  cases m with
  | ok u s => exact .inr ⟨u, s, rfl, h⟩
  | raise e' s => cases h; exact .inl rfl

theorem andThen_assoc {α β γ : Type} (m : Proc α) (f : α → State → Proc β) (g : β → State → Proc γ) :
    andThen (andThen m f) g = andThen m fun v s => andThen (f v s) g := by
  cases m <;> rfl

@[simp] theorem endingWith_ok {α : Type} (finish : State → State) (v : α) (s : State) :
    endingWith finish (.ok v s) = .ok v (finish s) := rfl

@[simp] theorem endingWith_raise {α : Type} (finish : State → State) (e : Err) (s : State) :
    endingWith finish (.raise e s : Proc α) = .raise e (finish s) := rfl

/-! ### Completing a command (R71, R240) -/

@[simp] theorem complete_ok (op : Byte) (out : List Byte) (s : State) :
    complete op (.ok out s) = .next (respond okCode op out s) := rfl

@[simp] theorem complete_raise (op : Byte) (e : Err) (s : State) :
    complete op (.raise e s) = .next (takeError op e s) := rfl

/-- Everything the end of a command can do: answer with status `OK`, or take an error. -/
theorem complete_next {op : Byte} {m : Proc (List Byte)} {t : State} (h : complete op m = .next t) :
    (∃ out s, m = .ok out s ∧ t = respond okCode op out s) ∨ (∃ e s, m = .raise e s ∧ t = takeError op e s) := by
  cases m with
  | ok out s => cases h; exact .inl ⟨out, s, rfl, rfl⟩
  | raise e s => cases h; exact .inr ⟨e, s, rfl, rfl⟩

/-- A command always completes (R9): the machine never stops at the end of one. -/
theorem complete_is_next (op : Byte) (m : Proc (List Byte)) : ∃ t, complete op m = .next t := by
  cases m with
  | ok out s => exact ⟨_, rfl⟩
  | raise e s => exact ⟨_, rfl⟩

theorem errCode_ne_ok (e : Err) : errCode e ≠ okCode := by cases e <;> decide

theorem errCode_inj {e e' : Err} (h : errCode e = errCode e') : e = e' := by
  cases e <;> cases e' <;> first | rfl | exact absurd h (by decide)

theorem responsePacket_length (st op : Byte) (out : List Byte) : (responsePacket st op out).length = 8 + out.length := by
  simp [responsePacket]; omega

/-! ### The cipher port (R55) -/

@[simp] theorem encipher_answer (E : Cipher) (sel : KeySel) (b : Block) (s : State) :
    (encipher E sel b s).1 = E (keyBytes sel s) b := rfl

/-- The selected key is a function of the four key registers alone (R23, R55). -/
theorem keyBytes_congr (sel : KeySel) {s t : State} (h1 : t.kmac = s.kmac) (h2 : t.kmacLen = s.kmacLen)
    (h3 : t.kctr = s.kctr) (h4 : t.kctrLen = s.kctrLen) : keyBytes sel t = keyBytes sel s := by
  cases sel <;> simp [keyBytes, *]

@[simp] theorem keyBytes_respond (sel : KeySel) (st op : Byte) (out : List Byte) (s : State) :
    keyBytes sel (respond st op out s) = keyBytes sel s := by cases sel <;> rfl

@[simp] theorem keyBytes_logError (sel : KeySel) (e : Err) (s : State) :
    keyBytes sel (logError e s) = keyBytes sel s := by cases sel <;> rfl

@[simp] theorem keyBytes_encipher (sel sel' : KeySel) (E : Cipher) (b : Block) (s : State) :
    keyBytes sel (encipher E sel' b s).2 = keyBytes sel s := by cases sel <;> rfl

@[simp] theorem keyBytes_macReset (sel : KeySel) (s : State) : keyBytes sel (macReset s) = keyBytes sel s := by
  cases sel <;> rfl

@[simp] theorem keyBytes_bufferByte (sel : KeySel) (d : Byte) (s : State) :
    keyBytes sel (bufferByte d s) = keyBytes sel s := by cases sel <;> rfl

@[simp] theorem keyBytes_ctrClear (sel : KeySel) (s : State) : keyBytes sel (ctrClear s) = keyBytes sel s := by
  cases sel <;> rfl

@[simp] theorem keyBytes_ctrSetiv (sel : KeySel) (iv : Block) (s : State) :
    keyBytes sel (ctrSetiv iv s) = keyBytes sel s := by cases sel <;> rfl

@[simp] theorem keyBytes_s2vEnd (sel : KeySel) (s : State) : keyBytes sel (s2vEnd s) = keyBytes sel s := by
  cases sel <;> rfl

@[simp] theorem keyBytes_sivEnd (sel : KeySel) (s : State) : keyBytes sel (sivEnd s) = keyBytes sel s := by
  cases sel <;> rfl

/-! ### The step -/

/-- Everything a step can do: wait, or run the packet at the head of the command stream (R51, R72). -/
theorem step_cases (s : State) :
    (takePacket s.cmdStream = none ∧ step s = .next s) ∨
      ∃ k rest, takePacket s.cmdStream = some (k, rest) ∧ step s = runPacket k { s with cmdStream := rest } := by
  cases h : takePacket s.cmdStream with
  | none => exact .inl ⟨rfl, by simp [step, stepOn, h]⟩
  | some r => exact .inr ⟨r.1, r.2, rfl, by simp [step, stepOn, h]⟩

end Sys2Proof.Machine
end

