-- ==== Sys2Proof/Laws/Message.lean ====
section
/-! SUPPORT. Messages cut into 16-byte blocks, one byte at a time: what the closed forms of R157 and R177 need. -/

namespace Sys2Proof.Machine

theorem wholeBlocks_le (n : Nat) : 16 * wholeBlocks n ≤ n := by unfold wholeBlocks; omega

theorem lastPiece_length (m : List Byte) : (lastPiece m).length = m.length - 16 * wholeBlocks m.length := by
  simp [lastPiece]

/-- The last piece never exceeds a block (R25). -/
theorem lastPiece_length_le (m : List Byte) : (lastPiece m).length ≤ 16 := by
  rw [lastPiece_length]; unfold wholeBlocks; omega

/-- The buffer is full exactly when a further byte starts a new block (R33). -/
theorem wholeBlocks_succ_full {n : Nat} (h : n - 16 * wholeBlocks n = 16) : wholeBlocks (n + 1) = wholeBlocks n + 1 := by
  unfold wholeBlocks at *; omega

theorem wholeBlocks_succ_room {n : Nat} (h : n - 16 * wholeBlocks n ≠ 16) : wholeBlocks (n + 1) = wholeBlocks n := by
  unfold wholeBlocks at *; omega

theorem wholeBlocks_mono {n k : Nat} (h : n ≤ k) : wholeBlocks n ≤ wholeBlocks k := by unfold wholeBlocks; omega

theorem lastPiece_snoc_full {m : List Byte} (d : Byte) (h : (lastPiece m).length = 16) : lastPiece (m ++ [d]) = [d] := by
  rw [lastPiece_length] at h
  unfold lastPiece
  rw [List.length_append, List.length_singleton, wholeBlocks_succ_full h, List.drop_append]
  have h1 : 16 * (wholeBlocks m.length + 1) = m.length := by omega
  rw [h1]; simp

theorem lastPiece_snoc_room {m : List Byte} (d : Byte) (h : (lastPiece m).length ≠ 16) :
    lastPiece (m ++ [d]) = lastPiece m ++ [d] := by
  rw [lastPiece_length] at h
  have h1 := wholeBlocks_le m.length
  unfold lastPiece
  rw [List.length_append, List.length_singleton, wholeBlocks_succ_room h, List.drop_append,
    show 16 * wholeBlocks m.length - m.length = 0 from by omega, List.drop_zero]

/-- A block that lies within a message does not see what follows the message. -/
theorem messageBlock_append {m : List Byte} (x : List Byte) {i : Nat} (h : 16 * (i + 1) ≤ m.length) :
    messageBlock (m ++ x) i = messageBlock m i := by
  unfold messageBlock
  rw [List.drop_append_of_le_length (by omega), List.take_append_of_le_length (by simp; omega)]

/-- A full last piece is a block of the message. -/
theorem messageBlock_lastPiece {m : List Byte} (h : (lastPiece m).length = 16) :
    messageBlock m (wholeBlocks m.length) = blockOf (lastPiece m) := by
  unfold messageBlock lastPiece at *
  rw [List.take_of_length_le (by omega)]

theorem cmacChain_append (E : Cipher) (key : List Byte) {m : List Byte} (x : List Byte) {i : Nat} (h : 16 * i ≤ m.length) :
    cmacChain E key (m ++ x) i = cmacChain E key m i := by
  induction i with
  | zero => rfl
  | succ i ih => rw [cmacChain, cmacChain, ih (by omega), messageBlock_append x h]

theorem pmacSum_append (E : Cipher) (key : List Byte) (l : Vector Block 31) {m : List Byte} (x : List Byte) {i : Nat}
    (h : 16 * i ≤ m.length) : pmacSum E key l (m ++ x) i = pmacSum E key l m i := by
  induction i with
  | zero => rfl
  | succ i ih => rw [pmacSum, pmacSum, ih (by omega), messageBlock_append x h]

@[simp] theorem lastPiece_nil : lastPiece [] = [] := rfl

@[simp] theorem blockRequests_self (sel : KeySel) (f : Nat → Block) (lo : Nat) : blockRequests sel f lo lo = [] := by
  simp [blockRequests]

/-- The requests of one run of blocks and of the run after it are those of both. -/
theorem blockRequests_append (sel : KeySel) (f : Nat → Block) {lo mid hi : Nat} (h1 : lo ≤ mid) (h2 : mid ≤ hi) :
    blockRequests sel f lo mid ++ blockRequests sel f mid hi = blockRequests sel f lo hi := by
  unfold blockRequests
  rw [← List.map_append]
  congr 1
  have e : hi - lo = (mid - lo) + (hi - mid) := by omega
  have e2 : mid = lo + 1 * (mid - lo) := by omega
  rw [e, ← List.range'_append, ← e2]

theorem blockRequests_one (sel : KeySel) (f : Nat → Block) (lo : Nat) : blockRequests sel f lo (lo + 1) = [⟨sel, f lo⟩] := by
  simp [blockRequests]

theorem blockRequests_congr (sel : KeySel) {f g : Nat → Block} {lo hi : Nat} (h : ∀ i, lo ≤ i → i < hi → f i = g i) :
    blockRequests sel f lo hi = blockRequests sel g lo hi := by
  unfold blockRequests
  apply List.map_congr_left
  intro i hi'
  rw [List.mem_range'_1] at hi'
  rw [h i hi'.1 (by omega)]

end Sys2Proof.Machine
end

