-- ==== Sys2Proof/Laws/Cmac.lean ====
section
/-! SUPPORT. The CMAC unit computes the closed form of R157: one byte, then any message, then the tag. -/

namespace Sys2Proof.Machine

/-- The `CMAC` requests of R153: block `i` goes out XORed into `C_i`. -/
theorem cmacBlock_eq (E : Cipher) (s : State) :
    cmacBlock E s =
      { s with
        chain := E (keyBytes .mac s) (s.chain ^^^ s.buf), buf := 0, pos := 0
        cipherPort := s.cipherPort ++ [⟨.mac, s.chain ^^^ s.buf⟩] } := rfl

@[simp] theorem keyBytes_cmacAbsorb (sel : KeySel) (E : Cipher) (d : Byte) (s : State) :
    keyBytes sel (cmacAbsorb E d s) = keyBytes sel s := by
  unfold cmacAbsorb
  rw [keyBytes_bufferByte]
  split
  · cases sel <;> rfl
  · rfl

/-- What absorbing bytes leaves alone: everything but `CHAIN`, `BUF`, `POS` and the cipher port (R37). -/
theorem cmacAbsorb_frame (E : Cipher) (d : Byte) (s : State) :
    cmacAbsorb E d s =
      { s with
        chain := (cmacAbsorb E d s).chain, buf := (cmacAbsorb E d s).buf, pos := (cmacAbsorb E d s).pos
        cipherPort := (cmacAbsorb E d s).cipherPort } := by
  unfold cmacAbsorb
  split <;> rfl

theorem cmacAbsorbAll_frame (E : Cipher) (ds : List Byte) (s : State) :
    cmacAbsorbAll E ds s =
      { s with
        chain := (cmacAbsorbAll E ds s).chain, buf := (cmacAbsorbAll E ds s).buf, pos := (cmacAbsorbAll E ds s).pos
        cipherPort := (cmacAbsorbAll E ds s).cipherPort } := by
  induction ds generalizing s with
  | nil => rfl
  | cons d ds ih =>
    rw [cmacAbsorbAll, ih, cmacAbsorb_frame]

/-- What absorbing bytes in CMAC kind can do: it changes `CHAIN`, `BUF`, `POS` and the cipher port alone (R37, R153). -/
theorem cmacAbsorbAll_cases (E : Cipher) (ds : List Byte) (s : State) :
    ∃ chain buf pos, ∃ reqs : List Block, cmacAbsorbAll E ds s =
      { s with
        chain := chain, buf := buf, pos := pos, cipherPort := s.cipherPort ++ reqs.map (CipherReq.mk .mac) } := by
  induction ds generalizing s with
  | nil => exact ⟨s.chain, s.buf, s.pos, [], by simp [cmacAbsorbAll]⟩
  | cons d ds ih =>
    obtain ⟨c, b, p, r, e⟩ := ih (cmacAbsorb E d s)
    rw [cmacAbsorbAll, e]
    unfold cmacAbsorb
    split
    · exact ⟨c, b, p, (s.chain ^^^ s.buf) :: r, by simp [cmacBlock, encipher, bufferByte]⟩
    · exact ⟨c, b, p, r, by simp [bufferByte]⟩

@[simp] theorem keyBytes_cmacAbsorbAll (sel : KeySel) (E : Cipher) (ds : List Byte) (s : State) :
    keyBytes sel (cmacAbsorbAll E ds s) = keyBytes sel s := by
  rw [cmacAbsorbAll_frame]; exact keyBytes_congr sel rfl rfl rfl rfl

theorem fin17_succ_val {p : Fin 17} (h : p ≠ 16) : (p + 1).val = p.val + 1 := by
  have h1 : p.val ≠ 16 := fun e => h (Fin.ext e)
  have h2 := p.isLt
  rw [Fin.val_add]
  simp; omega

/-- One byte in the buffer's free room, for either kind. -/
theorem bufferByte_room {s : State} {tail : List Byte} (d : Byte) (hp : s.pos.val = tail.length) (hr : tail.length < 16)
    (hb : s.buf = blockOf (zeroFill 16 tail)) :
    (bufferByte d s).pos.val = (tail ++ [d]).length ∧ (bufferByte d s).buf = blockOf (zeroFill 16 (tail ++ [d])) := by
  constructor
  · have : s.pos ≠ 16 := by intro e; rw [e, show (16 : Fin 17).val = 16 from rfl] at hp; omega
    rw [bufferByte_pos, fin17_succ_val this, hp]; simp
  · rw [bufferByte_buf, hp, hb, setBlockByte_zeroFill hr]

theorem zeroFill_nil_block : blockOf (zeroFill 16 []) = 0 := by decide

/-- One more byte of a CMAC message (R153): the digest held is that of the longer message, and the one request made, if
any, is for the block that byte completes. -/
theorem cmacAbsorb_holds {E : Cipher} {s : State} {m : List Byte} (h : CmacHolds E s m) (d : Byte) :
    CmacHolds E (cmacAbsorb E d s) (m ++ [d]) ∧
      (cmacAbsorb E d s).cipherPort = s.cipherPort ++
        blockRequests .mac (fun i => cmacChain E (keyBytes .mac s) (m ++ [d]) i ^^^ messageBlock (m ++ [d]) i)
          (wholeBlocks m.length) (wholeBlocks (m ++ [d]).length) := by
  obtain ⟨hc, hp, hb⟩ := h
  have hle := lastPiece_length_le m
  have hw := wholeBlocks_le m.length
  have hkey : keyBytes .mac (cmacAbsorb E d s) = keyBytes .mac s := keyBytes_cmacAbsorb _ _ _ _
  by_cases full : (lastPiece m).length = 16
  · have e16 : s.pos = 16 := Fin.ext (by rw [hp, full]; rfl)
    have hl := lastPiece_length m
    have hn : wholeBlocks (m ++ [d]).length = wholeBlocks m.length + 1 := by
      rw [List.length_append, List.length_singleton]; exact wholeBlocks_succ_full (by omega)
    have hbuf : s.buf = messageBlock m (wholeBlocks m.length) := by
      rw [hb, messageBlock_lastPiece full, zeroFill_self full]
    have hblk : messageBlock (m ++ [d]) (wholeBlocks m.length) = s.buf := by
      rw [messageBlock_append _ (by omega), hbuf]
    have hch : cmacChain E (keyBytes .mac s) (m ++ [d]) (wholeBlocks m.length) = s.chain := by
      rw [cmacChain_append _ _ _ hw, hc]
    have hroom := bufferByte_room (s := cmacBlock E s) (tail := []) d rfl (by decide) zeroFill_nil_block.symm
    have hab : cmacAbsorb E d s = bufferByte d (cmacBlock E s) := by rw [cmacAbsorb, if_pos e16]
    refine ⟨⟨?_, ?_, ?_⟩, ?_⟩
    · rw [hkey, hn, cmacChain, hch, hblk, hab, bufferByte_chain, cmacBlock_eq]
    · rw [lastPiece_snoc_full d full, hab, hroom.1]; rfl
    · rw [lastPiece_snoc_full d full, hab, hroom.2]; rfl
    · rw [hn, blockRequests_one, hch, hblk, hab, bufferByte_cipherPort, cmacBlock_eq]
  · have hne : s.pos ≠ 16 := by intro e; rw [e] at hp; exact full hp.symm
    have hl := lastPiece_length m
    have hn : wholeBlocks (m ++ [d]).length = wholeBlocks m.length := by
      rw [List.length_append, List.length_singleton]; exact wholeBlocks_succ_room (by omega)
    have hroom := bufferByte_room (s := s) (tail := lastPiece m) d hp (by omega) hb
    have hab : cmacAbsorb E d s = bufferByte d s := by rw [cmacAbsorb, if_neg hne]
    refine ⟨⟨?_, ?_, ?_⟩, ?_⟩
    · rw [hkey, hn, cmacChain_append _ _ _ hw, hab, bufferByte_chain, hc]
    · rw [lastPiece_snoc_room d full, hab, hroom.1]
    · rw [lastPiece_snoc_room d full, hab, hroom.2]
    · rw [hn, blockRequests_self, hab, bufferByte_cipherPort, List.append_nil]

/-- Any more bytes of a CMAC message (R153, R157). -/
theorem cmacAbsorbAll_holds {E : Cipher} (ds : List Byte) {s : State} {m : List Byte} (h : CmacHolds E s m) :
    CmacHolds E (cmacAbsorbAll E ds s) (m ++ ds) ∧
      (cmacAbsorbAll E ds s).cipherPort = s.cipherPort ++
        blockRequests .mac (fun i => cmacChain E (keyBytes .mac s) (m ++ ds) i ^^^ messageBlock (m ++ ds) i)
          (wholeBlocks m.length) (wholeBlocks (m ++ ds).length) := by
  induction ds generalizing s m with
  | nil => simpa [cmacAbsorbAll] using h
  | cons d ds ih =>
    obtain ⟨h1, p1⟩ := cmacAbsorb_holds h d
    obtain ⟨h2, p2⟩ := ih h1
    rw [List.append_assoc, List.singleton_append] at h2 p2
    refine ⟨h2, ?_⟩
    rw [cmacAbsorbAll, p2, p1, keyBytes_cmacAbsorb, List.append_assoc]
    congr 1
    have l1 : wholeBlocks m.length ≤ wholeBlocks (m ++ [d]).length := wholeBlocks_mono (by simp)
    have l2 : wholeBlocks (m ++ [d]).length ≤ wholeBlocks (m ++ d :: ds).length := wholeBlocks_mono (by simp)
    rw [← blockRequests_append _ _ l1 l2]
    congr 1
    apply blockRequests_congr
    intro i _ hi
    have e : m ++ d :: ds = (m ++ [d]) ++ ds := by simp
    have hw := wholeBlocks_le (m ++ [d]).length
    rw [e, cmacChain_append _ _ ds (by omega), messageBlock_append ds (by omega)]

/-- A MAC unit just reset holds the empty message (R152). -/
theorem cmacHolds_macReset (E : Cipher) (s : State) : CmacHolds E (macReset s) [] :=
  ⟨rfl, rfl, zeroFill_nil_block.symm⟩

/-- The tag of a finished CMAC digest is that of R157, and the accumulators are wiped (R154). -/
theorem cmacFinish_holds {E : Cipher} {s : State} {m : List Byte} (h : CmacHolds E s m) :
    cmacFinish E s =
      (cmacTag E (keyBytes .mac s) s.k1 s.k2 m,
        { s with
          chain := 0, buf := 0, pos := 0, mst := .finished
          cipherPort := s.cipherPort ++ [⟨.mac, s.chain ^^^ cmacLastBlock s⟩] }) := by
  obtain ⟨hc, hp, hb⟩ := h
  have hlast : cmacLastBlock s =
      if (lastPiece m).length = 16 then blockOf (lastPiece m) ^^^ s.k1 else padString (lastPiece m) ^^^ s.k2 := by
    unfold cmacLastBlock
    by_cases full : (lastPiece m).length = 16
    · have e16 : s.pos = 16 := Fin.ext (by rw [hp, full]; rfl)
      rw [if_pos e16, if_pos full, hb, zeroFill_self full]
    · have hne : s.pos ≠ 16 := by intro e; rw [e] at hp; exact full hp.symm
      rw [if_neg hne, if_neg full, hb, hp]; rfl
  unfold cmacFinish cmacTag
  simp only [encipher, hlast, hc]

end Sys2Proof.Machine
end

