-- ==== Sys2Proof/Laws/Ctr.lean ====
section
/-! SUPPORT. The CTR unit gives the keystream of R190, byte by byte, and ends where R194 says. -/

namespace Sys2Proof.Machine

/-- The step of R193 before a keystream byte is used. -/
def ctrMakeRoom (E : Cipher) (s : State) : Proc Unit := if s.kpos = 16 then ctrNextBlock E s else .ok () s

theorem ctrXor_cons (E : Cipher) (d : Byte) (ds : List Byte) (s : State) :
    ctrXor E (d :: ds) s = andThen (ctrMakeRoom E s) fun _ s =>
      andThen (ctrXor E ds { s with kpos := s.kpos + 1 }) fun out s' =>
        .ok ((d ^^^ blockByte s.ks s.kpos.val) :: out) s' := rfl

/-- `ctr_next_block()` below all-`ff` (R194). -/
theorem ctrNextBlock_room (E : Cipher) {s : State} (h : s.ctrblk ≠ BitVec.allOnes 128) :
    ctrNextBlock E s = .ok ()
      { s with
        ks := E (keyBytes .ctr s) s.ctrblk, ctrblk := s.ctrblk + 1, kpos := 0
        cipherPort := s.cipherPort ++ [⟨.ctr, s.ctrblk⟩] } := by
  unfold ctrNextBlock
  rw [if_neg h]
  rfl

/-- `ctr_next_block()` at all-`ff` (R194). -/
theorem ctrNextBlock_overflow (E : Cipher) {s : State} (h : s.ctrblk = BitVec.allOnes 128) :
    ctrNextBlock E s = .raise .ctrOverflow (ctrClear s) := by
  unfold ctrNextBlock
  rw [if_pos h]

/-- Everything making room can do: nothing, one keystream block, or the overflow (R193, R194). -/
theorem ctrMakeRoom_cases (E : Cipher) (s : State) :
    (ctrMakeRoom E s = .ok () s ∧ s.kpos ≠ 16) ∨
      (ctrMakeRoom E s = .ok ()
        { s with
          ks := E (keyBytes .ctr s) s.ctrblk, ctrblk := s.ctrblk + 1, kpos := 0
          cipherPort := s.cipherPort ++ [⟨.ctr, s.ctrblk⟩] } ∧ s.kpos = 16 ∧ s.ctrblk ≠ BitVec.allOnes 128) ∨
      (ctrMakeRoom E s = .raise .ctrOverflow (ctrClear s) ∧ s.kpos = 16 ∧ s.ctrblk = BitVec.allOnes 128) := by
  unfold ctrMakeRoom
  by_cases hk : s.kpos = 16
  · by_cases hf : s.ctrblk = BitVec.allOnes 128
    · exact .inr (.inr ⟨by rw [if_pos hk, ctrNextBlock_overflow E hf], hk, hf⟩)
    · exact .inr (.inl ⟨by rw [if_pos hk, ctrNextBlock_room E hf], hk, hf⟩)
  · exact .inl ⟨by rw [if_neg hk], hk⟩

/-- What `ctr_xor` can do: it answers as many bytes as it was given and changes `CTRBLK`, `KS`, `KPOS` and the cipher port
alone, or the stream ends (R193, R248). -/
theorem ctrXor_cases (E : Cipher) (ds : List Byte) (s : State) :
    (∃ out ctrblk ks kpos, ∃ reqs : List Block, ctrXor E ds s = .ok out
      { s with
        ctrblk := ctrblk, ks := ks, kpos := kpos
        cipherPort := s.cipherPort ++ reqs.map (CipherReq.mk .ctr) } ∧ out.length = ds.length) ∨
      ∃ reqs : List Block, ctrXor E ds s = .raise .ctrOverflow
        (ctrClear { s with cipherPort := s.cipherPort ++ reqs.map (CipherReq.mk .ctr) }) := by
  induction ds generalizing s with
  | nil => exact .inl ⟨[], s.ctrblk, s.ks, s.kpos, [], by simp [ctrXor], rfl⟩
  | cons d ds ih =>
    rw [ctrXor_cons]
    rcases ctrMakeRoom_cases E s with ⟨e, -⟩ | ⟨e, -, -⟩ | ⟨e, -, -⟩
    · rw [e, andThen_ok]
      rcases ih { s with kpos := s.kpos + 1 } with ⟨out, c, k, p, r, e', hl⟩ | ⟨r, e'⟩
      · rw [e', andThen_ok]
        exact .inl ⟨_, c, k, p, r, rfl, by simp [hl]⟩
      · rw [e', andThen_raise]; exact .inr ⟨r, rfl⟩
    · rw [e, andThen_ok]
      generalize hs1 : ({ s with
        ks := E (keyBytes .ctr s) s.ctrblk, ctrblk := s.ctrblk + 1, kpos := 0
        cipherPort := s.cipherPort ++ [⟨.ctr, s.ctrblk⟩] } : State) = s1
      rcases ih { s1 with kpos := s1.kpos + 1 } with ⟨out, c, k, p, r, e', hl⟩ | ⟨r, e'⟩
      · rw [e', andThen_ok]
        refine .inl ⟨(d ^^^ blockByte s1.ks s1.kpos.val) :: out, c, k, p, s.ctrblk :: r, ?_, by simp [hl]⟩
        subst hs1
        simp
      · rw [e', andThen_raise]
        refine .inr ⟨s.ctrblk :: r, ?_⟩
        subst hs1
        simp [ctrClear]
    · rw [e, andThen_raise]; exact .inr ⟨[], by simp⟩

/-- A state whose counters alone differ uses the same CTR key. -/
theorem keyBytes_kpos (sel : KeySel) (s : State) (k : Fin 17) : keyBytes sel { s with kpos := k } = keyBytes sel s := by
  cases sel <;> rfl

/-- One byte of the stream (R190, R193, R194): below the last counter value the keystream byte is that of R190. -/
theorem ctrMakeRoom_holds {E : Cipher} {s : State} {iv : Block} {n : Nat} (h : CtrHolds E s iv n)
    (hn : iv.toNat + (n + 1 + 15) / 16 ≤ 2 ^ 128 - 1) :
    ∃ t, ctrMakeRoom E s = .ok () t ∧ CtrHolds E { t with kpos := t.kpos + 1 } iv (n + 1) ∧
      blockByte t.ks t.kpos.val = keystreamByte E (keyBytes .ctr s) iv n ∧ keyBytes .ctr t = keyBytes .ctr s ∧
      t.cipherPort = s.cipherPort ++
        blockRequests .ctr (fun i => iv + BitVec.ofNat 128 i) ((n + 15) / 16) ((n + 1 + 15) / 16) := by
  obtain ⟨hc, hk, hs⟩ := h
  by_cases hm : n % 16 = 0
  · rw [if_pos hm] at hk
    have hk' : s.kpos = 16 := Fin.ext hk
    have hq : (n + 15) / 16 = n / 16 := by omega
    have hq1 : (n + 1 + 15) / 16 = n / 16 + 1 := by omega
    have hbv : s.ctrblk = iv + BitVec.ofNat 128 (n / 16) := by
      apply BitVec.eq_of_toNat_eq
      rw [BitVec.toNat_add, BitVec.toNat_ofNat]
      omega
    have hne : s.ctrblk ≠ BitVec.allOnes 128 := by
      intro e
      have := congrArg BitVec.toNat e
      rw [BitVec.toNat_allOnes] at this
      omega
    rw [ctrMakeRoom, if_pos hk', ctrNextBlock_room E hne]
    refine ⟨_, rfl, ⟨?_, ?_, ?_⟩, ?_, keyBytes_congr _ rfl rfl rfl rfl, ?_⟩
    · show (s.ctrblk + 1).toNat = _
      rw [BitVec.toNat_add, show (1 : BitVec 128).toNat = 1 from rfl]
      omega
    · show ((0 : Fin 17) + 1).val = _
      rw [if_neg (by omega)]
      show 1 = _
      omega
    · intro _
      show E (keyBytes .ctr s) s.ctrblk = _
      rw [hbv, show (n + 1) / 16 = n / 16 from by omega]
      exact congrArg (fun k => E k _) (keyBytes_congr .ctr rfl rfl rfl rfl).symm
    · show blockByte (E (keyBytes .ctr s) s.ctrblk) 0 = _
      rw [hbv, keystreamByte, hm]
    · rw [hq, hq1, blockRequests_one, hbv]
  · rw [if_neg hm] at hk
    have hk' : s.kpos ≠ 16 := by
      intro e
      rw [e, show (16 : Fin 17).val = 16 from rfl] at hk
      omega
    have hq1 : (n + 1 + 15) / 16 = (n + 15) / 16 := by omega
    rw [ctrMakeRoom, if_neg hk']
    refine ⟨s, rfl, ⟨?_, ?_, ?_⟩, ?_, rfl, ?_⟩
    · show s.ctrblk.toNat = _
      rw [hc, hq1]
    · show (s.kpos + 1).val = _
      rw [fin17_succ_val hk', hk]
      split <;> omega
    · intro h1
      show s.ks = _
      rw [hs hm, show (n + 1) / 16 = n / 16 from by omega]
      exact congrArg (fun k => E k _) (keyBytes_congr .ctr rfl rfl rfl rfl).symm
    · rw [hs hm, hk, keystreamByte]
    · rw [hq1, blockRequests_self, List.append_nil]

/-- Any bytes of the stream (R190, R193). -/
theorem ctrXor_holds {E : Cipher} (ds : List Byte) {s : State} {iv : Block} {n : Nat} (h : CtrHolds E s iv n)
    (hn : iv.toNat + (n + ds.length + 15) / 16 ≤ 2 ^ 128 - 1) :
    ∃ t, ctrXor E ds s = .ok (ctrStream E (keyBytes .ctr s) iv n ds) t ∧ CtrHolds E t iv (n + ds.length) ∧
      t.cipherPort = s.cipherPort ++
        blockRequests .ctr (fun i => iv + BitVec.ofNat 128 i) ((n + 15) / 16) ((n + ds.length + 15) / 16) := by
  induction ds generalizing s n with
  | nil => exact ⟨s, rfl, h, by simp⟩
  | cons d ds ih =>
    rw [List.length_cons] at hn ⊢
    obtain ⟨t, e, h1, hb, hkey, hp⟩ := ctrMakeRoom_holds h (by omega)
    have hlen : n + (ds.length + 1) = n + 1 + ds.length := by omega
    obtain ⟨u, e2, h2, p2⟩ := ih h1 (by omega)
    rw [hlen]
    refine ⟨u, ?_, h2, ?_⟩
    · rw [ctrXor_cons, e, andThen_ok, e2, andThen_ok, hb, ctrStream, keyBytes_kpos .ctr t (t.kpos + 1), hkey]
    · rw [p2, hp, List.append_assoc, blockRequests_append _ _ (by omega) (by omega)]

/-- `CTR_SETIV` starts the stream of its IV (R192). -/
theorem ctrHolds_ctrSetiv (E : Cipher) (iv : Block) (s : State) : CtrHolds E (ctrSetiv iv s) iv 0 :=
  ⟨rfl, rfl, fun h => absurd rfl h⟩

theorem ctrStream_length (E : Cipher) (key : List Byte) (iv : Block) (n : Nat) (ds : List Byte) :
    (ctrStream E key iv n ds).length = ds.length := by
  induction ds generalizing n with
  | nil => rfl
  | cons d ds ih => simp [ctrStream, ih]

/-- The keystream XORed twice gives the bytes back (R190: "encryption and decryption are identical operations"). -/
theorem ctrStream_involutive (E : Cipher) (key : List Byte) (iv : Block) (n : Nat) (ds : List Byte) :
    ctrStream E key iv n (ctrStream E key iv n ds) = ds := by
  induction ds generalizing n with
  | nil => rfl
  | cons d ds ih => rw [ctrStream, ctrStream, ih, BitVec.xor_assoc, BitVec.xor_self, BitVec.xor_zero]

/-! ### Where a stream ends (R194) -/

/-- The bytes a stream can still process, as the counters say (R277 (c)). -/
def streamRoom (s : State) : Nat := 16 - s.kpos.val + 16 * (2 ^ 128 - 1 - s.ctrblk.toNat)

theorem ctrMakeRoom_room (E : Cipher) {s : State} (h : 0 < streamRoom s) :
    ∃ t, ctrMakeRoom E s = .ok () t ∧ streamRoom { t with kpos := t.kpos + 1 } + 1 = streamRoom s := by
  have hb := s.kpos.isLt
  rcases ctrMakeRoom_cases E s with ⟨e, hk⟩ | ⟨e, hk, hf⟩ | ⟨e, hk, hf⟩
  · refine ⟨_, e, ?_⟩
    have hv : s.kpos.val ≠ 16 := fun e => hk (Fin.ext e)
    simp only [streamRoom, fin17_succ_val hk]
    omega
  · refine ⟨_, e, ?_⟩
    have hlt := s.ctrblk.isLt
    have hne : s.ctrblk.toNat ≠ 2 ^ 128 - 1 := fun e => hf (BitVec.eq_of_toNat_eq (by rw [e, BitVec.toNat_allOnes]))
    have h1 : (s.ctrblk + 1).toNat = s.ctrblk.toNat + 1 := by
      rw [BitVec.toNat_add, show (1 : BitVec 128).toNat = 1 from rfl]
      omega
    simp only [streamRoom, h1, hk, show ((0 : Fin 17) + 1).val = 1 from rfl, show (16 : Fin 17).val = 16 from rfl]
    omega
  · unfold streamRoom at h
    rw [hk, hf, BitVec.toNat_allOnes, show (16 : Fin 17).val = 16 from rfl] at h
    omega

/-- A stream with room for the bytes does not overflow (R194). -/
theorem ctrXor_within (E : Cipher) (ds : List Byte) {s : State} (h : ds.length ≤ streamRoom s) :
    ∃ out t, ctrXor E ds s = .ok out t := by
  induction ds generalizing s with
  | nil => exact ⟨[], s, rfl⟩
  | cons d ds ih =>
    rw [List.length_cons] at h
    obtain ⟨t, e, hr⟩ := ctrMakeRoom_room E (s := s) (by omega)
    obtain ⟨out, u, e2⟩ := ih (s := { t with kpos := t.kpos + 1 }) (by omega)
    exact ⟨_, u, by rw [ctrXor_cons, e, andThen_ok, e2, andThen_ok]⟩

/-- A stream without room for them does (R194). -/
theorem ctrXor_beyond (E : Cipher) (ds : List Byte) {s : State} (h : ds.length > streamRoom s) :
    ∃ t, ctrXor E ds s = .raise .ctrOverflow t := by
  induction ds generalizing s with
  | nil => simp at h
  | cons d ds ih =>
    rw [List.length_cons] at h
    rw [ctrXor_cons]
    by_cases hr : 0 < streamRoom s
    · obtain ⟨t, e, hr⟩ := ctrMakeRoom_room E hr
      obtain ⟨u, e2⟩ := ih (s := { t with kpos := t.kpos + 1 }) (by omega)
      exact ⟨u, by rw [e, andThen_ok, e2, andThen_raise]⟩
    · rcases ctrMakeRoom_cases E s with ⟨e, hk⟩ | ⟨e, hk, hf⟩ | ⟨e, hk, hf⟩
      · exfalso
        have hv : s.kpos.val ≠ 16 := fun e => hk (Fin.ext e)
        have := s.kpos.isLt
        unfold streamRoom at hr
        omega
      · exfalso
        have hlt := s.ctrblk.isLt
        have hne : s.ctrblk.toNat ≠ 2 ^ 128 - 1 := fun e => hf (BitVec.eq_of_toNat_eq (by rw [e, BitVec.toNat_allOnes]))
        unfold streamRoom at hr
        omega
      · exact ⟨_, by rw [e, andThen_raise]⟩

/-- Two pieces of a stream are one piece (R195). -/
theorem ctrXor_append (E : Cipher) (as bs : List Byte) (s : State) :
    ctrXor E (as ++ bs) s = andThen (ctrXor E as s) fun x s =>
      andThen (ctrXor E bs s) fun y s => .ok (x ++ y) s := by
  induction as generalizing s with
  | nil =>
    show ctrXor E bs s = andThen (ctrXor E bs s) fun y s => .ok ([] ++ y) s
    cases ctrXor E bs s <;> rfl
  | cons a as ih =>
    rw [List.cons_append, ctrXor_cons, ctrXor_cons, andThen_assoc]
    congr 1
    funext _ s
    rw [ih, andThen_assoc, andThen_assoc]
    congr 1
    funext x s
    rw [andThen_assoc, andThen_ok]
    rfl

end Sys2Proof.Machine
end

