-- ==== Sys2Proof/Laws/Pmac.lean ====
section
/-! SUPPORT. The PMAC unit computes the closed form of R177, and where its table ends (R176). -/

namespace Sys2Proof.Machine

/-! ### Trailing zero bits (R16) -/

theorem ctzWithin_spec {fuel n : Nat} (h1 : 1 ≤ n) (h2 : n ≤ fuel) :
    2 ^ ctzWithin fuel n ∣ n ∧ n / 2 ^ ctzWithin fuel n % 2 = 1 := by
  induction fuel generalizing n with
  | zero => omega
  | succ fuel ih =>
    rw [ctzWithin]
    by_cases odd : n % 2 = 1
    · simp [odd]
    · obtain ⟨d, o⟩ := ih (n := n / 2) (by omega) (by omega)
      rw [if_neg odd, Nat.pow_succ, Nat.mul_comm, ← Nat.div_div_eq_div_mul]
      refine ⟨?_, o⟩
      have e : 2 * (n / 2) = n := by omega
      have := Nat.mul_dvd_mul_left 2 d
      rwa [e] at this

/-- `ctz(n)` is the largest `j` with `2^j` dividing `n` (R16). -/
theorem ctz_spec {n : Nat} (h : 1 ≤ n) : 2 ^ ctz n ∣ n ∧ n / 2 ^ ctz n % 2 = 1 := ctzWithin_spec h (Nat.le_refl n)

theorem ctz_lt {n k : Nat} (h1 : 1 ≤ n) (h2 : n < 2 ^ k) : ctz n < k := by
  have hle : 2 ^ ctz n ≤ n := Nat.le_of_dvd h1 (ctz_spec h1).1
  exact (Nat.pow_lt_pow_iff_right (by decide)).1 (Nat.lt_of_le_of_lt hle h2)

theorem ctz_two_pow_31 : ctz (2 ^ 31) = 31 := by
  have h := ctz_spec (n := 2 ^ 31) (by decide)
  have hlt : ctz (2 ^ 31) < 32 := ctz_lt (by decide) (by decide)
  revert h hlt
  generalize ctz (2 ^ 31) = j
  intro h hlt
  have : j ≤ 31 := by omega
  obtain ⟨-, o⟩ := h
  rw [Nat.pow_div this (by decide)] at o
  by_cases e : j = 31
  · exact e
  · rw [show 31 - j = (30 - j) + 1 from by omega, Nat.pow_succ] at o
    omega

/-! ### One block (R174, R176) -/

/-- `pmac_block()` while the table has the entry (R174). -/
theorem pmacBlock_room (E : Cipher) {s : State} (h : s.cnt.toNat + 1 < 2 ^ 31) :
    pmacBlock E s = .ok ()
      { s with
        offset := s.offset ^^^ s.lTab.toList.getD (ctz (s.cnt.toNat + 1)) 0
        tag := s.tag ^^^ E (keyBytes .mac s) (s.offset ^^^ s.lTab.toList.getD (ctz (s.cnt.toNat + 1)) 0 ^^^ s.buf)
        cnt := s.cnt + 1, buf := 0, pos := 0
        cipherPort := s.cipherPort ++ [⟨.mac, s.offset ^^^ s.lTab.toList.getD (ctz (s.cnt.toNat + 1)) 0 ^^^ s.buf⟩] } := by
  have hlt : ctz (s.cnt.toNat + 1) < 31 := ctz_lt (by omega) h
  have e : s.lTab.toList.getD (ctz (s.cnt.toNat + 1)) 0 = s.lTab[ctz (s.cnt.toNat + 1)] := by
    rw [List.getD_eq_getElem?_getD, List.getElem?_eq_getElem (by simpa using hlt)]
    simp
  unfold pmacBlock
  rw [dif_pos hlt, e]
  rfl

/-- `pmac_block()` for block number `2^31` (R176). -/
theorem pmacBlock_limit (E : Cipher) {s : State} (h : s.cnt.toNat + 1 = 2 ^ 31) : pmacBlock E s = pmacLimit s := by
  unfold pmacBlock
  rw [h, dif_neg (by rw [ctz_two_pow_31]; decide)]

/-- Everything `pmac_block()` can do, whatever the state: process the block, or abandon the digest (R174, R176). -/
theorem pmacBlock_cases (E : Cipher) (s : State) :
    (∃ offset tag b, pmacBlock E s = .ok ()
      { s with
        offset := offset, tag := tag, cnt := s.cnt + 1, buf := 0, pos := 0
        cipherPort := s.cipherPort ++ [⟨.mac, b⟩] } ∧ ctz (s.cnt.toNat + 1) < 31) ∨
      (pmacBlock E s = pmacLimit s ∧ 31 ≤ ctz (s.cnt.toNat + 1)) := by
  unfold pmacBlock
  by_cases h : ctz (s.cnt.toNat + 1) < 31
  · rw [dif_pos h]; exact .inl ⟨_, _, _, rfl, h⟩
  · rw [dif_neg h]; exact .inr ⟨rfl, by omega⟩

/-! ### Any bytes -/

/-- The step of R173 before a byte goes into the buffer. -/
def pmacMakeRoom (E : Cipher) (s : State) : Proc Unit := if s.pos = 16 then pmacBlock E s else .ok () s

theorem pmacAbsorbAll_cons (E : Cipher) (d : Byte) (ds : List Byte) (s : State) :
    pmacAbsorbAll E (d :: ds) s = andThen (pmacMakeRoom E s) fun _ s => pmacAbsorbAll E ds (bufferByte d s) := rfl

/-- What absorbing bytes in PMAC kind can do: it changes `BUF`, `POS`, `OFFSET`, `TAG`, `CNT` and the cipher port alone, or
abandons the digest (R37, R176, R247). -/
theorem pmacAbsorbAll_cases (E : Cipher) (ds : List Byte) (s : State) :
    (∃ buf pos offset tag cnt, ∃ reqs : List Block, pmacAbsorbAll E ds s = .ok ()
      { s with
        buf := buf, pos := pos, offset := offset, tag := tag, cnt := cnt
        cipherPort := s.cipherPort ++ reqs.map (CipherReq.mk .mac) }) ∨
      ∃ reqs : List Block, pmacAbsorbAll E ds s = .raise .pmacLimit
        { s with
          buf := 0, pos := 0, offset := 0, tag := 0, cnt := 0, mst := .finished
          cipherPort := s.cipherPort ++ reqs.map (CipherReq.mk .mac) } := by
  induction ds generalizing s with
  | nil => exact .inl ⟨s.buf, s.pos, s.offset, s.tag, s.cnt, [], by simp [pmacAbsorbAll]⟩
  | cons d ds ih =>
    rw [pmacAbsorbAll_cons, pmacMakeRoom]
    by_cases full : s.pos = 16
    · rw [if_pos full]
      rcases pmacBlock_cases E s with ⟨offset, tag, b, e, -⟩ | ⟨e, -⟩
      · rw [e, andThen_ok]
        rcases ih (bufferByte d { s with
          offset := offset, tag := tag, cnt := s.cnt + 1, buf := 0, pos := 0
          cipherPort := s.cipherPort ++ [⟨.mac, b⟩] }) with ⟨b', p', o', t', c', r, e'⟩ | ⟨r, e'⟩
        · exact .inl ⟨b', p', o', t', c', b :: r, by rw [e']; simp [bufferByte]⟩
        · exact .inr ⟨b :: r, by rw [e']; simp [bufferByte]⟩
      · rw [e]; exact .inr ⟨[], by simp [pmacLimit]⟩
    · rw [if_neg full, andThen_ok]
      rcases ih (bufferByte d s) with ⟨b', p', o', t', c', r, e'⟩ | ⟨r, e'⟩
      · exact .inl ⟨b', p', o', t', c', r, by rw [e']; simp [bufferByte]⟩
      · exact .inr ⟨r, by rw [e']; simp [bufferByte]⟩

/-- The bytes fed into the digest since its start, as the counters say (R173). -/
def fedBytes (s : State) : Nat := 16 * s.cnt.toNat + s.pos.val

/-- Making room keeps the count of bytes fed, while the table lasts. -/
theorem pmacMakeRoom_fed (E : Cipher) {s : State} (hc : s.cnt.toNat ≤ 2 ^ 31 - 1) (h : fedBytes s < 2 ^ 35) :
    ∃ t, pmacMakeRoom E s = .ok () t ∧ fedBytes t = fedBytes s ∧ t.pos ≠ 16 ∧ t.cnt.toNat ≤ 2 ^ 31 - 1 := by
  unfold pmacMakeRoom
  by_cases full : s.pos = 16
  · have hp : s.pos.val = 16 := by rw [full]; rfl
    unfold fedBytes at h
    have hlt : s.cnt.toNat + 1 < 2 ^ 31 := by omega
    rw [if_pos full, pmacBlock_room E hlt]
    have hcnt : (s.cnt + 1).toNat = s.cnt.toNat + 1 := by
      rw [BitVec.toNat_add]; simp; omega
    refine ⟨_, rfl, ?_, show (0 : Fin 17) ≠ 16 by decide, ?_⟩
    · simp only [fedBytes, hcnt, hp, show (0 : Fin 17).val = 0 from rfl]; omega
    · simp only [hcnt]; omega
  · rw [if_neg full]
    exact ⟨s, rfl, rfl, full, hc⟩

theorem fedBytes_bufferByte {s : State} (d : Byte) (h : s.pos ≠ 16) : fedBytes (bufferByte d s) = fedBytes s + 1 := by
  simp [fedBytes, fin17_succ_val h]; omega

/-- Up to `2^35` bytes the digest goes on (R176). -/
theorem pmacAbsorbAll_within (E : Cipher) (ds : List Byte) {s : State} (hc : s.cnt.toNat ≤ 2 ^ 31 - 1)
    (h : fedBytes s + ds.length ≤ 2 ^ 35) : ∃ t, pmacAbsorbAll E ds s = .ok () t := by
  induction ds generalizing s with
  | nil => exact ⟨s, rfl⟩
  | cons d ds ih =>
    rw [List.length_cons] at h
    obtain ⟨t, e, hf, hp, hc'⟩ := pmacMakeRoom_fed E hc (by omega)
    rw [pmacAbsorbAll_cons, e, andThen_ok]
    exact ih (by simpa using hc') (by rw [fedBytes_bufferByte d hp, hf]; omega)

/-- Past `2^35` bytes it is abandoned (R176). -/
theorem pmacAbsorbAll_beyond (E : Cipher) (ds : List Byte) {s : State} (hc : s.cnt.toNat ≤ 2 ^ 31 - 1)
    (h : fedBytes s + ds.length > 2 ^ 35) : ∃ t, pmacAbsorbAll E ds s = .raise .pmacLimit t := by
  induction ds generalizing s with
  | nil =>
    have := s.pos.isLt
    simp [fedBytes] at h; omega
  | cons d ds ih =>
    rw [List.length_cons] at h
    rw [pmacAbsorbAll_cons]
    by_cases hlt : fedBytes s < 2 ^ 35
    · obtain ⟨t, e, hf, hp, hc'⟩ := pmacMakeRoom_fed E hc hlt
      rw [e, andThen_ok]
      exact ih (by simpa using hc') (by rw [fedBytes_bufferByte d hp, hf]; omega)
    · have hpos := s.pos.isLt
      unfold fedBytes at hlt
      have hp : s.pos = 16 := Fin.ext (by rw [show (16 : Fin 17).val = 16 from rfl]; omega)
      have hn : s.cnt.toNat + 1 = 2 ^ 31 := by omega
      rw [pmacMakeRoom, if_pos hp, pmacBlock_limit E hn]
      exact ⟨_, rfl⟩

/-! ### The closed form (R177) -/

/-- One more byte of a PMAC message within the limit (R173, R174). -/
theorem pmacMakeRoom_holds {E : Cipher} {s : State} {m : List Byte} (h : PmacHolds E s m) (d : Byte)
    (hn : (m ++ [d]).length ≤ 2 ^ 35) :
    ∃ t, pmacMakeRoom E s = .ok () t ∧ PmacHolds E (bufferByte d t) (m ++ [d]) ∧ t.lTab = s.lTab ∧
      keyBytes .mac t = keyBytes .mac s ∧
      t.cipherPort = s.cipherPort ++
        blockRequests .mac (fun i => pmacOffset s.lTab (i + 1) ^^^ messageBlock (m ++ [d]) i)
          (wholeBlocks m.length) (wholeBlocks (m ++ [d]).length) := by
  obtain ⟨hcnt, ho, ht, hp, hb⟩ := h
  have hle := lastPiece_length_le m
  have hw := wholeBlocks_le m.length
  have hl := lastPiece_length m
  rw [List.length_append, List.length_singleton] at hn
  by_cases full : (lastPiece m).length = 16
  · have e16 : s.pos = 16 := Fin.ext (by rw [hp, full]; rfl)
    have hwn : wholeBlocks (m ++ [d]).length = wholeBlocks m.length + 1 := by
      rw [List.length_append, List.length_singleton]; exact wholeBlocks_succ_full (by omega)
    have hblk : messageBlock (m ++ [d]) (wholeBlocks m.length) = s.buf := by
      rw [messageBlock_append _ (by omega), messageBlock_lastPiece full, hb, zeroFill_self full]
    have hlt : s.cnt.toNat + 1 < 2 ^ 31 := by omega
    have hsucc : (s.cnt + 1).toNat = s.cnt.toNat + 1 := by rw [BitVec.toNat_add]; simp; omega
    have hoff : s.offset ^^^ s.lTab.toList.getD (ctz (s.cnt.toNat + 1)) 0 = pmacOffset s.lTab (wholeBlocks m.length + 1) := by
      rw [pmacOffset, ho, hcnt]
    rw [pmacMakeRoom, if_pos e16, pmacBlock_room E hlt]
    refine ⟨_, rfl, ?_, rfl, keyBytes_congr _ rfl rfl rfl rfl, ?_⟩
    · have hroom := bufferByte_room (tail := []) (s := { s with
        offset := s.offset ^^^ s.lTab.toList.getD (ctz (s.cnt.toNat + 1)) 0
        tag := s.tag ^^^ E (keyBytes .mac s) (s.offset ^^^ s.lTab.toList.getD (ctz (s.cnt.toNat + 1)) 0 ^^^ s.buf)
        cnt := s.cnt + 1, buf := 0, pos := 0
        cipherPort := s.cipherPort ++ [⟨.mac, s.offset ^^^ s.lTab.toList.getD (ctz (s.cnt.toNat + 1)) 0 ^^^ s.buf⟩] }) d rfl
        (by decide) zeroFill_nil_block.symm
      refine ⟨?_, ?_, ?_, ?_, ?_⟩
      · rw [bufferByte_cnt, hsucc, hwn, hcnt]
      · rw [bufferByte_offset, hwn, hoff, bufferByte_lTab]
      · rw [bufferByte_tag, hwn, pmacSum, keyBytes_bufferByte, bufferByte_lTab, hoff, hblk, pmacSum_append _ _ _ _ hw, ht]
        rfl
      · rw [lastPiece_snoc_full d full]; exact hroom.1
      · rw [lastPiece_snoc_full d full]; exact hroom.2
    · rw [hwn, blockRequests_one, hblk, hoff]
  · have hne : s.pos ≠ 16 := by intro e; rw [e] at hp; exact full hp.symm
    have hwn : wholeBlocks (m ++ [d]).length = wholeBlocks m.length := by
      rw [List.length_append, List.length_singleton]; exact wholeBlocks_succ_room (by omega)
    have hroom := bufferByte_room (s := s) (tail := lastPiece m) d hp (by omega) hb
    rw [pmacMakeRoom, if_neg hne]
    refine ⟨s, rfl, ⟨?_, ?_, ?_, ?_, ?_⟩, rfl, rfl, ?_⟩
    · rw [bufferByte_cnt, hwn, hcnt]
    · rw [bufferByte_offset, hwn, ho, bufferByte_lTab]
    · rw [bufferByte_tag, hwn, keyBytes_bufferByte, bufferByte_lTab, pmacSum_append _ _ _ _ hw, ht]
    · rw [lastPiece_snoc_room d full, hroom.1]
    · rw [lastPiece_snoc_room d full, hroom.2]
    · rw [hwn, blockRequests_self, List.append_nil]

/-- Any more bytes of a PMAC message of at most `2^35` bytes (R173, R177). -/
theorem pmacAbsorbAll_holds {E : Cipher} (ds : List Byte) {s : State} {m : List Byte} (h : PmacHolds E s m)
    (hn : (m ++ ds).length ≤ 2 ^ 35) :
    ∃ t, pmacAbsorbAll E ds s = .ok () t ∧ PmacHolds E t (m ++ ds) ∧
      t.cipherPort = s.cipherPort ++
        blockRequests .mac (fun i => pmacOffset s.lTab (i + 1) ^^^ messageBlock (m ++ ds) i)
          (wholeBlocks m.length) (wholeBlocks (m ++ ds).length) := by
  induction ds generalizing s m with
  | nil => exact ⟨s, rfl, by simpa using h, by simp⟩
  | cons d ds ih =>
    have hn1 : (m ++ [d]).length ≤ 2 ^ 35 := by simp at hn ⊢; omega
    obtain ⟨t, e, h1, hl, -, p1⟩ := pmacMakeRoom_holds h d hn1
    have hcat : (m ++ [d]) ++ ds = m ++ d :: ds := by simp
    obtain ⟨u, e2, h2, p2⟩ := ih h1 (by rw [hcat]; exact hn)
    rw [hcat] at h2 p2
    refine ⟨u, by rw [pmacAbsorbAll_cons, e, andThen_ok, e2], h2, ?_⟩
    rw [p2, bufferByte_cipherPort, p1, bufferByte_lTab, hl, List.append_assoc]
    congr 1
    have l1 : wholeBlocks m.length ≤ wholeBlocks (m ++ [d]).length := wholeBlocks_mono (by simp)
    have l2 : wholeBlocks (m ++ [d]).length ≤ wholeBlocks (m ++ d :: ds).length := wholeBlocks_mono (by simp)
    rw [← blockRequests_append _ _ l1 l2]
    congr 1
    apply blockRequests_congr
    intro i _ hi
    have hw := wholeBlocks_le (m ++ [d]).length
    rw [← hcat, messageBlock_append ds (by omega)]

/-- A MAC unit just reset holds the empty message (R172). -/
theorem pmacHolds_macReset (E : Cipher) (s : State) : PmacHolds E (macReset s) [] :=
  ⟨rfl, rfl, rfl, rfl, zeroFill_nil_block.symm⟩

/-- The tag of a finished PMAC digest is that of R177, and the accumulators are wiped (R175). -/
theorem pmacFinish_holds {E : Cipher} {s : State} {m : List Byte} (h : PmacHolds E s m) :
    pmacFinish E s =
      (pmacTag E (keyBytes .mac s) s.lTab s.linv m,
        { s with
          buf := 0, pos := 0, offset := 0, tag := 0, cnt := 0, mst := .finished
          cipherPort := s.cipherPort ++ [⟨.mac, s.tag ^^^ pmacLastBlock s⟩] }) := by
  obtain ⟨-, -, ht, hp, hb⟩ := h
  have hlast : pmacLastBlock s =
      if (lastPiece m).length = 16 then blockOf (lastPiece m) ^^^ s.linv else padString (lastPiece m) := by
    unfold pmacLastBlock
    by_cases full : (lastPiece m).length = 16
    · have e16 : s.pos = 16 := Fin.ext (by rw [hp, full]; rfl)
      rw [if_pos e16, if_pos full, hb, zeroFill_self full]
    · have hne : s.pos ≠ 16 := by intro e; rw [e] at hp; exact full hp.symm
      rw [if_neg hne, if_neg full, hb, hp]; rfl
  unfold pmacFinish pmacTag
  simp only [encipher, hlast, ht]

end Sys2Proof.Machine
end

