-- ==== Sys2Proof/Laws/Siv.lean ====
section
/-! SUPPORT. `mac`, `s2v` and the framed vector in closed form (R75, R155, R213). -/

namespace Sys2Proof.Machine

/-! ### `mac` (R155) -/

/-- The state after a `mac`: the MAC unit Finished and empty (R155), with the given requests and S2V transients. -/
def macDone (s : State) (reqs : List CipherReq) (d t : Block) : State :=
  { macReset s with mst := .finished, d := d, t := t, cipherPort := reqs }

@[simp] theorem macDone_macDone (s : State) (c c' : List CipherReq) (d t d' t' : Block) :
    macDone (macDone s c d t) c' d' t' = macDone s c' d' t' := rfl

theorem keyBytes_macDone (sel : KeySel) (s : State) (c : List CipherReq) (d t : Block) :
    keyBytes sel (macDone s c d t) = keyBytes sel s := keyBytes_congr sel rfl rfl rfl rfl

/-- The tag depends on the MAC key and the key-dependent constants alone (R23, R24, R26). -/
theorem macTag_congr (E : Cipher) (kind : MacKind) {s t : State} (hk : keyBytes .mac t = keyBytes .mac s)
    (h1 : t.k1 = s.k1) (h2 : t.k2 = s.k2) (hl : t.lTab = s.lTab) (hi : t.linv = s.linv) :
    macTag E kind t = macTag E kind s := by
  funext m
  cases kind <;> simp [macTag, hk, h1, h2, hl, hi]

theorem macTag_macDone (E : Cipher) (kind : MacKind) (s : State) (c : List CipherReq) (d t : Block) :
    macTag E kind (macDone s c d t) = macTag E kind s :=
  macTag_congr E kind (keyBytes_macDone _ _ _ _ _) rfl rfl rfl rfl

theorem blockRequests_keys (sel : KeySel) (f : Nat → Block) (lo hi : Nat) :
    (blockRequests sel f lo hi).map CipherReq.key = List.replicate (hi - lo) sel := by
  rw [blockRequests, List.map_map]
  apply List.eq_replicate_iff.2
  refine ⟨by simp, ?_⟩
  intro b hb
  obtain ⟨_, _, rfl⟩ := List.mem_map.1 hb
  rfl

theorem macRequests_eq (n : Nat) : macRequests n = wholeBlocks n + 1 := by
  unfold macRequests wholeBlocks; omega

/-- `mac(s)` for a message of at most `2^35` bytes: the tag of R157 or R177, the unit left Finished and empty, and `c(n)`
requests with the MAC key (R155, R222). -/
theorem macOf_eq (E : Cipher) (kind : MacKind) (m : List Byte) (s : State) (h : m.length ≤ 2 ^ 35) :
    ∃ reqs, macOf E kind m s = .ok (macTag E kind s m) (macDone s (s.cipherPort ++ reqs) s.d s.t) ∧
      reqs.map CipherReq.key = List.replicate (macRequests m.length) .mac := by
  cases kind with
  | cmac =>
    obtain ⟨hh, hp⟩ := cmacAbsorbAll_holds m (cmacHolds_macReset E s)
    rw [List.nil_append] at hh hp
    obtain ⟨chain, buf, pos, port, e⟩ : ∃ chain buf pos port, cmacAbsorbAll E m (macReset s) =
        { macReset s with chain := chain, buf := buf, pos := pos, cipherPort := port } :=
      ⟨_, _, _, _, cmacAbsorbAll_frame E m (macReset s)⟩
    rw [e] at hh hp
    have hu : CmacHolds E (cmacUpdate E m (macReset s)) m := by
      rw [cmacUpdate, e]
      exact hh
    have hkey : keyBytes .mac (cmacUpdate E m (macReset s)) = keyBytes .mac s := by
      rw [cmacUpdate, e]
      exact keyBytes_congr _ rfl rfl rfl rfl
    refine ⟨blockRequests .mac
      (fun i => cmacChain E (keyBytes .mac (macReset s)) m i ^^^ messageBlock m i) (wholeBlocks ([] : List Byte).length)
        (wholeBlocks m.length) ++
        [⟨.mac, (cmacUpdate E m (macReset s)).chain ^^^ cmacLastBlock (cmacUpdate E m (macReset s))⟩], ?_, ?_⟩
    · show andThen (.ok () (cmacUpdate E m (macReset s))) (fun _ s => .ok (cmacFinish E s).1 (cmacFinish E s).2) = _
      rw [andThen_ok, cmacFinish_holds hu, hkey, cmacUpdate, e]
      subst hp
      simp only [macTag, macDone, macReset, List.append_assoc]
    · rw [List.map_append, blockRequests_keys, macRequests_eq, List.replicate_succ', List.map_singleton]
      rfl
  | pmac =>
    obtain ⟨t, e, hh, hp⟩ := pmacAbsorbAll_holds m (pmacHolds_macReset E s) (by simpa using h)
    rw [List.nil_append] at hh hp
    rcases pmacAbsorbAll_cases E m (macReset s) with ⟨buf, pos, offset, tag, cnt, r, e'⟩ | ⟨r, e'⟩
    · obtain ⟨port, et⟩ : ∃ port, t =
          { macReset s with buf := buf, pos := pos, offset := offset, tag := tag, cnt := cnt, cipherPort := port } :=
        ⟨_, by rw [e] at e'; exact (Proc.ok.inj e').2⟩
      rw [et] at e hh hp
      have hu : PmacHolds E ({ macReset s with
          buf := buf, pos := pos, offset := offset, tag := tag, cnt := cnt, cipherPort := port
          mst := .accumulating } : State) m := hh
      have hkey : keyBytes .mac ({ macReset s with
          buf := buf, pos := pos, offset := offset, tag := tag, cnt := cnt, cipherPort := port
          mst := .accumulating } : State) = keyBytes .mac s := keyBytes_congr _ rfl rfl rfl rfl
      subst hp
      refine ⟨blockRequests .mac
        (fun i => pmacOffset (macReset s).lTab (i + 1) ^^^ messageBlock m i) (wholeBlocks ([] : List Byte).length)
          (wholeBlocks m.length) ++
          [⟨.mac, tag ^^^ pmacLastBlock ({ macReset s with
            buf := buf, pos := pos, offset := offset, tag := tag, cnt := cnt, mst := .accumulating } : State)⟩], ?_, ?_⟩
      · show andThen (andThen (pmacAbsorbAll E m (macReset s)) _) (fun _ s => .ok (pmacFinish E s).1 (pmacFinish E s).2) = _
        rw [e, andThen_ok, andThen_ok]
        simp only
        rw [pmacFinish_holds hu, hkey]
        simp only [macTag, macDone, macReset, List.append_assoc]
        rfl
      · rw [List.map_append, blockRequests_keys, macRequests_eq, List.replicate_succ', List.map_singleton]
        rfl
    · rw [e] at e'; cases e'

/-! ### `s2v` (R213) -/

/-- The items of `s2v` in closed form (R213, R222). -/
theorem s2vItems_eq (E : Cipher) (kind : MacKind) (items : List (List Byte)) (s : State) (c : List CipherReq) (d t : Block)
    (h : ∀ item ∈ items, item.length ≤ 2 ^ 35) :
    ∃ reqs, s2vItems E kind items (macDone s c d t) =
        .ok () (macDone s (c ++ reqs) (items.foldl (fun d item => dbl d ^^^ macTag E kind s item) d) t) ∧
      reqs.map CipherReq.key = List.replicate (items.map fun item => macRequests item.length).sum .mac := by
  induction items generalizing c d with
  | nil => exact ⟨[], by simp [s2vItems], rfl⟩
  | cons item items ih =>
    obtain ⟨r1, e1, k1⟩ := macOf_eq E kind item (macDone s c (dbl d) t) (h item (by simp))
    rw [macTag_macDone] at e1
    obtain ⟨r2, e2, k2⟩ := ih (c ++ r1) (dbl d ^^^ macTag E kind s item) fun i hi => h i (by simp [hi])
    refine ⟨r1 ++ r2, ?_, ?_⟩
    · show andThen (macOf E kind item (macDone s c (dbl d) t)) _ = _
      rw [e1, andThen_ok]
      show s2vItems E kind items (macDone s (c ++ r1) (dbl d ^^^ macTag E kind s item) t) = _
      rw [e2, List.foldl_cons, List.append_assoc]
    · rw [List.map_append, k1, k2, List.map_cons, List.sum_cons, ← List.replicate_append_replicate]

/-- `s2v(items, p)` in closed form: the tag, the MAC unit left Finished and empty, and its requests (R213, R222). -/
theorem s2v_eq (E : Cipher) (kind : MacKind) (items : List (List Byte)) (p : List Byte) (s : State)
    (h : ∀ item ∈ items, item.length ≤ 2 ^ 35) (hp : p.length ≤ 2 ^ 35) :
    ∃ reqs d t, s2v E kind items p s =
        .ok (s2vTag (macTag E kind s) items p) (macDone s (s.cipherPort ++ reqs) d t) ∧
      reqs.map CipherReq.key = List.replicate (s2vRequests (items.map List.length) p.length) .mac := by
  obtain ⟨r0, e0, k0⟩ := macOf_eq E kind (List.replicate 16 0) s (by simp)
  obtain ⟨r1, e1, k1⟩ := s2vItems_eq E kind items s (s.cipherPort ++ r0) (macTag E kind s (List.replicate 16 0)) s.t h
  unfold s2v
  rw [e0, andThen_ok]
  show ∃ reqs d t, andThen (s2vItems E kind items
    (macDone s (s.cipherPort ++ r0) (macTag E kind s (List.replicate 16 0)) s.t)) _ = _ ∧ _
  rw [e1, andThen_ok]
  have hsum : (items.map fun item => macRequests item.length).sum = ((items.map List.length).map macRequests).sum := by
    rw [List.map_map]; rfl
  unfold s2vTag
  generalize items.foldl (fun d item => dbl d ^^^ macTag E kind s item) (macTag E kind s (List.replicate 16 0)) = d1
  have last : ∀ (d t : Block) (x : List Byte), x.length = max p.length 16 →
      ∃ reqs d' t', macOf E kind x (macDone s (s.cipherPort ++ r0 ++ r1) d t) =
          .ok (macTag E kind s x) (macDone s (s.cipherPort ++ reqs) d' t') ∧
        reqs.map CipherReq.key = List.replicate (s2vRequests (items.map List.length) p.length) .mac := by
    intro d t x hx
    obtain ⟨r2, e2, k2⟩ := macOf_eq E kind x (macDone s (s.cipherPort ++ r0 ++ r1) d t) (by omega)
    rw [macTag_macDone] at e2
    refine ⟨r0 ++ r1 ++ r2, d, t, ?_, ?_⟩
    · rw [e2, macDone_macDone, ← List.append_assoc, ← List.append_assoc]
      rfl
    · rw [List.map_append, List.map_append, k0, k1, k2, hx, hsum, s2vRequests, List.length_replicate,
        ← List.replicate_append_replicate, ← List.replicate_append_replicate]
  by_cases hl : p.length ≥ 16
  · simp only [s2vLast, if_pos hl]
    refine last d1 (blockOf (p.drop (p.length - 16)) ^^^ d1) (p.take (p.length - 16) ++ blockBytes (blockOf (p.drop (p.length - 16)) ^^^ d1)) ?_
    rw [List.length_append, List.length_take, blockBytes_length]
    omega
  · have htake : p.take (p.length - 16) = [] := by rw [Nat.sub_eq_zero_of_le (by omega), List.take_zero]
    simp only [s2vLast, if_neg hl, htake, List.nil_append]
    refine last (dbl d1) (padString p ^^^ dbl d1) (blockBytes (padString p ^^^ dbl d1)) ?_
    rw [blockBytes_length]
    omega

/-! ### Framed vectors (R75) -/

theorem frameVector_nil (final : List Byte) : frameVector [] final = final := rfl

theorem frameVector_cons (item : List Byte) (items : List (List Byte)) (final : List Byte) :
    frameVector (item :: items) final = beBytes 4 item.length ++ (item ++ frameVector items final) := by
  simp [frameVector]

/-- The four length bytes, one by one. -/
theorem beBytes_four (n : Nat) : ∃ a b c d, beBytes 4 n = [a, b, c, d] := ⟨_, _, _, _, rfl⟩

/-- Parsing a framed vector gives its items and its final string (R75). -/
theorem parseItems_frameVector (items : List (List Byte)) (final : List Byte) (h : ∀ item ∈ items, item.length < 2 ^ 32) :
    parseItems items.length (frameVector items final) = some (items, final) := by
  induction items with
  | nil => rfl
  | cons item items ih =>
    rw [frameVector_cons, List.length_cons]
    have hb : beNat (beBytes 4 item.length) = item.length := by
      rw [beNat_beBytes]; exact Nat.mod_eq_of_lt (h item (by simp))
    obtain ⟨a, b, c, d, e⟩ := beBytes_four item.length
    rw [e] at hb ⊢
    simp only [List.cons_append, List.nil_append, parseItems, hb]
    rw [if_neg (by simp), List.drop_left, List.take_left, ih fun i hi => h i (by simp [hi])]

/-- A payload that parses is the framed vector of what it parses to (R75). -/
theorem frameVector_parseItems {n : Nat} {bytes final : List Byte} {items : List (List Byte)}
    (h : parseItems n bytes = some (items, final)) : bytes = frameVector items final ∧ items.length = n := by
  induction n generalizing bytes items with
  | zero =>
    simp only [parseItems, Option.some.injEq, Prod.mk.injEq] at h
    obtain ⟨rfl, rfl⟩ := h
    exact ⟨rfl, rfl⟩
  | succ n ih =>
    match bytes, h with
    | l0 :: l1 :: l2 :: l3 :: rest, h =>
      simp only [parseItems] at h
      split at h
      · cases h
      · rename_i hl
        split at h
        · rename_i items' final' e
          simp only [Option.some.injEq, Prod.mk.injEq] at h
          obtain ⟨rfl, rfl⟩ := h
          obtain ⟨e1, e2⟩ := ih e
          have hlen : (rest.take (beNat [l0, l1, l2, l3])).length = beNat [l0, l1, l2, l3] := by
            rw [List.length_take]; omega
          refine ⟨?_, by simp [e2]⟩
          rw [frameVector_cons, ← e1, hlen, List.take_append_drop]
          have := beBytes_beNat [l0, l1, l2, l3]
          rw [show [l0, l1, l2, l3].length = 4 from rfl] at this
          rw [this]; rfl
        · cases h
    | [], h => cases h
    | [_], h => cases h
    | [_, _], h => cases h
    | [_, _, _], h => cases h

/-- Every item of a vector that fits is shorter than `2^32` bytes. -/
theorem item_length_lt {items : List (List Byte)} {final : List Byte} (h : (frameVector items final).length < 2 ^ 32) :
    final.length < 2 ^ 32 ∧ ∀ item ∈ items, item.length < 2 ^ 32 := by
  induction items with
  | nil => exact ⟨h, by simp⟩
  | cons item items ih =>
    rw [frameVector_cons] at h
    simp only [List.length_append] at h
    obtain ⟨h1, h2⟩ := ih (by omega)
    refine ⟨h1, ?_⟩
    intro i hi
    rcases List.mem_cons.1 hi with rfl | hi
    · omega
    · exact h2 i hi

end Sys2Proof.Machine
end

