-- ==== Sys2Proof/Laws/Commands.lean ====
section
/-! SUPPORT. Every meaning is a command function between `exec` and `complete`; what packets, checks and SIV bodies do. -/

namespace Sys2Proof

/-! ### Packets (R70, R72, R73) -/

/-- The packet a header and its payload spell is taken off the stream whole. -/
theorem takePacket_header (op a : Byte) (b : Half) (payload rest : List Byte) (h : payload.length < 2 ^ 32) :
    takePacket (packetHeader op a b payload.length ++ payload ++ rest) = some (⟨op, a, b, payload⟩, rest) := by
  have h2 : beNat (beBytes 2 b.toNat) = b.toNat := by
    rw [beNat_beBytes]; exact Nat.mod_eq_of_lt b.isLt
  have h4 : beNat (beBytes 4 payload.length) = payload.length := by
    rw [beNat_beBytes]; exact Nat.mod_eq_of_lt h
  simp only [packetHeader, beBytes, List.cons_append, List.nil_append] at h2 h4 ⊢
  rw [takePacket, h4, h2, if_neg (by simp), List.take_left, List.drop_left]
  simp

/-- A packet taken off the stream is spelled by the stream's first bytes. -/
theorem takePacket_some {bytes rest : List Byte} {k : Packet} (h : takePacket bytes = some (k, rest)) :
    k.payload.length < 2 ^ 32 ∧ packetHeader k.op k.a k.b k.payload.length ++ k.payload ++ rest = bytes := by
  match bytes, h with
  | op :: a :: b1 :: b0 :: l3 :: l2 :: l1 :: l0 :: tail, h =>
    rw [takePacket] at h
    split at h
    · cases h
    · rename_i hl
      simp only [Option.some.injEq, Prod.mk.injEq] at h
      obtain ⟨rfl, rfl⟩ := h
      have hlt := beNat_lt [l3, l2, l1, l0]
      have hlen : (tail.take (beNat [l3, l2, l1, l0])).length = beNat [l3, l2, l1, l0] := by
        rw [List.length_take]; omega
      have h4 : beBytes 4 (beNat [l3, l2, l1, l0]) = [l3, l2, l1, l0] := beBytes_beNat [l3, l2, l1, l0]
      have h2 : beBytes 2 (BitVec.ofNat 16 (beNat [b1, b0])).toNat = [b1, b0] := by
        have := beNat_lt [b1, b0]
        rw [BitVec.toNat_ofNat, Nat.mod_eq_of_lt (by simpa using this)]
        exact beBytes_beNat [b1, b0]
      refine ⟨by rw [hlen]; exact (show beNat [l3, l2, l1, l0] < 2 ^ 32 by simpa using hlt), ?_⟩
      simp only [packetHeader, hlen, h4, h2]
      simp

/-- The decoder keeps a packet's opcode, header arguments and payload. -/
theorem decodePacket_ok {k : Packet} {i : Instr} (h : decodePacket k = .ok i) :
    i.opcode = k.op ∧ i.argA = k.a ∧ i.argB = k.b ∧ i.payload = k.payload := by
  obtain ⟨op, a, b, p⟩ := k
  unfold decodePacket at h
  split at h <;> first | (cases h; simp_all [Instr.opcode, Instr.argA, Instr.argB, Instr.payload]) | cases h

namespace Machine

/-! ### Commands -/

/-- The command function of an instruction: what its meaning completes. -/
def commandOf (E : Cipher) : Instr → State → Proc (List Byte)
  | .dbl a b payload => dblCommand a b payload
  | .dblinv a b payload => dblinvCommand a b payload
  | .xor a n payload => xorCommand a n payload
  | .pad pos b payload => padCommand pos b payload
  | .select bit b payload => selectCommand bit b payload
  | .cmp a n payload => cmpCommand a n payload
  | .equal a n payload => equalCommand a n payload
  | .sivInit kind b payload => sivInitCommand E kind b payload
  | .macInit kind b payload => macInitCommand E kind b payload
  | .ctrInit a b payload => ctrInitCommand a b payload
  | .wipe a b payload => wipeCommand a b payload
  | .getStatus a b payload => getStatusCommand a b payload
  | .macReset a b payload => macResetCommand a b payload
  | .macUpdate a b payload => macUpdateCommand E a b payload
  | .macFinish a b payload => macFinishCommand E a b payload
  | .ctrSetiv a b payload => ctrSetivCommand a b payload
  | .ctrXor a b payload => ctrXorCommand E a b payload
  | .s2v nad b payload => s2vCommand E nad b payload
  | .sivSeal nad b payload => sivSealCommand E nad b payload
  | .sivOpen nad b payload => sivOpenCommand E nad b payload

theorem exec_eq_complete (i : Instr) (s : State) : exec i s = complete i.opcode (commandOf Config.E i s) := by
  cases i <;> rfl

/-! ### CTR and SIV bodies (R217, R218, R221) -/

/-- The counter of a SIV stream starts below `2^128 - 2^63`: bit 63 of its IV is clear (R215, R221). -/
theorem sivIv_toNat_le (v : Block) : (sivIv v).toNat ≤ 2 ^ 128 - 1 - 2 ^ 63 := by
  unfold sivIv
  rw [BitVec.toNat_and]
  exact Nat.le_trans Nat.and_le_right (by decide)

/-- The stream a SIV command runs, from its IV on: no overflow (R193, R221). -/
theorem ctrXor_sivIv (E : Cipher) (v : Block) (ds : List Byte) (s : State) (h : ds.length < 2 ^ 32) :
    ∃ ctrblk ks kpos reqs, ctrXor E ds (ctrSetiv (sivIv v) s) =
        .ok (ctrStream E (keyBytes .ctr s) (sivIv v) 0 ds)
          { s with
            ctrblk := ctrblk, ks := ks, kpos := kpos, cst := .streaming, cipherPort := s.cipherPort ++ reqs } ∧
      reqs.map CipherReq.key = List.replicate ((ds.length + 15) / 16) .ctr := by
  have hv := sivIv_toNat_le v
  obtain ⟨t, e, -, hp⟩ := ctrXor_holds ds (ctrHolds_ctrSetiv E (sivIv v) s) (by omega)
  rw [keyBytes_ctrSetiv] at e
  rcases ctrXor_cases E ds (ctrSetiv (sivIv v) s) with ⟨out, c, k, p, r, e', -⟩ | ⟨r, e'⟩
  · rw [e] at e'
    obtain ⟨-, et⟩ := Proc.ok.inj e'
    obtain ⟨port, et⟩ : ∃ port, t =
        { s with ctrblk := c, ks := k, kpos := p, cst := .streaming, cipherPort := port } := ⟨_, et⟩
    subst et
    simp only [ctrSetiv_cipherPort] at hp
    subst hp
    refine ⟨c, k, p, _, e, ?_⟩
    rw [blockRequests_keys]
    congr 1
    omega
  · rw [e] at e'; cases e'

/-- `SIV_SEAL` past its checks (R217, R219, R222). -/
theorem sealBody_eq (E : Cipher) (kind : MacKind) (items : List (List Byte)) (p : List Byte) (s : State)
    (h : ∀ item ∈ items, item.length < 2 ^ 32) (hp : p.length < 2 ^ 32) :
    ∃ reqs, endingWith sivEnd (sealBody E kind items p s) =
        .ok (blockBytes (s2vTag (macTag E kind s) items p) ++
          ctrStream E (keyBytes .ctr s) (sivIv (s2vTag (macTag E kind s) items p)) 0 p) (afterSiv s reqs) ∧
      reqs.map CipherReq.key =
        List.replicate (s2vRequests (items.map List.length) p.length) .mac ++ List.replicate ((p.length + 15) / 16) .ctr := by
  obtain ⟨r1, d, t, e1, k1⟩ := s2v_eq E kind items p s (fun i hi => by have := h i hi; omega) (by omega)
  obtain ⟨c, ks, kp, r2, e2, k2⟩ := ctrXor_sivIv E (s2vTag (macTag E kind s) items p) p (macDone s (s.cipherPort ++ r1) d t) hp
  rw [keyBytes_macDone] at e2
  refine ⟨r1 ++ r2, ?_, by rw [List.map_append, k1, k2]⟩
  rw [sealBody, e1, andThen_ok, e2, andThen_ok, endingWith_ok]
  simp [sivEnd, ctrClear, s2vEnd, macReset, macDone, afterSiv, afterS2v, List.append_assoc]

/-- The OR of the differences of two strings of one length is zero exactly when they are equal (R111). -/
theorem orDifferences_eq_zero {x y : List Byte} (h : x.length = y.length) : orDifferences x y = 0 ↔ x = y := by
  induction x generalizing y with
  | nil => simp [orDifferences, List.length_eq_zero_iff.1 h.symm]
  | cons d ds ih =>
    cases y with
    | nil => simp at h
    | cons e es =>
      have ih := ih (y := es) (by simpa using h)
      have key : (d ^^^ e) ||| orDifferences ds es = 0#8 ↔ d ^^^ e = 0#8 ∧ orDifferences ds es = 0#8 := BitVec.or_eq_zero_iff
      rw [orDifferences, List.cons.injEq, ← ih]
      exact key.trans (and_congr_left fun _ => BitVec.xor_eq_zero_iff)

theorem compareBytes_eq (a b : List Byte) : compareBytes a b = if a = b then 1 else 0 := by
  unfold compareBytes
  by_cases hl : a.length = b.length
  · simp only [hl, true_and, orDifferences_eq_zero hl]
  · have hne : a ≠ b := fun e => hl (by rw [e])
    simp [hl, hne]

theorem equalBytes_blocks (a b : Block) : equalBytes (blockBytes a) (blockBytes b) = if a = b then 1 else 0 := by
  unfold equalBytes
  rw [if_neg (by simp), compareBytes_eq]
  by_cases h : a = b
  · rw [if_pos h, if_pos (by rw [h])]
  · rw [if_neg h, if_neg fun e => h (blockBytes_inj e)]

/-- `SIV_OPEN` past its checks (R218, R219, R222). -/
theorem openBody_eq (E : Cipher) (kind : MacKind) (items : List (List Byte)) (tag : Block) (body : List Byte) (s : State)
    (h : ∀ item ∈ items, item.length < 2 ^ 32) (hp : body.length < 2 ^ 32) :
    ∃ reqs, endingWith (fun s => sivEnd (wipeP s)) (openBody E kind items (blockBytes tag ++ body) s) =
        (if s2vTag (macTag E kind s) items (ctrStream E (keyBytes .ctr s) (sivIv tag) 0 body) = tag then
          .ok (ctrStream E (keyBytes .ctr s) (sivIv tag) 0 body) { afterSiv s reqs with p := [] }
        else .raise .integrity { afterSiv s reqs with p := [] }) ∧
      reqs.map CipherReq.key =
        List.replicate ((body.length + 15) / 16) .ctr ++
          List.replicate (s2vRequests (items.map List.length) body.length) .mac := by
  obtain ⟨c, ks, kp, r1, e1, k1⟩ := ctrXor_sivIv E tag body s hp
  generalize hx : ctrStream E (keyBytes .ctr s) (sivIv tag) 0 body = x at *
  have hxl : x.length = body.length := by rw [← hx]; exact ctrStream_length _ _ _ _ _
  generalize hs1 : ({ s with
    ctrblk := c, ks := ks, kpos := kp, cst := .streaming, p := x, cipherPort := s.cipherPort ++ r1 } : State) = s1
  have htag : macTag E kind s1 = macTag E kind s := by
    subst hs1
    exact macTag_congr E kind (keyBytes_congr _ rfl rfl rfl rfl) rfl rfl rfl rfl
  obtain ⟨r2, d, t, e2, k2⟩ := s2v_eq E kind items x s1 (fun i hi => by have := h i hi; omega) (by omega)
  rw [htag] at e2
  refine ⟨r1 ++ r2, ?_, by rw [List.map_append, k1, k2, hxl]⟩
  have htake : (blockBytes tag ++ body).take 16 = blockBytes tag := List.take_left' (by simp)
  have hdrop : (blockBytes tag ++ body).drop 16 = body := List.drop_left' (by simp)
  rw [openBody, htake, hdrop, blockOf_blockBytes, e1, andThen_ok]
  simp only [hs1]
  rw [e2, andThen_ok, equalBytes_blocks]
  by_cases hv : s2vTag (macTag E kind s) items x = tag
  · rw [if_pos hv, if_pos hv, if_neg (by decide), endingWith_ok]
    subst hs1
    simp [sivEnd, ctrClear, s2vEnd, macReset, macDone, afterSiv, afterS2v, wipeP, List.append_assoc]
  · rw [if_neg hv, if_neg hv, if_pos (by decide), endingWith_raise]
    subst hs1
    simp [sivEnd, ctrClear, s2vEnd, macReset, macDone, afterSiv, afterS2v, wipeP, List.append_assoc]

/-- `S2V` past its checks (R212, R219, R222). -/
theorem s2vBody_eq (E : Cipher) (kind : MacKind) (items : List (List Byte)) (p : List Byte) (s : State)
    (h : ∀ item ∈ items, item.length < 2 ^ 32) (hp : p.length < 2 ^ 32) :
    ∃ reqs, endingWith s2vEnd (andThen (s2v E kind items p s) fun v s => .ok (blockBytes v) s) =
        .ok (blockBytes (s2vTag (macTag E kind s) items p)) (afterS2v s reqs) ∧
      reqs.map CipherReq.key = List.replicate (s2vRequests (items.map List.length) p.length) .mac := by
  obtain ⟨r1, d, t, e1, k1⟩ := s2v_eq E kind items p s (fun i hi => by have := h i hi; omega) (by omega)
  refine ⟨r1, ?_, k1⟩
  rw [e1, andThen_ok, endingWith_ok]
  rfl

end Machine

end Sys2Proof
end

