-- ==== Sys2Proof/Laws/PerInstr.lean ====
section
/-! SUPPORT. One family of lemmas, one per command: its packet's fields decode to it (30_encoding.md R70, R73). -/

namespace Sys2Proof.Laws.DecodesFromOwnFields

/-- The packet with a command's own opcode byte, arguments and payload decodes to that command. -/
def Statement (i : Instr) : Prop := decodePacket ⟨i.opcode, i.argA, i.argB, i.payload⟩ = .ok i

theorem dbl (a : Byte) (b : Half) (payload : List Byte) : Statement (.dbl a b payload) := rfl
theorem dblinv (a : Byte) (b : Half) (payload : List Byte) : Statement (.dblinv a b payload) := rfl
theorem xor (a : Byte) (b : Half) (payload : List Byte) : Statement (.xor a b payload) := rfl
theorem pad (a : Byte) (b : Half) (payload : List Byte) : Statement (.pad a b payload) := rfl
theorem select (a : Byte) (b : Half) (payload : List Byte) : Statement (.select a b payload) := rfl
theorem cmp (a : Byte) (b : Half) (payload : List Byte) : Statement (.cmp a b payload) := rfl
theorem equal (a : Byte) (b : Half) (payload : List Byte) : Statement (.equal a b payload) := rfl
theorem sivInit (a : Byte) (b : Half) (payload : List Byte) : Statement (.sivInit a b payload) := rfl
theorem macInit (a : Byte) (b : Half) (payload : List Byte) : Statement (.macInit a b payload) := rfl
theorem ctrInit (a : Byte) (b : Half) (payload : List Byte) : Statement (.ctrInit a b payload) := rfl
theorem wipe (a : Byte) (b : Half) (payload : List Byte) : Statement (.wipe a b payload) := rfl
theorem getStatus (a : Byte) (b : Half) (payload : List Byte) : Statement (.getStatus a b payload) := rfl
theorem macReset (a : Byte) (b : Half) (payload : List Byte) : Statement (.macReset a b payload) := rfl
theorem macUpdate (a : Byte) (b : Half) (payload : List Byte) : Statement (.macUpdate a b payload) := rfl
theorem macFinish (a : Byte) (b : Half) (payload : List Byte) : Statement (.macFinish a b payload) := rfl
theorem ctrSetiv (a : Byte) (b : Half) (payload : List Byte) : Statement (.ctrSetiv a b payload) := rfl
theorem ctrXor (a : Byte) (b : Half) (payload : List Byte) : Statement (.ctrXor a b payload) := rfl
theorem s2v (a : Byte) (b : Half) (payload : List Byte) : Statement (.s2v a b payload) := rfl
theorem sivSeal (a : Byte) (b : Half) (payload : List Byte) : Statement (.sivSeal a b payload) := rfl
theorem sivOpen (a : Byte) (b : Half) (payload : List Byte) : Statement (.sivOpen a b payload) := rfl

end Sys2Proof.Laws.DecodesFromOwnFields
end

