-- ==== Sys2Proof/Tests/Slice0.lean ====
section
/-! SUPPORT. The author's tests: the WellFormed smoke, one packet per command written out from R70 and R73, the vectors of
spec/95_test_vectors.md under its toy cipher, the step, and a witness for the hypotheses of every statement. -/

namespace Sys2Proof.Tests

open Sys2Proof Sys2Proof.Machine

set_option maxRecDepth 20000

/-! ### Helpers -/

/-- `TOY` of 95_test_vectors.md. -/
def toy (k : List Byte) (b : Block) : Block :=
  blockOf ((List.range 16).map fun i =>
    (blockByte b ((i + 1) % 16) ^^^ k.getD i 0) + k.getD (k.length - 1 - i) 0 + BitVec.ofNat 8 i)

/-- `n` bytes counting up from `a`. -/
def count (a n : Nat) : List Byte := (List.range n).map fun i => BitVec.ofNat 8 (a + i)

/-- `n` equal bytes. -/
def rep (n : Nat) (d : Byte) : List Byte := List.replicate n d

/-- The response payload of a command, or its error. -/
def answer : Proc (List Byte) → Err ⊕ List Byte
  | .ok out _ => .inr out
  | .raise e _ => .inl e

/-- The state a command leaves. -/
def after : Proc (List Byte) → State
  | .ok _ s => s
  | .raise _ s => s

/-- A MAC key of one kind is loaded, under `TOY`. -/
def toyMac (kind : Byte) : State := after (macInitCommand toy kind 0 (count 0xa0 16) .reset)

/-- A master key is loaded, under `TOY`. -/
def toySiv (kind : Byte) : State := after (sivInitCommand toy kind 0 (count 0xa0 32) .reset)

/-! ### WellFormed -/

theorem test_payload_too_long_refused : ¬(Instr.macUpdate 0 0 (List.replicate (2 ^ 32) 0)).WellFormed := by
  rw [Instr.WellFormed, Instr.payload, List.length_replicate]; omega

theorem test_longest_payload_wellFormed : (Instr.macUpdate 0 0 (List.replicate (2 ^ 32 - 1) 0)).WellFormed := by
  rw [Instr.WellFormed, Instr.payload, List.length_replicate]; omega

/-! ### Decoding: one packet per command, bytes from R70 and the table of R73 -/
theorem test_decode_dbl : decode ([0x01, 0x00, 0x00, 0x00, 0x00, 0x00, 0x00, 0x10, 0x80] ++ rep 15 0) = .ok (.dbl 0 0 (0x80 :: rep 15 0), []) := by rfl
theorem test_decode_dblinv : decode ([0x02, 0x00, 0x00, 0x00, 0x00, 0x00, 0x00, 0x10] ++ rep 16 0x5a) = .ok (.dblinv 0 0 (rep 16 0x5a), []) := by rfl
theorem test_decode_xor : decode [0x03, 0x00, 0x00, 0x04, 0x00, 0x00, 0x00, 0x06, 0x01, 0x02, 0x03, 0x04, 0x05, 0xf0] = .ok (.xor 0 4 [0x01, 0x02, 0x03, 0x04, 0x05, 0xf0], []) := by rfl
theorem test_decode_pad : decode ([0x04, 0x05, 0x00, 0x00, 0x00, 0x00, 0x00, 0x10] ++ rep 16 0x5a) = .ok (.pad 5 0 (rep 16 0x5a), []) := by rfl
theorem test_decode_select : decode [0x05, 0x01, 0x00, 0x00, 0x00, 0x00, 0x00, 0x04, 0xaa, 0xbb, 0x55, 0x66] = .ok (.select 1 0 [0xaa, 0xbb, 0x55, 0x66], []) := by rfl
theorem test_decode_cmp : decode [0x06, 0x00, 0x00, 0x02, 0x00, 0x00, 0x00, 0x04, 0x01, 0x02, 0x01, 0x02] = .ok (.cmp 0 2 [0x01, 0x02, 0x01, 0x02], []) := by rfl
theorem test_decode_equal : decode [0x07, 0x00, 0x01, 0x02, 0x00, 0x00, 0x00, 0x00] = .ok (.equal 0 0x0102 [], []) := by rfl
theorem test_decode_sivInit : decode ([0x10, 0x01, 0x00, 0x00, 0x00, 0x00, 0x00, 0x20] ++ rep 32 0xab) = .ok (.sivInit 1 0 (rep 32 0xab), []) := by rfl
theorem test_decode_macInit : decode ([0x11, 0x02, 0x00, 0x00, 0x00, 0x00, 0x00, 0x10] ++ rep 16 0xab) = .ok (.macInit 2 0 (rep 16 0xab), []) := by rfl
theorem test_decode_ctrInit : decode ([0x12, 0x00, 0x00, 0x00, 0x00, 0x00, 0x00, 0x10] ++ rep 16 0xab) = .ok (.ctrInit 0 0 (rep 16 0xab), []) := by rfl
theorem test_decode_wipe : decode [0x13, 0x00, 0x00, 0x00, 0x00, 0x00, 0x00, 0x00] = .ok (.wipe 0 0 [], []) := by rfl
theorem test_decode_getStatus : decode [0x14, 0x00, 0x00, 0x00, 0x00, 0x00, 0x00, 0x00] = .ok (.getStatus 0 0 [], []) := by rfl
theorem test_decode_macReset : decode [0x20, 0x00, 0x00, 0x00, 0x00, 0x00, 0x00, 0x00] = .ok (.macReset 0 0 [], []) := by rfl
theorem test_decode_macUpdate : decode [0x21, 0x00, 0x00, 0x00, 0x00, 0x00, 0x00, 0x03, 0x40, 0x41, 0x42] = .ok (.macUpdate 0 0 [0x40, 0x41, 0x42], []) := by rfl
theorem test_decode_macFinish : decode [0x22, 0x00, 0x00, 0x00, 0x00, 0x00, 0x00, 0x00] = .ok (.macFinish 0 0 [], []) := by rfl
theorem test_decode_ctrSetiv : decode ([0x30, 0x00, 0x00, 0x00, 0x00, 0x00, 0x00, 0x10] ++ rep 16 0xff) = .ok (.ctrSetiv 0 0 (rep 16 0xff), []) := by rfl
theorem test_decode_ctrXor : decode [0x31, 0x00, 0x00, 0x00, 0x00, 0x00, 0x00, 0x01, 0xff] = .ok (.ctrXor 0 0 [0xff], []) := by rfl
theorem test_decode_s2v : decode [0x40, 0x01, 0x00, 0x00, 0x00, 0x00, 0x00, 0x06, 0x00, 0x00, 0x00, 0x01, 0x10, 0x11] = .ok (.s2v 1 0 [0x00, 0x00, 0x00, 0x01, 0x10, 0x11], []) := by rfl
theorem test_decode_sivSeal : decode [0x41, 0x01, 0x00, 0x00, 0x00, 0x00, 0x00, 0x0a, 0x00, 0x00, 0x00, 0x03, 0x10, 0x11, 0x12, 0x11, 0x22, 0x33] = .ok (.sivSeal 1 0 [0x00, 0x00, 0x00, 0x03, 0x10, 0x11, 0x12, 0x11, 0x22, 0x33], []) := by rfl
theorem test_decode_sivOpen : decode ([0x42, 0x00, 0x00, 0x00, 0x00, 0x00, 0x00, 0x10] ++ rep 16 0x14) = .ok (.sivOpen 0 0 (rep 16 0x14), []) := by rfl

theorem test_decode_unknown_opcode : decode [0x23, 0x00, 0x00, 0x00, 0x00, 0x00, 0x00, 0x01, 0xaa] = .error (.unknownOpcode 0x23) := by
  rfl

theorem test_decode_incomplete : decode [0x13, 0x00, 0x00, 0x00, 0x00, 0x00, 0x00, 0x01] = .error .incomplete := by rfl

theorem test_table_word : decodeTableWord 64 0x4101000000000000 = some (.sivSeal 1 0 []) := by rfl

theorem test_table_word_payload_zero : decodeTableWord 64 0x0100000000000002 = some (.dbl 0 0 [0, 0]) := by rfl

/-! ### The vectors of 95_test_vectors.md -/

/-- The check value of `TOY`. -/
theorem test_toy : toy (count 0xa0 32) 0x000102030405060708090a0b0c0d0e0f = 0x606260666062606e606260666062606e := by
  decide

/-- V-H1, V-H2. -/
theorem test_dbl_carry :
    answer (dblCommand 0 0 (beBytes 16 0xc0000000000000000000000000000001) .reset) =
      .inr (beBytes 16 0x80000000000000000000000000000085) := by decide

theorem test_dbl_no_carry :
    answer (dblCommand 0 0 (beBytes 16 0x0123456789abcdeffedcba9876543210) .reset) =
      .inr (beBytes 16 0x02468acf13579bdffdb97530eca86420) := by decide

/-- V-H3. -/
theorem test_dblinv_odd :
    answer (dblinvCommand 0 0 (beBytes 16 1) .reset) = .inr (beBytes 16 0x80000000000000000000000000000043) := by
  decide

theorem test_dblinv_even :
    answer (dblinvCommand 0 0 (beBytes 16 0x0123456789abcdeffedcba9876543210) .reset) =
      .inr (beBytes 16 0x0091a2b3c4d5e6f7ff6e5d4c3b2a1908) := by decide

/-- V-H4. -/
theorem test_xor_keeps_tail :
    answer (xorCommand 0 4 [0x01, 0x02, 0x03, 0x04, 0x05, 0xf0] .reset) = .inr [0x04, 0xf2, 0x03, 0x04] := by decide

theorem test_xor_long_source : answer (xorCommand 0 2 [1, 2, 1, 2, 3] .reset) = .inl .length := by decide

/-- V-H5. -/
theorem test_pad_middle :
    answer (padCommand 5 0 (beBytes 16 0x00112233445566778899aabbccddeeff) .reset) =
      .inr (beBytes 16 0x00112233448000000000000000000000) := by decide

theorem test_pad_last :
    answer (padCommand 15 0 (beBytes 16 0x00112233445566778899aabbccddeeff) .reset) =
      .inr (beBytes 16 0x00112233445566778899aabbccddee80) := by decide

/-- V-H6. -/
theorem test_select_second : answer (selectCommand 0 0 [0xaa, 0xbb, 0x55, 0x66] .reset) = .inr [0x55, 0x66] := by
  decide

theorem test_select_both_faults : answer (selectCommand 2 0 [0, 0, 0] .reset) = .inl .badArg := by decide

/-- V-H7. -/
theorem test_cmp_empty : answer (cmpCommand 0 0 [] .reset) = .inr [1] := by decide

theorem test_cmp_lengths : answer (cmpCommand 0 1 [1, 1, 1] .reset) = .inr [0] := by decide

/-- V-H8. -/
theorem test_equal_empty : answer (equalCommand 0 0 [] .reset) = .inr [0] := by decide

theorem test_equal_same : answer (equalCommand 0 2 [1, 2, 1, 2] .reset) = .inr [1] := by decide

/-- V-C7: the sub-keys. -/
theorem test_macInit_cmac :
    (toyMac 1).k1 = 0x9ea0a2a4a6a8aaacaeb0b2b4b6b8babc ∧ (toyMac 1).k2 = 0x3d4145494d5155595d6165696d7175ff := by
  decide

/-- V-P10: the table's last entry and `LINV`. -/
theorem test_macInit_pmac :
    (toyMac 2).lTab[30] = 0x94d5155595d6165696d7175e112647ac ∧ (toyMac 2).linv = 0x27a828a929aa2aab2bac2cad2dae2eaf := by
  decide

/-- Section 6: the master key `a0...bf` gives `KMAC = a0...af`, `KCTR = b0...bf`. -/
theorem test_sivInit :
    keyBytes .mac (toySiv 1) = count 0xa0 16 ∧ keyBytes .ctr (toySiv 1) = count 0xb0 16 := by decide

theorem test_sivInit_key_length : answer (sivInitCommand toy 1 0 (rep 48 0) .reset) = .inl .keyLength := by decide

/-- Program P4 of section 8: a 24-byte key is refused. -/
theorem test_ctrInit_key_length : answer (ctrInitCommand 0 0 (rep 24 0) .reset) = .inl .keyLength := by decide

/-- R134: the error log stays, the key goes. -/
theorem test_wipe :
    after (wipeCommand 0 0 [] { toySiv 1 with lasterr := 0x0d, esticky := 0x2000 }) =
      { State.reset with lasterr := 0x0d, esticky := 0x2000, cipherPort := (toySiv 1).cipherPort } := by
  decide

/-- V-T7: the last line. -/
theorem test_getStatus :
    answer (getStatusCommand 0 0 [] { State.reset with kctrLen := .bytes16, lasterr := 0x0a, esticky := 0x0440 }) =
      .inr [0, 0, 0x10, 0, 0, 0, 0x10, 0x0a, 0x04, 0x40, 0, 0, 0, 0] := by decide

/-- V-C7, 17 bytes. -/
theorem test_macFinish_cmac :
    answer (macFinishCommand toy 0 0 [] (after (macUpdateCommand toy 0 0 (count 0x40 17) (toyMac 1)))) =
      .inr (beBytes 16 0xa2232c2d160f10190a0b0405fef77e01) := by decide

/-- V-P10, 48 bytes. -/
theorem test_macFinish_pmac :
    answer (macFinishCommand toy 0 0 [] (after (macUpdateCommand toy 0 0 (count 0x40 48) (toyMac 2)))) =
      .inr (beBytes 16 0x56ee69e564e467f372fa7df170f0abe7) := by decide

/-- V-P12: one byte past the limit, and the last table entry at `CNT = 2^30 - 1`. -/
theorem test_macUpdate_limit :
    answer (macUpdateCommand toy 0 0 [0] { toyMac 2 with cnt := 0x7fffffff, pos := 16 }) = .inl .pmacLimit := by
  decide

/-- V-C9: an empty update leaves Fresh. -/
theorem test_macUpdate_empty : (after (macUpdateCommand toy 0 0 [] (toyMac 1))).mst = .accumulating := by decide

/-- V-C9: a finished digest takes no more bytes until the unit is reset. -/
theorem test_macReset_after_finish :
    answer (macUpdateCommand toy 0 0 [0] { toyMac 1 with mst := .finished }) = .inl .macFinished ∧
      (after (macResetCommand 0 0 [] { toyMac 1 with mst := .finished })).mst = .fresh := by decide

/-- V-T5: 20 bytes of keystream, with the counter's carry. -/
theorem test_ctrXor :
    answer (ctrXorCommand toy 0 0 (rep 20 0)
        (after (ctrSetivCommand 0 0 (beBytes 16 0x000102030405060708090a0b0c0d0eff)
          (after (ctrInitCommand 0 0 (count 0xa0 16) .reset))))) =
      .inr (beBytes 20 0x505250565052505e505250565052005e50525056) := by decide

/-- V-T7: the overflow. -/
theorem test_ctrXor_overflow :
    after (ctrXorCommand toy 0 0 [0]
        { State.reset with kctrLen := .bytes16, cst := .streaming, ctrblk := BitVec.allOnes 128 }) =
      { State.reset with kctrLen := .bytes16 } := by decide

/-- Program P4 of section 8: an IV of 15 bytes. -/
theorem test_ctrSetiv_length : answer (ctrSetivCommand 0 0 (rep 15 0) .reset) = .inl .ivLength := by decide

/-- V-V6: the tag alone. -/
theorem test_s2v :
    answer (s2vCommand toy 1 0 (frameVector [[0x10, 0x11, 0x12]] [0x11, 0x22, 0x33]) (toySiv 1)) =
      .inr (beBytes 16 0x51821e5178636a95747775bab0c02850) := by decide

/-- R211: 127 items are too many, whatever else is wrong. -/
theorem test_s2v_too_many : answer (s2vCommand toy 127 0 [] .reset) = .inl .tooManyAd := by decide

/-- V-V7, CMAC. -/
theorem test_sivSeal_cmac :
    answer (sivSealCommand toy 2 0 (frameVector [[0x10, 0x11, 0x12], count 0x20 8] (count 0x30 20)) (toySiv 1)) =
      .inr (beBytes 36 0x1f8f392cf2efb82946231bcfebe2ceb7ce766f332ef9688762580eb4210ff660be061f43) := by decide

/-- V-V7, PMAC. -/
theorem test_sivSeal_pmac :
    answer (sivSealCommand toy 2 0 (frameVector [[0x10, 0x11, 0x12], count 0x20 8] (count 0x30 20)) (toySiv 2)) =
      .inr (beBytes 36 0x6d66f50b7e76aeae9656b1bcafba8065a5324abfb5efe15795feff68f9c1a4aed5423acf) := by decide

/-- V-V6: the sealed message opens. -/
theorem test_sivOpen :
    answer (sivOpenCommand toy 1 0 (frameVector [[0x10, 0x11, 0x12]] (beBytes 19 0x51821e5178636a95747775bab0c02850e04c91))
        (toySiv 1)) = .inr [0x11, 0x22, 0x33] := by decide

/-- Program P3 of section 8: a changed body does not. -/
theorem test_sivOpen_tampered :
    answer (sivOpenCommand toy 1 0 (frameVector [[0x10, 0x11, 0x12]] (beBytes 19 0x51821e5178636a95747775bab0c02850e04d91))
        (toySiv 1)) = .inl .integrity := by decide

/-! ### The step -/

theorem test_step_runs_placed_word :
    step (State.reset.withFetchWord 64 0x1101000000000010) = exec (.macInit 1 0 (rep 16 0)) State.reset := by rfl

theorem test_step_illegal_opcode :
    step (State.reset.withFetchWord 64 0x2300000000000003) = .next (takeError 0x23 .opcode State.reset) := by rfl

theorem test_step_waits : step State.reset = .next State.reset := by rfl

/-! ### Witnesses: states and operands that meet the hypotheses of each statement -/

/-- Both keys are loaded. -/
def keyed (kind : MacKind) : State :=
  { State.reset with
    kmac := keyRegOf (count 0xa0 16), kmacLen := .bytes16, mkind := some kind, kctr := keyRegOf (count 0xb0 16)
    kctrLen := .bytes16 }

/-- The same with a stream open, and no keystream byte left. -/
def streaming (iv : Block) : State := { keyed .cmac with ctrblk := iv, cst := .streaming }

/-- The same with a command stream. -/
def fed (bytes : List Byte) : State := { keyed .cmac with cmdStream := bytes }

/-- Every command answers a next state. -/
theorem exec_answers (i : Instr) (s : State) : ∃ t, exec i s = .next t := by
  rw [exec_eq_complete]; exact complete_is_next _ _

theorem witness_DecodeInvertsEncode : (Instr.macUpdate 0 0 (rep 17 0x40)).WellFormed := by decide

theorem witness_EncodeInvertsDecode :
    decode [0x21, 0x00, 0x00, 0x00, 0x00, 0x00, 0x00, 0x01, 0x40, 0x13] = .ok (.macUpdate 0 0 [0x40], [0x13]) := by rfl

theorem witness_HeaderDecidesPacketLength :
    takePacket (rep 7 0) = none ∧ takePacket [1, 0, 0, 0, 0, 0, 0, 1] = none ∧
      takePacket [1, 0, 0, 0, 0, 0, 0, 0] = some (⟨1, 0, 0, []⟩, []) ∧
      takePacket [1, 0, 0, 0, 0, 0, 0, 1, 2, 3] = some (⟨1, 0, 0, [2]⟩, [3]) := by decide

theorem witness_OpcodeMapHasTwentyEntries :
    (0x42 : Byte) ∈ definedOpcodes ∧ (0x00 : Byte) ∉ definedOpcodes ∧ (0x08 : Byte) ∉ definedOpcodes ∧
      (0x43 : Byte) ∉ definedOpcodes := by decide

theorem witness_StepRunsDecodedCommand :
    decode (fed [0x22, 0x00, 0x00, 0x00, 0x00, 0x00, 0x00, 0x00]).cmdStream = .ok (.macFinish 0 0 [], []) := by rfl

theorem witness_StepAnswersOnePacket :
    takePacket (fed [0x22, 0x00, 0x00, 0x00, 0x00, 0x00, 0x00, 0x00]).cmdStream = some (⟨0x22, 0, 0, []⟩, []) := by decide

theorem witness_IllegalOpcodeOnlyFails :
    takePacket (fed [0x15, 0x00, 0x00, 0x00, 0x00, 0x00, 0x00, 0x01, 0xaa]).cmdStream = some (⟨0x15, 0, 0, [0xaa]⟩, []) ∧
      (0x15 : Byte) ∉ definedOpcodes := by decide

theorem witness_EngineWaitsForAWholePacket :
    takePacket (fed [0x15, 0x00, 0x00, 0x00, 0x00, 0x00, 0x00, 0x01]).cmdStream = none := by decide

/-- The bytes of a register past its last are 0, whatever the index. -/
theorem getD_zero_of_all {l : List Byte} {n : Nat} (h : ∀ i, i < l.length → n ≤ i → l.getD i 0 = 0) (i : Nat) (hi : n ≤ i) :
    l.getD i 0 = 0 := by
  by_cases hl : i < l.length
  · exact h i hl hi
  · rw [List.getD_eq_getElem?_getD, List.getElem?_eq_none (by omega)]; rfl

/-- A PMAC digest one byte long, a CTR stream and a logged error, with a command to run. -/
def busy : State :=
  { keyed .pmac with
    buf := setBlockByte 0 0 0x40, pos := 1, mst := .accumulating, ctrblk := 1, cst := .streaming, lasterr := 0x0d
    esticky := 0x2000, cmdStream := [0x21, 0, 0, 0, 0, 0, 0, 1, 0x41] }

theorem witness_StepKeepsInvariants : Inv busy ∧ ∃ t, step busy = .next t := by
  refine ⟨?_, exec_answers (.macUpdate 0 0 [0x41]) { busy with cmdStream := [] }⟩
  constructor
  case bufTail => exact getD_zero_of_all (l := blockBytes busy.buf) (n := 1) (by decide)
  case kmacTail => exact getD_zero_of_all (l := keyRegBytes busy.kmac) (n := 16) (by decide)
  case kctrTail => exact getD_zero_of_all (l := keyRegBytes busy.kctr) (n := 16) (by decide)
  all_goals decide

/-- A CMAC key is loaded with its sub-keys, and `MAC_FINISH` waits. -/
def withSubkeys : State :=
  { keyed .cmac with
    k1 := dbl (Config.E (keyBytes .mac (keyed .cmac)) 0), k2 := dbl (dbl (Config.E (keyBytes .mac (keyed .cmac)) 0))
    cmdStream := [0x22, 0, 0, 0, 0, 0, 0, 0] }

theorem witness_StepKeepsKeyConstants : KeyConstants Config.E withSubkeys ∧ ∃ t, step withSubkeys = .next t := by
  refine ⟨⟨fun _ => ⟨rfl, rfl⟩, fun h => ?_, fun h => ?_, fun h => ?_⟩,
    exec_answers (.macFinish 0 0 []) { withSubkeys with cmdStream := [] }⟩ <;> cases h

/-- Every stage, at the boundary of each: an illegal opcode, the first failing check of stage 1 where two fail, a stage 2
check, no check, no check where stage 3 raises, and `MAC_UPDATE` in the two kinds. -/
theorem witness_ChecksFollowPriorityTable :
    (0x43 : Byte) ∉ definedOpcodes ∧ (Instr.select 2 0 [0, 0, 0]).WellFormed ∧
      earlyError (.select 2 0 [0, 0, 0]) State.reset = some .badArg ∧
      earlyError (.sivOpen 126 0 (rep 504 0)) State.reset = some .truncated ∧
      earlyError (.sivOpen 127 0 []) State.reset = some .tooManyAd ∧
      earlyError (.macFinish 0 0 []) State.reset = some .noKey ∧ earlyError (.macFinish 0 0 []) (keyed .cmac) = none ∧
      earlyError (.ctrXor 0 0 [0]) (streaming (BitVec.allOnes 128)) = none ∧
      executionError (.ctrXor 0 0 [0]) (streaming (BitVec.allOnes 128)) = some .ctrOverflow ∧
      earlyError (.macUpdate 0 0 [0]) (keyed .cmac) = none ∧ executionError (.macUpdate 0 0 [0]) (keyed .cmac) = none ∧
      earlyError (.macUpdate 0 0 [0]) (keyed .pmac) = none ∧
      executionError (.macUpdate 0 0 [0]) (keyed .pmac) = some .pmacLimit := by decide

theorem witness_EarlyErrorsChangeOnlyTheLog :
    earlyError (.ctrXor 0 0 []) (keyed .cmac) = some .ctrState ∧ earlyError (.dbl 0 1 (rep 16 0)) busy = some .badArg := by
  decide

theorem witness_EveryErrorResponseIsLogged :
    takePacket busy.cmdStream = some (⟨0x21, 0, 0, [0x41]⟩, []) ∧ ∃ t, step busy = .next t :=
  ⟨by decide, exec_answers (.macUpdate 0 0 [0x41]) { busy with cmdStream := [] }⟩

theorem witness_ErrorLogIsReadByGetStatusAlone :
    (Instr.macFinish 0 0 []).WellFormed ∧ (Instr.macFinish 0 0 []).opcode ≠ 0x14 ∧
      ∃ t, exec (.macFinish 0 0 []) busy = .next t := ⟨by decide, by decide, exec_answers _ _⟩

theorem witness_OnlyResetClearsTheLog :
    (∃ t, step { busy with cmdStream := [0x13, 0, 0, 0, 0, 0, 0, 0] } = .next t) ∧ busy.esticky.getLsbD 13 = true ∧
      busy.lasterr ≠ 0 := ⟨exec_answers (.wipe 0 0 []) { busy with cmdStream := [] }, by decide, by decide⟩

theorem witness_OnlyKeyLoadsWriteKeys :
    (Instr.sivSeal 0 0 []).WellFormed ∧ (Instr.sivSeal 0 0 []).opcode ∉ [0x10#8, 0x11#8, 0x12#8, 0x13#8] ∧
      ∃ t, exec (.sivSeal 0 0 []) busy = .next t := ⟨by decide, by decide, exec_answers _ _⟩

theorem witness_HelpersTouchNoRegister :
    (∃ t, exec (.dbl 0 0 (rep 16 0x80)) busy = .next t) ∧ (∃ t, exec (.dbl 0 0 (rep 16 0x80)) State.reset = .next t) ∧
      (∃ t, exec (.getStatus 0 0 []) busy = .next t) ∧
      (Instr.dbl 0 0 (rep 16 0x80)).opcode ∈ [0x01#8, 0x02#8, 0x03#8, 0x04#8, 0x05#8, 0x06#8, 0x07#8] :=
  ⟨exec_answers _ _, exec_answers _ _, exec_answers _ _, by decide⟩

theorem witness_UnitsAreWrittenSeparately :
    (Instr.s2v 0 0 []).WellFormed ∧ (Instr.s2v 0 0 []).opcode ∈ [0x11#8, 0x20#8, 0x21#8, 0x22#8, 0x40#8] ∧
      (∃ t, exec (.s2v 0 0 []) busy = .next t) ∧ (Instr.ctrXor 0 0 [0]).opcode ∈ [0x12#8, 0x30#8, 0x31#8] ∧
      ∃ t, exec (.ctrXor 0 0 [0]) busy = .next t := ⟨by decide, by decide, exec_answers _ _, by decide, exec_answers _ _⟩

/-- `busy` with another CTR side, and with another MAC side. -/
theorem witness_UnitsAreReadSeparately :
    (∃ t, exec (.macUpdate 0 0 [1]) busy = .next t) ∧
      (∃ t, exec (.macUpdate 0 0 [1]) { busy with kctr := 5, ctrblk := 7 } = .next t) ∧
      SameMacUnit busy { busy with kctr := 5, ctrblk := 7 } ∧ (∃ t, exec (.ctrXor 0 0 [1]) busy = .next t) ∧
      (∃ t, exec (.ctrXor 0 0 [1]) { busy with kmac := 5, buf := 7 } = .next t) ∧
      SameCtrUnit busy { busy with kmac := 5, buf := 7 } :=
  ⟨exec_answers _ _, exec_answers _ _, by simp [SameMacUnit], exec_answers _ _, exec_answers _ _, by simp [SameCtrUnit]⟩

theorem witness_DblDoublesABlock :
    (rep 16 0x80).length = 16 ∧ exec (.dbl 255 0 (rep 16 0)) busy = .next (takeError 0x01 .badArg busy) ∧
      exec (.dbl 0 1 []) busy = .next (takeError 0x01 .badArg busy) ∧
      exec (.dbl 0 0 (rep 17 0)) busy = .next (takeError 0x01 .length busy) := ⟨rfl, rfl, rfl, rfl⟩

theorem witness_DblinvHalvesABlock :
    exec (.dblinv 0 0 (beBytes 16 1)) busy = .next (respond okCode 0x02 (blockBytes 0x80000000000000000000000000000043) busy) ∧
      exec (.dbl 0 0 (beBytes 16 1)) busy = .next (respond okCode 0x01 (blockBytes 2) busy) ∧
      exec (.dblinv 255 0 (rep 16 0)) busy = .next (takeError 0x02 .badArg busy) ∧
      exec (.dblinv 0 0 (rep 15 0)) busy = .next (takeError 0x02 .length busy) := ⟨rfl, rfl, rfl, rfl⟩

theorem witness_XorMixesTheSourceIn :
    exec (.xor 0 2 [1, 2, 3, 4]) busy = .next (respond okCode 0x03 [2, 6] busy) ∧
      exec (.xor 0 0 []) busy = .next (respond okCode 0x03 [] busy) ∧
      exec (.xor 0 1 []) busy = .next (takeError 0x03 .badArg busy) ∧
      exec (.xor 0 2 [1, 2, 3, 4, 5]) busy = .next (takeError 0x03 .length busy) := ⟨rfl, rfl, rfl, rfl⟩

theorem witness_PadWritesTheMarker :
    (15 : Byte).toNat ≤ 15 ∧ (rep 16 7).length = 16 ∧
      exec (.pad 16 0 (rep 16 7)) busy = .next (takeError 0x04 .badArg busy) ∧
      exec (.pad 15 0 (rep 15 7)) busy = .next (takeError 0x04 .length busy) := ⟨by decide, rfl, rfl, rfl⟩

theorem witness_SelectPicksAHalf :
    exec (.select 1 0 [1, 2]) busy = .next (respond okCode 0x05 [1] busy) ∧
      exec (.select 0 0 [1, 2]) busy = .next (respond okCode 0x05 [2] busy) ∧
      exec (.select 2 0 [1, 2]) busy = .next (takeError 0x05 .badArg busy) ∧
      exec (.select 1 0 [1]) busy = .next (takeError 0x05 .length busy) := ⟨rfl, rfl, rfl, rfl⟩

theorem witness_CmpAndEqualCompareStrings :
    exec (.cmp 0 0 []) busy = .next (respond okCode 0x06 [1] busy) ∧
      exec (.equal 0 0 []) busy = .next (respond okCode 0x07 [0] busy) ∧
      exec (.cmp 0 1 []) busy = .next (takeError 0x06 .badArg busy) ∧
      exec (.equal 1 0 []) busy = .next (takeError 0x07 .badArg busy) := ⟨rfl, rfl, rfl, rfl⟩

theorem witness_SivInitLoadsBothHalves :
    (count 0xa0 32).length = 32 ∧ (count 0xa0 64).length = 64 ∧
      exec (.sivInit 0 0 (count 0xa0 32)) busy = .next (takeError 0x10 .badArg busy) ∧
      exec (.sivInit 3 0 (count 0xa0 32)) busy = .next (takeError 0x10 .badArg busy) ∧
      exec (.sivInit 2 0 (count 0xa0 33)) busy = .next (takeError 0x10 .keyLength busy) := ⟨rfl, rfl, rfl, rfl, rfl⟩

theorem witness_MacInitBuildsCmacSubkeys :
    (count 0xa0 16).length = 16 ∧ (count 0xa0 32).length = 32 ∧
      exec (.macInit 3 0 (count 0xa0 16)) busy = .next (takeError 0x11 .badArg busy) ∧
      exec (.macInit 1 1 (count 0xa0 16)) busy = .next (takeError 0x11 .badArg busy) ∧
      exec (.macInit 2 0 (count 0xa0 31)) busy = .next (takeError 0x11 .keyLength busy) := ⟨rfl, rfl, rfl, rfl, rfl⟩

theorem witness_MacInitBuildsPmacTable : (count 0xa0 16).length = 16 ∧ (count 0xa0 32).length = 32 := ⟨rfl, rfl⟩

theorem witness_CtrInitLoadsTheKey :
    (count 0xa0 32).length = 32 ∧ exec (.ctrInit 1 0 (count 0xa0 16)) busy = .next (takeError 0x12 .badArg busy) ∧
      exec (.ctrInit 0 0 (count 0xa0 17)) busy = .next (takeError 0x12 .keyLength busy) := ⟨rfl, rfl, rfl⟩

theorem witness_WipeKeepsOnlyTheLog :
    exec (.wipe 0 1 []) busy = .next (takeError 0x13 .badArg busy) ∧
      exec (.wipe 0 0 [0]) busy = .next (takeError 0x13 .length busy) := ⟨rfl, rfl⟩

theorem witness_GetStatusReadsTheStatusBlock :
    exec (.getStatus 1 0 []) busy = .next (takeError 0x14 .badArg busy) ∧
      exec (.getStatus 0 0 [0]) busy = .next (takeError 0x14 .length busy) := ⟨rfl, rfl⟩

theorem witness_MacResetEmptiesTheUnit :
    busy.mkind ≠ none ∧ exec (.macReset 1 0 []) busy = .next (takeError 0x20 .badArg busy) ∧
      exec (.macReset 0 0 [0]) busy = .next (takeError 0x20 .length busy) ∧
      exec (.macReset 0 0 []) State.reset = .next (takeError 0x20 .noKey State.reset) := ⟨by decide, rfl, rfl, rfl⟩

/-- A CMAC unit with room for one byte, and a full one. -/
theorem witness_CmacUpdateFeedsBytes :
    (∀ p : Fin 17, { keyed .cmac with pos := p }.mkind = some .cmac ∧ { keyed .cmac with pos := p }.mst ≠ .finished) ∧
      { keyed .cmac with pos := 15 }.pos.val < 16 ∧ { keyed .cmac with pos := 16 }.pos = 16 ∧
      ∃ t u, exec (.macUpdate 0 0 [1]) { keyed .cmac with pos := 16 } = .next t ∧ exec (.macUpdate 0 0 [2]) t = .next u := by
  refine ⟨by decide, by decide, by decide, ?_⟩
  obtain ⟨t, h⟩ := exec_answers (.macUpdate 0 0 [1]) { keyed .cmac with pos := 16 }
  obtain ⟨u, h'⟩ := exec_answers (.macUpdate 0 0 [2]) t
  exact ⟨t, u, h, h'⟩

/-- The last table entry at `CNT = 2^30 - 1`, the limit at `CNT = 2^31 - 1`. -/
theorem witness_PmacUpdateFeedsBytes :
    (keyed .pmac).mkind = some .pmac ∧ (keyed .pmac).mst ≠ .finished ∧
      (2 ^ 30 ∣ (0x3fffffff : BitVec 32).toNat + 1 ∧ ¬2 ^ 31 ∣ (0x3fffffff : BitVec 32).toNat + 1) ∧
      (2 ^ 31 ∣ (0x7fffffff : BitVec 32).toNat + 1 ∧ ¬2 ^ 32 ∣ (0x7fffffff : BitVec 32).toNat + 1) ∧
      (∃ t, exec (.macUpdate 0 0 []) (keyed .pmac) = .next t ∧ t.mst = .accumulating ∧
        ∃ u, exec (.macUpdate 0 0 [1]) t = .next u) ∧
      ∃ t, exec (.macUpdate 0 0 [1]) { keyed .pmac with cnt := 0x7fffffff, pos := 16 } = .next t ∧ t.mst = .finished := by
  refine ⟨by decide, by decide, by decide, by decide, ⟨_, rfl, rfl, exec_answers _ _⟩, ?_⟩
  refine ⟨takeError 0x21 .pmacLimit { keyed .pmac with mst := .finished }, ?_, rfl⟩
  have e : pmacBlock Config.E { keyed .pmac with cnt := 0x7fffffff, pos := 16 } =
      .raise .pmacLimit { keyed .pmac with mst := .finished } := pmacBlock_limit Config.E (by decide)
  show complete 0x21 (andThen (macUpdate Config.E .pmac [1] { keyed .pmac with cnt := 0x7fffffff, pos := 16 })
    fun _ s => .ok [] s) = _
  rw [macUpdate, pmacUpdate, pmacAbsorbAll_cons, pmacMakeRoom, if_pos rfl, e]
  rfl

theorem witness_CmacFinishAnswersTheTag :
    (keyed .cmac).mkind = some .cmac ∧ (keyed .cmac).mst ≠ .finished ∧
      exec (.macFinish 0 1 []) (keyed .cmac) = .next (takeError 0x22 .badArg (keyed .cmac)) ∧
      exec (.macFinish 0 0 [0]) (keyed .cmac) = .next (takeError 0x22 .length (keyed .cmac)) ∧
      exec (.macFinish 0 0 []) State.reset = .next (takeError 0x22 .noKey State.reset) ∧
      exec (.macFinish 0 0 []) { keyed .cmac with mst := .finished } =
        .next (takeError 0x22 .macFinished { keyed .cmac with mst := .finished }) := ⟨rfl, by decide, rfl, rfl, rfl, rfl⟩

theorem witness_PmacFinishAnswersTheTag :
    (keyed .pmac).mkind = some .pmac ∧ (keyed .pmac).mst ≠ .finished ∧
      exec (.macFinish 0 1 []) (keyed .pmac) = .next (takeError 0x22 .badArg (keyed .pmac)) ∧
      exec (.macFinish 0 0 [0]) (keyed .pmac) = .next (takeError 0x22 .length (keyed .pmac)) ∧
      exec (.macFinish 0 0 []) State.reset = .next (takeError 0x22 .noKey State.reset) ∧
      exec (.macFinish 0 0 []) { keyed .pmac with mst := .finished } =
        .next (takeError 0x22 .macFinished { keyed .pmac with mst := .finished }) := ⟨rfl, by decide, rfl, rfl, rfl, rfl⟩

theorem witness_CmacDigestIsTheClosedForm : (keyed .cmac).mkind = some .cmac := rfl

theorem witness_PmacDigestIsTheClosedForm :
    (keyed .pmac).mkind = some .pmac ∧ [rep 1 0x40, rep 16 0x41].flatten.length ≤ 2 ^ 35 := ⟨rfl, by decide⟩

/-- `CNT = 2^31 - 1` and a full buffer: no byte more fits, and none is needed. -/
theorem witness_PmacLimitAbandonsTheDigest :
    (keyed .pmac).mkind = some .pmac ∧ (keyed .pmac).mst ≠ .finished ∧ (0x7fffffff : BitVec 32).toNat ≤ 2 ^ 31 - 1 ∧
      16 * (0x7fffffff : BitVec 32).toNat + (16 : Fin 17).val + ([] : List Byte).length ≤ 2 ^ 35 ∧
      2 ^ 35 < 16 * (0x7fffffff : BitVec 32).toNat + (16 : Fin 17).val + [(0 : Byte)].length := by decide

theorem witness_MacStateTransitions :
    (∃ t, exec (.macFinish 0 0 []) State.reset = .next t) ∧ earlyError (.macFinish 0 0 []) State.reset ≠ none ∧
      (∃ t, exec (.macFinish 0 0 []) busy = .next t) ∧ earlyError (.macFinish 0 0 []) busy = none ∧
      earlyError (.sivSeal 0 0 []) busy = none ∧ earlyError (.macUpdate 0 0 [1]) busy = none ∧
      earlyError (.ctrXor 0 0 [1]) busy = none :=
  ⟨exec_answers _ _, by decide, exec_answers _ _, by decide, by decide, by decide, by decide⟩

theorem witness_CtrStateTransitions :
    (∃ t, exec (.ctrXor 0 0 []) State.reset = .next t) ∧ earlyError (.ctrXor 0 0 []) State.reset ≠ none ∧
      (∃ t, exec (.ctrXor 0 0 [1]) busy = .next t) ∧ earlyError (.ctrXor 0 0 [1]) busy = none ∧
      earlyError (.ctrSetiv 0 0 (rep 16 0)) busy = none ∧ earlyError (.sivSeal 0 0 []) busy = none ∧
      earlyError (.macReset 0 0 []) busy = none :=
  ⟨exec_answers _ _, by decide, exec_answers _ _, by decide, by decide, by decide, by decide⟩

theorem witness_CtrSetivStartsAStream :
    (rep 16 0xff).length = 16 ∧ busy.kctrLen ≠ .noKey ∧
      exec (.ctrSetiv 1 0 (rep 16 0)) busy = .next (takeError 0x30 .badArg busy) ∧
      exec (.ctrSetiv 0 0 (rep 17 0)) busy = .next (takeError 0x30 .ivLength busy) ∧
      exec (.ctrSetiv 0 0 (rep 16 0)) State.reset = .next (takeError 0x30 .noKey State.reset) :=
  ⟨rfl, by decide, rfl, rfl, rfl⟩

/-- Keystream left, none left, none left at all-`ff`; two pieces that both end, the second or the first of them overflowing. -/
theorem witness_CtrXorUsesTheNextKeystreamByte :
    (∀ iv, (streaming iv).kctrLen ≠ .noKey ∧ (streaming iv).cst = .streaming ∧ (streaming iv).kpos = 16) ∧
      { streaming 0 with kpos := 15 }.kpos.val < 16 ∧ (streaming (BitVec.allOnes 128 - 1)).ctrblk ≠ BitVec.allOnes 128 ∧
      (∃ t u, exec (.ctrXor 0 0 []) (streaming 0) = .next t ∧ t.cst = .streaming ∧ exec (.ctrXor 0 0 []) t = .next u ∧
        u.cst = .streaming) ∧
      (∃ t u, exec (.ctrXor 0 0 []) (streaming (BitVec.allOnes 128)) = .next t ∧ t.cst = .streaming ∧
        exec (.ctrXor 0 0 [0]) t = .next u ∧ u.cst = .idle) ∧
      ∃ t, exec (.ctrXor 0 0 [0]) (streaming (BitVec.allOnes 128)) = .next t ∧ t.cst = .idle :=
  ⟨fun _ => ⟨(by decide : KeyLen.bytes16 ≠ .noKey), rfl, rfl⟩, by decide, by decide, ⟨_, _, rfl, rfl, rfl, rfl⟩, ⟨_, _, rfl, rfl, rfl, rfl⟩,
    ⟨_, rfl, rfl⟩⟩

/-- The last stream that does not overflow: one block from `2^128 - 2`. -/
theorem witness_CtrStreamIsTheKeystream :
    (keyed .cmac).kctrLen ≠ .noKey ∧
      (BitVec.allOnes 128 - 1).toNat + ([rep 15 0].flatten.length + [(0 : Byte)].length + 15) / 16 ≤ 2 ^ 128 - 1 := by
  decide

/-- One block to come: 16 bytes are processed, 17 overflow. -/
theorem witness_CtrOverflowKillsTheStream :
    (streaming (BitVec.allOnes 128 - 1)).kctrLen ≠ .noKey ∧ (streaming (BitVec.allOnes 128 - 1)).cst = .streaming ∧
      (rep 16 0).length ≤ 16 - (16 : Fin 17).val + 16 * (2 ^ 128 - 1 - (BitVec.allOnes 128 - 1).toNat) ∧
      16 - (16 : Fin 17).val + 16 * (2 ^ 128 - 1 - (BitVec.allOnes 128 - 1).toNat) < (rep 17 0).length := by decide

/-- The last number of items that fits and the first that does not; a payload that is a framing, and one that is none. -/
theorem witness_FramedVectorParses :
    (126 : Byte).toNat ≤ 126 ∧ 126 < (127 : Byte).toNat ∧ [0, 0, 0, 1, 0xaa, 0xbb] = frameVector [[(0xaa : Byte)]] [0xbb] ∧
      ∀ items final, ¬(items.length = (1 : Byte).toNat ∧ (∀ item ∈ items, item.length < 2 ^ 32) ∧
        [(0 : Byte), 0, 0] = frameVector items final) := by
  refine ⟨by decide, by decide, by decide, ?_⟩
  rintro (_ | ⟨item, items⟩) final ⟨h, -, hf⟩
  · exact absurd h (by decide)
  · have := congrArg List.length hf
    rw [frameVector_cons] at this
    simp at this
    omega

theorem witness_S2vAnswersTheVectorTag :
    VectorFits (List.replicate 126 [0xaa]) (rep 16 1) ∧ VectorFits [] [] ∧ (keyed .pmac).mkind = some .pmac := by
  refine ⟨⟨?_, ?_⟩, ⟨?_, ?_⟩, rfl⟩ <;> decide

theorem witness_SealAnswersTagAndCiphertext :
    VectorFits [[0x10, 0x11, 0x12]] (rep 17 1) ∧ (rep 17 1).length ≤ 2 ^ 32 - 17 ∧ (keyed .cmac).mkind = some .cmac ∧
      (keyed .cmac).kctrLen ≠ .noKey := by
  refine ⟨⟨?_, ?_⟩, ?_, rfl, ?_⟩ <;> decide

/-- For any tag but the one of the empty plaintext the second clause applies; for that one the first does. -/
theorem witness_OpenReleasesVerifiedPlaintextOnly :
    ∃ tag : Block, VectorFits [] (blockBytes tag ++ []) ∧ VectorFits [] (blockBytes (tag ^^^ 1) ++ []) ∧
      (keyed .cmac).mkind = some .cmac ∧ (keyed .cmac).kctrLen ≠ .noKey ∧
      s2vTag (macTag Config.E .cmac (keyed .cmac)) []
        (ctrStream Config.E (keyBytes .ctr (keyed .cmac)) (sivIv tag) 0 []) = tag ∧
      s2vTag (macTag Config.E .cmac (keyed .cmac)) []
        (ctrStream Config.E (keyBytes .ctr (keyed .cmac)) (sivIv (tag ^^^ 1)) 0 []) ≠ tag ^^^ 1 := by
  refine ⟨s2vTag (macTag Config.E .cmac (keyed .cmac)) [] [], ⟨by decide, by simp [frameVector]⟩,
    ⟨by decide, by simp [frameVector]⟩, rfl, by decide, rfl, ?_⟩
  rw [ctrStream]
  generalize s2vTag (macTag Config.E .cmac (keyed .cmac)) [] [] = v
  intro h
  have : (v ^^^ v) = v ^^^ (v ^^^ 1) := congrArg (v ^^^ ·) h
  rw [← BitVec.xor_assoc, BitVec.xor_self, BitVec.zero_xor] at this
  exact absurd this (by decide)

theorem witness_OpenInvertsSeal :
    ([[0x10, 0x11, 0x12], []] : List (List Byte)).length ≤ 126 ∧
      (frameVector [[0x10, 0x11, 0x12], []] (rep 33 1)).length + 16 < 2 ^ 32 ∧ (keyed .pmac).mkind ≠ none ∧
      (keyed .pmac).kctrLen ≠ .noKey := by decide

theorem witness_SivCommandsLeaveNoTrace :
    (Instr.sivSeal 0 0 [1]).WellFormed ∧ (Instr.sivSeal 0 0 [1]).opcode = 0x41 ∧ earlyError (.sivSeal 0 0 [1]) busy = none ∧
      (∃ t, exec (.sivSeal 0 0 [1]) busy = .next t) ∧ (Instr.sivOpen 0 0 (rep 17 1)).opcode = 0x42 ∧
      earlyError (.sivOpen 0 0 (rep 17 1)) busy = none ∧ ∃ t, exec (.sivOpen 0 0 (rep 17 1)) busy = .next t :=
  ⟨by decide, rfl, by decide, exec_answers _ _, rfl, by decide, exec_answers _ _⟩

/-- Two plaintexts of one length under different keys. -/
theorem witness_SecretsDoNotSteerExecution :
    SameShape (.sivSeal 0 0 [1]) (.sivSeal 0 0 [2]) ∧ SameControl busy { busy with kmac := 5, kctr := 7, buf := 9 } ∧
      (∃ t, exec (.sivSeal 0 0 [1]) busy = .next t) ∧
      ∃ t, exec (.sivSeal 0 0 [2]) { busy with kmac := 5, kctr := 7, buf := 9 } = .next t :=
  ⟨⟨rfl, rfl, rfl, rfl, fun _ => rfl⟩, by simp [SameControl], exec_answers _ _, exec_answers _ _⟩

theorem witness_RepeatedCommandsRepeat :
    (Instr.ctrSetiv 0 0 (rep 16 1)).WellFormed ∧ (Instr.ctrSetiv 0 0 (rep 16 1)).opcode ∉ [0x21#8, 0x22#8, 0x31#8] ∧
      ∃ t u, exec (.ctrSetiv 0 0 (rep 16 1)) busy = .next t ∧ exec (.ctrSetiv 0 0 (rep 16 1)) t = .next u := by
  refine ⟨by decide, by decide, ?_⟩
  obtain ⟨t, h⟩ := exec_answers (.ctrSetiv 0 0 (rep 16 1)) busy
  obtain ⟨u, h'⟩ := exec_answers (.ctrSetiv 0 0 (rep 16 1)) t
  exact ⟨t, u, h, h'⟩

end Sys2Proof.Tests
end

section
/-! PROOFS. The step and the decoder (00_scope.md R9, 20_memory.md R51, 30_encoding.md R72, R73). -/

namespace Sys2Proof

/-- A stream decodes exactly when a whole packet stands at its head and the packet's opcode byte is in the map; the rest
of the stream is what the framing leaves (R72, R73). -/
theorem decode_eq_ok_iff {bytes rest : List Byte} {i : Instr} :
    decode bytes = .ok (i, rest) ↔ ∃ k, takePacket bytes = some (k, rest) ∧ decodePacket k = .ok i := by
  constructor
  · intro h
    unfold decode at h
    split at h
    case h_1 => cases h
    case h_2 k tail htake =>
      split at h
      case h_1 hpacket =>
        cases h
        exact ⟨k, htake, hpacket⟩
      case h_2 => cases h
  · rintro ⟨k, htake, hpacket⟩
    simp only [decode, htake, hpacket]

namespace Machine

/-- With a whole packet at the head of the stream, the step is the run of that packet on the shortened stream. -/
theorem step_of_takePacket {s : State} {k : Packet} {rest : List Byte} (h : takePacket s.cmdStream = some (k, rest)) :
    step s = runPacket k { s with cmdStream := rest } := by
  obtain ⟨hnone, -⟩ | ⟨k', rest', hsome, hstep⟩ := step_cases s
  · cases hnone.symm.trans h
  · cases hsome.symm.trans h
    exact hstep

/-- A packet whose opcode byte is in the map runs as its command. -/
theorem runPacket_of_decodePacket_ok {k : Packet} {i : Instr} (h : decodePacket k = .ok i) (s : State) :
    runPacket k s = exec i s := by
  simp only [runPacket, h]

/-- Settles O6: the decoder and the step take the same packet off the stream, and the packet runs as its command. -/
theorem stepRunsDecodedCommand : Obligations.StepRunsDecodedCommand := by
  intro s i rest hdecode
  obtain ⟨k, htake, hpacket⟩ := decode_eq_ok_iff.mp hdecode
  calc step s = runPacket k { s with cmdStream := rest } := step_of_takePacket htake
    _ = exec i { s with cmdStream := rest } := runPacket_of_decodePacket_ok hpacket _

end Machine

end Sys2Proof
end

section
/-! PROOFS. One response packet per packet (20_memory.md R51, R53; 30_encoding.md R71). -/

namespace Sys2Proof.Machine

/-! ### How a command ends: its status, its response payload, the state behind the response -/

/-- The status code a command answers (R71, R241). -/
def statusOf : Proc (List Byte) → Byte
  | .ok _ _ => okCode
  | .raise e _ => errCode e

/-- The response payload a command answers: none with an error (R71, R250). -/
def payloadOf : Proc (List Byte) → List Byte
  | .ok out _ => out
  | .raise _ _ => []

/-- The state a command leaves, its error logged, before the response goes out (R245). -/
def finalState : Proc (List Byte) → State
  | .ok _ t => t
  | .raise e t => logError e t

/-- Both ends of a command are one response packet over the state it leaves (R71, R250). -/
theorem complete_eq_respond (op : Byte) (p : Proc (List Byte)) :
    complete op p = .next (respond (statusOf p) op (payloadOf p) (finalState p)) := by
  cases p with
  | ok out t => rfl
  | raise e t => rfl

theorem errCode_le_14 (e : Err) : (errCode e).toNat ≤ 14 := by cases e <;> decide

theorem statusOf_le_14 (p : Proc (List Byte)) : (statusOf p).toNat ≤ 14 := by
  cases p with
  | ok out t => exact Nat.zero_le 14
  | raise e t => exact errCode_le_14 e

/-- Only `OK` comes with a response payload (R71, R250). -/
theorem payloadOf_eq_nil {p : Proc (List Byte)} (h : statusOf p ≠ 0) : payloadOf p = [] := by
  cases p with
  | ok out t => exact absurd rfl h
  | raise e t => rfl

/-! ### Every command keeps the two streams and answers a payload whose length fits in `RLEN` -/

/-- What the body of a command owes the packet it answers: the streams as they were, and a payload that fits. -/
structure AnswersFrom (s : State) (p : Proc (List Byte)) : Prop where
  cmdStream : (finalState p).cmdStream = s.cmdStream
  respStream : (finalState p).respStream = s.respStream
  payload : (payloadOf p).length < 2 ^ 32

namespace AnswersFrom

theorem ok {s t : State} {out : List Byte} (hc : t.cmdStream = s.cmdStream) (hr : t.respStream = s.respStream)
    (hlen : out.length < 2 ^ 32) : AnswersFrom s (.ok out t) := ⟨hc, hr, hlen⟩

theorem raise {s t : State} {e : Err} (hc : t.cmdStream = s.cmdStream) (hr : t.respStream = s.respStream) :
    AnswersFrom s (.raise e t) := ⟨hc, hr, Nat.two_pow_pos 32⟩

/-- A check that fails raises its error in the state it found (R244). -/
theorem check {s : State} {c : Prop} [Decidable c] {e : Err} {p : Proc (List Byte)} (h : ¬c → AnswersFrom s p) :
    AnswersFrom s (if c then .raise e s else p) := by
  split
  case isTrue => exact raise rfl rfl
  case isFalse hc => exact h hc

/-- An answer of one block. -/
theorem ok_block {s t : State} (b : Block) (hc : t.cmdStream = s.cmdStream) (hr : t.respStream = s.respStream) :
    AnswersFrom s (.ok (blockBytes b) t) := ok hc hr (by rw [blockBytes_length]; decide)

end AnswersFrom

theorem xorBytes_length (ds xs : List Byte) : (xorBytes ds xs).length = ds.length := by
  induction ds generalizing xs with
  | nil => rfl
  | cons d ds ih =>
    cases xs with
    | nil => rfl
    | cons x xs => rw [xorBytes, List.length_cons, List.length_cons, ih]

theorem selectBytes_length_le (bit : Byte) (as bs : List Byte) : (selectBytes bit as bs).length ≤ as.length := by
  induction as generalizing bs with
  | nil => exact Nat.le_refl 0
  | cons a as ih =>
    cases bs with
    | nil => exact Nat.zero_le _
    | cons b bs => exact Nat.succ_le_succ (ih bs)

@[simp] theorem statusBlock_length (s : State) : (statusBlock s).length = 14 := by simp [statusBlock]

/-- The item and final string of a framed vector in a packet are each shorter than `2^32` bytes (R13, R75). -/
theorem parseVector_lengths {nad : Byte} {payload final : List Byte} {items : List (List Byte)}
    (hlen : payload.length < 2 ^ 32) (h : parseVector nad payload = .ok (items, final)) :
    final.length < 2 ^ 32 ∧ ∀ item ∈ items, item.length < 2 ^ 32 := by
  unfold parseVector at h
  split at h
  case isTrue => cases h
  case isFalse =>
    split at h
    case h_1 r hitems =>
      cases h
      obtain ⟨hframe, -⟩ := frameVector_parseItems hitems
      exact item_length_lt (hframe ▸ hlen)
    case h_2 => cases h

/-- A sealed message is its tag block and its body (R218). -/
theorem tag_append_body {c : List Byte} (h : ¬c.length < 16) : blockBytes (blockOf (c.take 16)) ++ c.drop 16 = c := by
  rw [blockBytes_blockOf (by rw [List.length_take]; omega), List.take_append_drop]

theorem macLoad_streams (E : Cipher) (kind : MacKind) (key : List Byte) (s : State) :
    (macLoad E kind key s).cmdStream = s.cmdStream ∧ (macLoad E kind key s).respStream = s.respStream := by
  cases kind with
  | cmac => exact ⟨rfl, rfl⟩
  | pmac => exact ⟨rfl, rfl⟩

theorem macUpdateCommand_answersFrom (E : Cipher) (a : Byte) (b : Half) (payload : List Byte) (s : State) :
    AnswersFrom s (macUpdateCommand E a b payload s) := by
  refine .check fun _ => ?_
  split
  case h_1 => exact .raise rfl rfl
  case h_2 kind _ =>
    refine .check fun _ => ?_
    cases kind with
    | cmac =>
      obtain ⟨chain, buf, pos, reqs, e⟩ := cmacAbsorbAll_cases E payload s
      rw [macUpdate, cmacUpdate, e, andThen_ok]
      exact .ok rfl rfl (by decide)
    | pmac =>
      rw [macUpdate, pmacUpdate]
      obtain ⟨buf, pos, offset, tag, cnt, reqs, e⟩ | ⟨reqs, e⟩ := pmacAbsorbAll_cases E payload s
      · rw [e, andThen_ok, andThen_ok]
        exact .ok rfl rfl (by decide)
      · rw [e, andThen_raise, andThen_raise]
        exact .raise rfl rfl

theorem macFinishCommand_answersFrom (E : Cipher) (a : Byte) (b : Half) (payload : List Byte) (s : State) :
    AnswersFrom s (macFinishCommand E a b payload s) := by
  refine .check fun _ => .check fun _ => ?_
  split
  case h_1 => exact .raise rfl rfl
  case h_2 kind _ =>
    refine .check fun _ => ?_
    cases kind with
    | cmac => exact .ok_block _ rfl rfl
    | pmac => exact .ok_block _ rfl rfl

theorem ctrXorCommand_answersFrom (E : Cipher) (a : Byte) (b : Half) {payload : List Byte} (s : State)
    (hlen : payload.length < 2 ^ 32) : AnswersFrom s (ctrXorCommand E a b payload s) := by
  refine .check fun _ => .check fun _ => .check fun _ => ?_
  obtain ⟨out, ctrblk, ks, kpos, reqs, e, hout⟩ | ⟨reqs, e⟩ := ctrXor_cases E payload s
  · rw [e]
    exact .ok rfl rfl (hout ▸ hlen)
  · rw [e]
    exact .raise rfl rfl

theorem sivInitCommand_answersFrom (E : Cipher) (a : Byte) (b : Half) (payload : List Byte) (s : State) :
    AnswersFrom s (sivInitCommand E a b payload s) := by
  refine .check fun _ => ?_
  split
  case h_1 => exact .raise rfl rfl
  case h_2 kind _ =>
    obtain ⟨hc, hr⟩ := macLoad_streams E kind (splitKey payload).1 s
    exact .check fun _ => .ok hc hr (by decide)

theorem macInitCommand_answersFrom (E : Cipher) (a : Byte) (b : Half) (payload : List Byte) (s : State) :
    AnswersFrom s (macInitCommand E a b payload s) := by
  refine .check fun _ => ?_
  split
  case h_1 => exact .raise rfl rfl
  case h_2 kind _ =>
    obtain ⟨hc, hr⟩ := macLoad_streams E kind payload s
    exact .check fun _ => .ok hc hr (by decide)

theorem macResetCommand_answersFrom (a : Byte) (b : Half) (payload : List Byte) (s : State) :
    AnswersFrom s (macResetCommand a b payload s) := by
  refine .check fun _ => .check fun _ => ?_
  split
  case h_1 => exact .raise rfl rfl
  case h_2 => exact .ok rfl rfl (by decide)

theorem s2vCommand_answersFrom (E : Cipher) (nad : Byte) (b : Half) {payload : List Byte} (s : State)
    (hlen : payload.length < 2 ^ 32) : AnswersFrom s (s2vCommand E nad b payload s) := by
  refine .check fun _ => ?_
  split
  case h_1 => exact .raise rfl rfl
  case h_2 items p hparse =>
    obtain ⟨hp, hitems⟩ := parseVector_lengths hlen hparse
    split
    case h_1 => exact .raise rfl rfl
    case h_2 kind _ =>
      obtain ⟨reqs, e, -⟩ := s2vBody_eq E kind items p s hitems hp
      rw [e]
      exact .ok_block _ rfl rfl

theorem sivSealCommand_answersFrom (E : Cipher) (nad : Byte) (b : Half) {payload : List Byte} (s : State)
    (hlen : payload.length < 2 ^ 32) : AnswersFrom s (sivSealCommand E nad b payload s) := by
  refine .check fun _ => ?_
  split
  case h_1 => exact .raise rfl rfl
  case h_2 items p hparse =>
    obtain ⟨hp, hitems⟩ := parseVector_lengths hlen hparse
    refine .check fun hroom => ?_
    split
    case h_1 => exact .raise rfl rfl
    case h_2 kind _ =>
      obtain ⟨reqs, e, -⟩ := sealBody_eq E kind items p s hitems hp
      refine .check fun _ => ?_
      rw [e]
      refine .ok rfl rfl ?_
      rw [List.length_append, blockBytes_length, ctrStream_length]
      unfold maxSealPlaintext at hroom
      omega

theorem sivOpenCommand_answersFrom (E : Cipher) (nad : Byte) (b : Half) {payload : List Byte} (s : State)
    (hlen : payload.length < 2 ^ 32) : AnswersFrom s (sivOpenCommand E nad b payload s) := by
  refine .check fun _ => ?_
  split
  case h_1 => exact .raise rfl rfl
  case h_2 items c hparse =>
    obtain ⟨hc, hitems⟩ := parseVector_lengths hlen hparse
    refine .check fun hlong => ?_
    split
    case h_1 => exact .raise rfl rfl
    case h_2 kind _ =>
      have hbody : (c.drop 16).length < 2 ^ 32 := by rw [List.length_drop]; omega
      obtain ⟨reqs, e, -⟩ := openBody_eq E kind items (blockOf (c.take 16)) (c.drop 16) s hitems hbody
      rw [tag_append_body hlong] at e
      refine .check fun _ => ?_
      rw [e]
      split
      case isTrue => exact .ok rfl rfl (by rwa [ctrStream_length])
      case isFalse => exact .raise rfl rfl

/-- Every command keeps the two streams, and its response payload fits in `RLEN` (R53, R71). -/
theorem commandOf_answersFrom (E : Cipher) {i : Instr} (s : State) (hlen : i.WellFormed) :
    AnswersFrom s (commandOf E i s) := by
  cases i with
  | dbl a b payload => exact .check fun _ => .check fun _ => .ok_block _ rfl rfl
  | dblinv a b payload => exact .check fun _ => .check fun _ => .ok_block _ rfl rfl
  | xor a n payload =>
    refine .check fun _ => .check fun _ => .check fun _ => .ok rfl rfl ?_
    rw [xorBytes_length]
    exact Nat.lt_of_le_of_lt (List.length_take_le' _ _) hlen
  | pad pos b payload => exact .check fun _ => .check fun _ => .check fun _ => .ok_block _ rfl rfl
  | select bit b payload =>
    refine .check fun _ => .check fun _ => .check fun _ => .ok rfl rfl ?_
    calc _ ≤ (payload.take (payload.length / 2)).length := selectBytes_length_le _ _ _
      _ ≤ payload.length := List.length_take_le' _ _
      _ < 2 ^ 32 := hlen
  | cmp a n payload => exact .check fun _ => .check fun _ => .ok rfl rfl (Nat.one_lt_two_pow (by decide))
  | equal a n payload => exact .check fun _ => .check fun _ => .ok rfl rfl (Nat.one_lt_two_pow (by decide))
  | sivInit kind b payload => exact sivInitCommand_answersFrom E kind b payload s
  | macInit kind b payload => exact macInitCommand_answersFrom E kind b payload s
  | ctrInit a b payload => exact .check fun _ => .check fun _ => .ok rfl rfl (by decide)
  | wipe a b payload => exact .check fun _ => .check fun _ => .ok rfl rfl (by decide)
  | getStatus a b payload =>
    exact .check fun _ => .check fun _ => .ok rfl rfl (by rw [statusBlock_length]; decide)
  | macReset a b payload => exact macResetCommand_answersFrom a b payload s
  | macUpdate a b payload => exact macUpdateCommand_answersFrom E a b payload s
  | macFinish a b payload => exact macFinishCommand_answersFrom E a b payload s
  | ctrSetiv a b payload => exact .check fun _ => .check fun _ => .check fun _ => .ok rfl rfl (by decide)
  | ctrXor a b payload => exact ctrXorCommand_answersFrom E a b s hlen
  | s2v nad b payload => exact s2vCommand_answersFrom E nad b s hlen
  | sivSeal nad b payload => exact sivSealCommand_answersFrom E nad b s hlen
  | sivOpen nad b payload => exact sivOpenCommand_answersFrom E nad b s hlen

/-- The run of a packet completes a body that answers it: the command's, or the refusal of an opcode outside the map
(R71, R76). -/
theorem runPacket_eq_complete {k : Packet} (s : State) (hlen : k.payload.length < 2 ^ 32) :
    ∃ p, runPacket k s = complete k.op p ∧ AnswersFrom s p := by
  cases hpacket : decodePacket k with
  | ok i =>
    obtain ⟨hop, -, -, hpayload⟩ := decodePacket_ok hpacket
    refine ⟨commandOf Config.E i s, ?_, commandOf_answersFrom _ s (by rwa [Instr.WellFormed, hpayload])⟩
    rw [runPacket_of_decodePacket_ok hpacket, exec_eq_complete, hop]
  | error e => exact ⟨.raise .opcode s, by simp only [runPacket, hpacket, complete_raise], .raise rfl rfl⟩

/-- Settles O7: the run of the packet completes a body that keeps the streams, and completing it is one response. -/
theorem stepAnswersOnePacket : Obligations.StepAnswersOnePacket := by
  intro s k rest htake
  obtain ⟨hlen, -⟩ := takePacket_some htake
  obtain ⟨p, hrun, hcmd, hresp, hpayload⟩ := runPacket_eq_complete { s with cmdStream := rest } hlen
  refine ⟨respond (statusOf p) k.op (payloadOf p) (finalState p), statusOf p, payloadOf p, ?_, hcmd, ?_, hpayload,
    statusOf_le_14 p, payloadOf_eq_nil⟩
  · rw [step_of_takePacket htake, hrun, complete_eq_respond]
  · rw [respond_respStream, hresp, responsePacket]

end Sys2Proof.Machine
end

section
/-! PROOFS. Repeated commands (20_memory.md R57). -/

namespace Sys2Proof.Machine

/-! ### Registers: what the updates do to them, and what can be read from them alone -/

/-- The log takes the same error twice as it takes it once (R245). -/
theorem registers_logError_twice (e : Err) (s : State) :
    registers (logError e (logError e s)) = registers (logError e s) := by
  simp [registers, logError, BitVec.or_assoc]

/-- The log's update commutes with leaving out the ports, so it depends on the registers alone. -/
theorem registers_logError_congr (e : Err) {s t : State} (h : registers t = registers s) :
    registers (logError e t) = registers (logError e s) :=
  show logError e (registers t) = logError e (registers s) from congrArg (logError e) h

theorem sameKeys_of_registers_eq {s t : State} (h : registers t = registers s) : SameKeys s t := by
  simp only [registers, State.mk.injEq] at h
  simp only [SameKeys, h, and_self]

theorem SameKeys.refl (s : State) : SameKeys s s := ⟨rfl, rfl, rfl, rfl, rfl, rfl, rfl, rfl, rfl⟩

theorem SameKeys.trans {s t u : State} (h : SameKeys s t) (h' : SameKeys t u) : SameKeys s u := by
  simp_all [SameKeys]

theorem SameKeys.mkind {s t : State} (h : SameKeys s t) : t.mkind = s.mkind := by
  obtain ⟨-, -, -, -, hm, -⟩ := h
  exact hm

theorem SameKeys.kctrLen {s t : State} (h : SameKeys s t) : t.kctrLen = s.kctrLen := by
  obtain ⟨-, -, -, hl, -⟩ := h
  exact hl

theorem SameKeys.keyBytes {s t : State} (h : SameKeys s t) (sel : KeySel) : keyBytes sel t = keyBytes sel s := by
  obtain ⟨hk, hkl, hc, hcl, -⟩ := h
  exact keyBytes_congr sel hk hkl hc hcl

theorem SameKeys.macTag {s t : State} (h : SameKeys s t) (E : Cipher) (kind : MacKind) :
    macTag E kind t = macTag E kind s := by
  have ⟨_, _, _, _, _, h1, h2, hl, hi⟩ := h
  exact macTag_congr E kind (h.keyBytes .mac) h1 h2 hl hi

/-- The update works on the registers alone, and done a second time it changes nothing more. -/
structure DoneOnce (f : State → State) : Prop where
  readsRegisters : ∀ s, registers (f (registers s)) = registers (f s)
  twice : ∀ s, registers (f (f s)) = registers (f s)

theorem DoneOnce.again {f : State → State} (hf : DoneOnce f) {s t : State} (h : registers t = registers (f s)) :
    registers (f t) = registers (f s) := by
  rw [← hf.readsRegisters t, h, hf.readsRegisters, hf.twice]

/-- A key load overwrites every register it makes something of (R132). -/
theorem doneOnce_macLoad (E : Cipher) (kind : MacKind) (key : List Byte) : DoneOnce (macLoad E kind key) := by
  cases kind with
  | cmac => exact ⟨fun _ => rfl, fun _ => rfl⟩
  | pmac => exact ⟨fun _ => rfl, fun _ => rfl⟩

/-- The two key loads of `SIV_INIT` (R131). -/
theorem doneOnce_sivLoad (E : Cipher) (kind : MacKind) (macKey ctrKey : List Byte) :
    DoneOnce fun s => ctrLoad ctrKey (macLoad E kind macKey s) := by
  cases kind with
  | cmac => exact ⟨fun _ => rfl, fun _ => rfl⟩
  | pmac => exact ⟨fun _ => rfl, fun _ => rfl⟩

/-! ### Command bodies that repeat -/

/-- Run again in the registers it left, the body ends with the same status, the same payload and the same registers. -/
def Repeats (m : State → Proc (List Byte)) : Prop :=
  ∀ s s', registers s' = registers (finalState (m s)) →
    statusOf (m s') = statusOf (m s) ∧ payloadOf (m s') = payloadOf (m s) ∧
      registers (finalState (m s')) = registers (finalState (m s))

theorem repeats_raise (e : Err) : Repeats (.raise e) := fun s _ h =>
  ⟨rfl, rfl, (registers_logError_congr e h).trans (registers_logError_twice e s)⟩

/-- A body that always answers repeats when its update is done once and for all and its payload is read again from the
registers left. -/
theorem repeats_ok {out : State → List Byte} {leaves : State → State} (hleaves : DoneOnce leaves)
    (hout : ∀ s s', registers s' = registers (leaves s) → out s' = out s) :
    Repeats fun s => .ok (out s) (leaves s) := fun s s' hs => ⟨rfl, hout s s' hs, hleaves.again hs⟩

/-- A fixed payload and no change of state (R57). -/
theorem repeats_ok_const (out : List Byte) : Repeats (.ok out) := fun _ _ h => ⟨rfl, rfl, h⟩

/-- A check of the packet, which has one result in every state. -/
theorem Repeats.check {c : Prop} [Decidable c] {e : Err} {m : State → Proc (List Byte)} (h : ¬c → Repeats m) :
    Repeats fun s => if c then .raise e s else m s := by
  by_cases hc : c
  · simp only [if_pos hc]
    exact repeats_raise e
  · simp only [if_neg hc]
    exact h hc

/-! ### Bodies that repeat and keep the keys: the ones whose checks read `MKIND` or `KCTRLEN` -/

/-- The body repeats, and leaves keys, kind and key-dependent constants as they are, so that state checks repeat too. -/
structure KeyedRepeats (m : State → Proc (List Byte)) : Prop where
  sameKeys : ∀ s, SameKeys s (finalState (m s))
  repeats : Repeats m

theorem keyedRepeats_raise (e : Err) : KeyedRepeats (.raise e) := ⟨SameKeys.refl, repeats_raise e⟩

/-- A choice by something that is read from the keys alone is made the same way again. -/
theorem KeyedRepeats.branch {ι : Type} {g : State → ι} {m : State → Proc (List Byte)}
    (hg : ∀ s t, SameKeys s t → g t = g s) (h : ∀ k, ∃ n, KeyedRepeats n ∧ ∀ s, g s = k → m s = n s) :
    KeyedRepeats m := by
  constructor
  case sameKeys =>
    intro s
    obtain ⟨n, hn, hmn⟩ := h (g s)
    rw [hmn s rfl]
    exact hn.sameKeys s
  case repeats =>
    intro s s' hs
    obtain ⟨n, hn, hmn⟩ := h (g s)
    rw [hmn s rfl] at hs ⊢
    have hkeys : SameKeys s s' := (hn.sameKeys s).trans (sameKeys_of_registers_eq hs)
    rw [hmn s' (hg s s' hkeys)]
    exact hn.repeats s s' hs

/-- The check of `KCTRLEN` (R244, stage 2). -/
theorem KeyedRepeats.kctrLenCheck {e : Err} {m : State → Proc (List Byte)} (h : KeyedRepeats m) :
    KeyedRepeats fun s => if s.kctrLen = .noKey then .raise e s else m s := by
  refine .branch (g := State.kctrLen) (fun _ _ hk => hk.kctrLen) fun k => ?_
  by_cases hk : k = .noKey
  · exact ⟨_, keyedRepeats_raise e, fun s hs => if_pos (hs.trans hk)⟩
  · exact ⟨_, h, fun s hs => if_neg (hs ▸ hk)⟩

/-- The check of `MKIND`, which picks the kind as well (R244, stage 2). -/
theorem KeyedRepeats.mkindCheck {m : State → Proc (List Byte)} {body : MacKind → State → Proc (List Byte)}
    (hnone : ∀ s, s.mkind = none → m s = .raise .noKey s) (hsome : ∀ s kind, s.mkind = some kind → m s = body kind s)
    (h : ∀ kind, KeyedRepeats (body kind)) : KeyedRepeats m := by
  refine .branch (g := State.mkind) (fun _ _ hk => hk.mkind) fun k => ?_
  cases k with
  | none => exact ⟨_, keyedRepeats_raise .noKey, hnone⟩
  | some kind => exact ⟨_, h kind, fun s hs => hsome s kind hs⟩

/-- A payload answered, or an error raised, in a given state. -/
def endIn : Except Err (List Byte) → State → Proc (List Byte)
  | .ok out, t => .ok out t
  | .error e, t => .raise e t

/-- A body repeats when its verdict is read from the keys alone and the state it leaves, ports aside, is that of an update
that keeps the keys, changes nothing when it is done again and does not touch the log. -/
theorem keyedRepeats_of_verdict {m : State → Proc (List Byte)} {verdict : State → Except Err (List Byte)}
    {leaves : State → State} (hm : ∀ s, ∃ t, m s = endIn (verdict s) t ∧ registers t = registers (leaves s))
    (hverdict : ∀ s t, SameKeys s t → verdict t = verdict s) (hkeys : ∀ s, SameKeys s (leaves s))
    (hleaves : DoneOnce leaves)
    (hlog : ∀ e s, registers (leaves (logError e s)) = registers (logError e (leaves s))) : KeyedRepeats m := by
  have sameKeys : ∀ s, SameKeys s (finalState (m s)) := by
    intro s
    obtain ⟨t, e, ht⟩ := hm s
    have hst : SameKeys s t := (hkeys s).trans (sameKeys_of_registers_eq ht)
    rw [e]
    cases verdict s with
    | ok out => exact hst
    | error err => exact hst
  refine ⟨sameKeys, fun s s' hs => ?_⟩
  have hv : verdict s' = verdict s := hverdict s s' ((sameKeys s).trans (sameKeys_of_registers_eq hs))
  obtain ⟨t, e, ht⟩ := hm s
  obtain ⟨t', e', ht'⟩ := hm s'
  rw [e] at hs ⊢
  rw [e', hv]
  generalize verdict s = r at hs ⊢
  cases r with
  | ok out => exact ⟨rfl, rfl, ht'.trans ((hleaves.again (hs.trans ht)).trans ht.symm)⟩
  | error err =>
    refine ⟨rfl, rfl, ?_⟩
    have hlogged : registers s' = registers (leaves (logError err s)) :=
      hs.trans ((registers_logError_congr err ht).trans (hlog err s).symm)
    calc registers (logError err t') = registers (logError err (leaves s')) := registers_logError_congr err ht'
      _ = registers (logError err (leaves (logError err s))) :=
        registers_logError_congr err (hleaves.again hlogged)
      _ = registers (logError err (logError err (leaves s))) := registers_logError_congr err (hlog err s)
      _ = registers (logError err (leaves s)) := registers_logError_twice err _
      _ = registers (logError err t) := (registers_logError_congr err ht).symm

/-! ### The commands -/

theorem macInitCommand_repeats (E : Cipher) (a : Byte) (b : Half) (payload : List Byte) :
    Repeats (macInitCommand E a b payload) := by
  refine .check fun _ => ?_
  cases kindOf a with
  | none => exact repeats_raise _
  | some kind => exact .check fun _ => repeats_ok (doneOnce_macLoad E kind payload) fun _ _ _ => rfl

theorem sivInitCommand_repeats (E : Cipher) (a : Byte) (b : Half) (payload : List Byte) :
    Repeats (sivInitCommand E a b payload) := by
  refine .check fun _ => ?_
  cases kindOf a with
  | none => exact repeats_raise _
  | some kind => exact .check fun _ => repeats_ok (doneOnce_sivLoad E kind _ _) fun _ _ _ => rfl

theorem ctrInitCommand_repeats (a : Byte) (b : Half) (payload : List Byte) : Repeats (ctrInitCommand a b payload) :=
  .check fun _ => .check fun _ => repeats_ok (leaves := ctrLoad payload) ⟨fun _ => rfl, fun _ => rfl⟩ fun _ _ _ => rfl

theorem wipeCommand_repeats (a : Byte) (b : Half) (payload : List Byte) : Repeats (wipeCommand a b payload) :=
  .check fun _ => .check fun _ => repeats_ok (leaves := wipeRegisters) ⟨fun _ => rfl, fun _ => rfl⟩ fun _ _ _ => rfl

theorem getStatusCommand_repeats (a : Byte) (b : Half) (payload : List Byte) : Repeats (getStatusCommand a b payload) :=
  .check fun _ => .check fun _ => repeats_ok (out := statusBlock) (leaves := id) ⟨fun _ => rfl, fun _ => rfl⟩ fun s s' h =>
    show statusBlock (registers s') = statusBlock (registers s) from congrArg statusBlock h

theorem macResetCommand_repeats (a : Byte) (b : Half) (payload : List Byte) : Repeats (macResetCommand a b payload) := by
  have body : KeyedRepeats fun s => .ok [] (macReset s) :=
    keyedRepeats_of_verdict (verdict := fun _ => .ok []) (leaves := macReset) (fun _ => ⟨_, rfl, rfl⟩) (fun _ _ _ => rfl)
      SameKeys.refl ⟨fun _ => rfl, fun _ => rfl⟩ fun _ _ => rfl
  exact .check fun _ => .check fun _ => (KeyedRepeats.mkindCheck (body := fun _ s => .ok [] (macReset s))
    (fun s h => by simp only [h]) (fun s kind h => by simp only [h]) fun _ => body).repeats

theorem ctrSetivCommand_repeats (a : Byte) (b : Half) (payload : List Byte) : Repeats (ctrSetivCommand a b payload) :=
  have body : KeyedRepeats fun s => .ok [] (ctrSetiv (blockOf payload) s) :=
    keyedRepeats_of_verdict (verdict := fun _ => .ok []) (leaves := ctrSetiv (blockOf payload)) (fun _ => ⟨_, rfl, rfl⟩)
      (fun _ _ _ => rfl) SameKeys.refl ⟨fun _ => rfl, fun _ => rfl⟩ fun _ _ => rfl
  .check fun _ => .check fun _ => body.kctrLenCheck.repeats

theorem s2vCommand_repeats (E : Cipher) (nad : Byte) (b : Half) {payload : List Byte} (hlen : payload.length < 2 ^ 32) :
    Repeats (s2vCommand E nad b payload) := by
  refine .check fun _ => ?_
  cases hparse : parseVector nad payload with
  | error e => exact repeats_raise e
  | ok r =>
    obtain ⟨items, p⟩ := r
    obtain ⟨hp, hitems⟩ := parseVector_lengths hlen hparse
    refine (KeyedRepeats.mkindCheck (fun s h => by simp only [h]) (fun s kind h => by simp only [h]; rfl)
      fun kind => ?_).repeats
    refine keyedRepeats_of_verdict (verdict := fun s => .ok (blockBytes (s2vTag (macTag E kind s) items p)))
      (leaves := fun s => afterS2v s []) (fun s => ?_) (fun s t h => by rw [h.macTag]) SameKeys.refl
      ⟨fun _ => rfl, fun _ => rfl⟩ fun _ _ => rfl
    obtain ⟨reqs, e, -⟩ := s2vBody_eq E kind items p s hitems hp
    exact ⟨_, e, rfl⟩

theorem sivSealCommand_repeats (E : Cipher) (nad : Byte) (b : Half) {payload : List Byte} (hlen : payload.length < 2 ^ 32) :
    Repeats (sivSealCommand E nad b payload) := by
  refine .check fun _ => ?_
  cases hparse : parseVector nad payload with
  | error e => exact repeats_raise e
  | ok r =>
    obtain ⟨items, p⟩ := r
    obtain ⟨hp, hitems⟩ := parseVector_lengths hlen hparse
    refine .check fun _ => (KeyedRepeats.mkindCheck (fun s h => by simp only [h]) (fun s kind h => by simp only [h]; rfl)
      fun kind => .kctrLenCheck ?_).repeats
    refine keyedRepeats_of_verdict
      (verdict := fun s => .ok (blockBytes (s2vTag (macTag E kind s) items p) ++
        ctrStream E (keyBytes .ctr s) (sivIv (s2vTag (macTag E kind s) items p)) 0 p))
      (leaves := fun s => afterSiv s []) (fun s => ?_) (fun s t h => by rw [h.macTag, h.keyBytes]) SameKeys.refl
      ⟨fun _ => rfl, fun _ => rfl⟩ fun _ _ => rfl
    obtain ⟨reqs, e, -⟩ := sealBody_eq E kind items p s hitems hp
    exact ⟨_, e, rfl⟩

/-- What `SIV_OPEN` answers past its checks: the plaintext if its tag is the one received (R218). -/
def openVerdict (E : Cipher) (kind : MacKind) (items : List (List Byte)) (c : List Byte) (s : State) :
    Except Err (List Byte) :=
  let plain := ctrStream E (keyBytes .ctr s) (sivIv (blockOf (c.take 16))) 0 (c.drop 16)
  if s2vTag (macTag E kind s) items plain = blockOf (c.take 16) then .ok plain else .error .integrity

theorem sivOpenCommand_repeats (E : Cipher) (nad : Byte) (b : Half) {payload : List Byte} (hlen : payload.length < 2 ^ 32) :
    Repeats (sivOpenCommand E nad b payload) := by
  refine .check fun _ => ?_
  cases hparse : parseVector nad payload with
  | error e => exact repeats_raise e
  | ok r =>
    obtain ⟨items, c⟩ := r
    obtain ⟨hc, hitems⟩ := parseVector_lengths hlen hparse
    refine .check fun hlong => (KeyedRepeats.mkindCheck (fun s h => by simp only [h]) (fun s kind h => by simp only [h]; rfl)
      fun kind => .kctrLenCheck ?_).repeats
    refine keyedRepeats_of_verdict (verdict := openVerdict E kind items c)
      (leaves := fun s => { afterSiv s [] with p := [] }) (fun s => ?_)
      (fun s t h => by simp only [openVerdict, h.macTag, h.keyBytes]) SameKeys.refl
      ⟨fun _ => rfl, fun _ => rfl⟩ fun _ _ => rfl
    have hbody : (c.drop 16).length < 2 ^ 32 := by rw [List.length_drop]; omega
    obtain ⟨reqs, e, -⟩ := openBody_eq E kind items (blockOf (c.take 16)) (c.drop 16) s hitems hbody
    rw [tag_append_body hlong] at e
    refine ⟨{ afterSiv s reqs with p := [] }, ?_, rfl⟩
    rw [e, openVerdict]
    split <;> rfl

/-- Every command but the three that advance a digest or a stream repeats (R57). -/
theorem commandOf_repeats (E : Cipher) {i : Instr} (hlen : i.WellFormed) (hop : i.opcode ∉ [0x21#8, 0x22#8, 0x31#8]) :
    Repeats (commandOf E i) := by
  cases i with
  | dbl a b payload => exact .check fun _ => .check fun _ => repeats_ok_const _
  | dblinv a b payload => exact .check fun _ => .check fun _ => repeats_ok_const _
  | xor a n payload => exact .check fun _ => .check fun _ => .check fun _ => repeats_ok_const _
  | pad pos b payload => exact .check fun _ => .check fun _ => .check fun _ => repeats_ok_const _
  | select bit b payload => exact .check fun _ => .check fun _ => .check fun _ => repeats_ok_const _
  | cmp a n payload => exact .check fun _ => .check fun _ => repeats_ok_const _
  | equal a n payload => exact .check fun _ => .check fun _ => repeats_ok_const _
  | sivInit kind b payload => exact sivInitCommand_repeats E kind b payload
  | macInit kind b payload => exact macInitCommand_repeats E kind b payload
  | ctrInit a b payload => exact ctrInitCommand_repeats a b payload
  | wipe a b payload => exact wipeCommand_repeats a b payload
  | getStatus a b payload => exact getStatusCommand_repeats a b payload
  | macReset a b payload => exact macResetCommand_repeats a b payload
  | macUpdate a b payload => exact absurd (by simp [Instr.opcode]) hop
  | macFinish a b payload => exact absurd (by simp [Instr.opcode]) hop
  | ctrSetiv a b payload => exact ctrSetivCommand_repeats a b payload
  | ctrXor a b payload => exact absurd (by simp [Instr.opcode]) hop
  | s2v nad b payload => exact s2vCommand_repeats E nad b hlen
  | sivSeal nad b payload => exact sivSealCommand_repeats E nad b hlen
  | sivOpen nad b payload => exact sivOpenCommand_repeats E nad b hlen

/-- The state after a command, as its body ends (R53, R71). -/
theorem exec_next_eq {i : Instr} {s t : State} (h : exec i s = .next t) :
    t = respond (statusOf (commandOf Config.E i s)) i.opcode (payloadOf (commandOf Config.E i s))
      (finalState (commandOf Config.E i s)) := by
  rw [exec_eq_complete, complete_eq_respond] at h
  exact (Host.Outcome.next.inj h).symm

/-- Settles O59: the second run starts in the registers the first one left, where the command's body repeats. -/
theorem repeatedCommandsRepeat : Obligations.RepeatedCommandsRepeat := by
  intro i s t u hlen hop ht hu
  have ht := exec_next_eq ht
  have hu := exec_next_eq hu
  have hrepeats := commandOf_repeats Config.E hlen hop s t (by rw [ht]; rfl)
  obtain ⟨hstatus, hpayload, hregisters⟩ := hrepeats
  refine ⟨?_, responsePacket (statusOf (commandOf Config.E i s)) i.opcode (payloadOf (commandOf Config.E i s)), ?_, ?_⟩
  · calc registers u = registers (finalState (commandOf Config.E i t)) := by rw [hu]; rfl
      _ = registers (finalState (commandOf Config.E i s)) := hregisters
      _ = registers t := by rw [ht]; rfl
  · rw [ht, respond_respStream, (commandOf_answersFrom Config.E s hlen).respStream]
  · rw [hu, respond_respStream, (commandOf_answersFrom Config.E t hlen).respStream, hstatus, hpayload]

end Sys2Proof.Machine
end

section
/-! PROOFS. The encoding of packets: encoder and decoder, framing, opcode map, illegal opcodes, framed vectors
(30_encoding.md R70 to R76). -/

namespace Sys2Proof

/-! ### Encoder and decoder (R70, R72, R73) -/

/-- The packet of a command's own fields decodes to the command. -/
theorem decodePacket_ownFields (i : Instr) : decodePacket ⟨i.opcode, i.argA, i.argB, i.payload⟩ = .ok i := by
  cases i with
  | dbl a b payload => exact Laws.DecodesFromOwnFields.dbl a b payload
  | dblinv a b payload => exact Laws.DecodesFromOwnFields.dblinv a b payload
  | xor a n payload => exact Laws.DecodesFromOwnFields.xor a n payload
  | pad pos b payload => exact Laws.DecodesFromOwnFields.pad pos b payload
  | select bit b payload => exact Laws.DecodesFromOwnFields.select bit b payload
  | cmp a n payload => exact Laws.DecodesFromOwnFields.cmp a n payload
  | equal a n payload => exact Laws.DecodesFromOwnFields.equal a n payload
  | sivInit kind b payload => exact Laws.DecodesFromOwnFields.sivInit kind b payload
  | macInit kind b payload => exact Laws.DecodesFromOwnFields.macInit kind b payload
  | ctrInit a b payload => exact Laws.DecodesFromOwnFields.ctrInit a b payload
  | wipe a b payload => exact Laws.DecodesFromOwnFields.wipe a b payload
  | getStatus a b payload => exact Laws.DecodesFromOwnFields.getStatus a b payload
  | macReset a b payload => exact Laws.DecodesFromOwnFields.macReset a b payload
  | macUpdate a b payload => exact Laws.DecodesFromOwnFields.macUpdate a b payload
  | macFinish a b payload => exact Laws.DecodesFromOwnFields.macFinish a b payload
  | ctrSetiv a b payload => exact Laws.DecodesFromOwnFields.ctrSetiv a b payload
  | ctrXor a b payload => exact Laws.DecodesFromOwnFields.ctrXor a b payload
  | s2v nad b payload => exact Laws.DecodesFromOwnFields.s2v nad b payload
  | sivSeal nad b payload => exact Laws.DecodesFromOwnFields.sivSeal nad b payload
  | sivOpen nad b payload => exact Laws.DecodesFromOwnFields.sivOpen nad b payload

/-- Settles O1: the framing takes the encoded packet off the stream whole, and its fields are the command's own. -/
theorem decodeInvertsEncode : Obligations.DecodeInvertsEncode := by
  intro i rest hlen
  have htake : takePacket (encode i ++ rest) = some (⟨i.opcode, i.argA, i.argB, i.payload⟩, rest) :=
    takePacket_header i.opcode i.argA i.argB i.payload rest hlen
  exact decode_eq_ok_iff.mpr ⟨_, htake, decodePacket_ownFields i⟩

/-- Settles O2: the framing spells the packet it took, and the decoder keeps the packet's fields. -/
theorem encodeInvertsDecode : Obligations.EncodeInvertsDecode := by
  intro bytes i rest hdecode
  obtain ⟨k, htake, hpacket⟩ := decode_eq_ok_iff.mp hdecode
  obtain ⟨hop, ha, hb, hpayload⟩ := decodePacket_ok hpacket
  obtain ⟨hlen, hbytes⟩ := takePacket_some htake
  refine ⟨by rwa [Instr.WellFormed, hpayload], ?_⟩
  rw [encode, hop, ha, hb, hpayload, hbytes]

/-- Bytes that spell a command's packet decode to it (R70, R73). -/
theorem decode_of_eq_encode {bytes rest : List Byte} {i : Instr} (hlen : i.WellFormed) (h : bytes = encode i ++ rest) :
    decode bytes = .ok (i, rest) :=
  h ▸ decodeInvertsEncode i rest hlen

/-- Settles O3: each packet written out is the encoding of its command, with the bytes after it as the rest. -/
theorem knownPacketsDecode : Obligations.KnownPacketsDecode := by
  refine ⟨?_, ?_, ?_, ?_, ?_⟩ <;> exact decode_of_eq_encode (by decide) (by decide)

/-! ### Framing (R72) -/

theorem beNat_pair (x y : Byte) : beNat [x, y] = 256 * x.toNat + y.toNat := by
  simp [beNat_cons, Nat.mul_comm]

theorem beNat_quad (x y z w : Byte) :
    beNat [x, y, z, w] = 16777216 * x.toNat + 65536 * y.toNat + 256 * z.toNat + w.toNat := by
  simp only [beNat_cons, beNat_nil, List.length_cons, List.length_nil]
  omega

/-- No packet is taken off a stream that does not hold a whole header (R72). -/
theorem takePacket_of_length_lt {bytes : List Byte} (h : bytes.length < 8) : takePacket bytes = none := by
  unfold takePacket
  split
  case h_1 => simp only [List.length_cons] at h; omega
  case h_2 => rfl

/-- A stream of at least 8 bytes starts with the 8 bytes of a header (R70). -/
theorem exists_header {bytes : List Byte} (h : 8 ≤ bytes.length) :
    ∃ op a b1 b0 l3 l2 l1 l0 tail, bytes = op :: a :: b1 :: b0 :: l3 :: l2 :: l1 :: l0 :: tail := by
  match bytes, h with
  | op :: a :: b1 :: b0 :: l3 :: l2 :: l1 :: l0 :: tail, _ => exact ⟨op, a, b1, b0, l3, l2, l1, l0, tail, rfl⟩

/-- Settles O4: below 8 bytes there is no header; from 8 bytes on the header's last four bytes spell the length that the
framing compares with what is left. -/
theorem headerDecidesPacketLength : Obligations.HeaderDecidesPacketLength := by
  intro bytes len
  by_cases hshort : bytes.length < 8
  · rw [takePacket_of_length_lt hshort, if_pos (.inl hshort)]
  · obtain ⟨op, a, b1, b0, l3, l2, l1, l0, tail, rfl⟩ := exists_header (Nat.le_of_not_lt hshort)
    have hlen : beNat [l3, l2, l1, l0] = len := beNat_quad l3 l2 l1 l0
    have hshorter : tail.length < len ↔
        (op :: a :: b1 :: b0 :: l3 :: l2 :: l1 :: l0 :: tail).length < 8 ∨
          (op :: a :: b1 :: b0 :: l3 :: l2 :: l1 :: l0 :: tail).length < 8 + len := by
      simp only [List.length_cons]; omega
    have hdrop : (op :: a :: b1 :: b0 :: l3 :: l2 :: l1 :: l0 :: tail).drop (8 + len) = tail.drop len :=
      List.drop_drop.symm
    rw [takePacket, hlen, beNat_pair]
    by_cases hpart : tail.length < len
    · rw [if_pos hpart, if_pos (hshorter.mp hpart)]
    · rw [if_neg hpart, if_neg (mt hshorter.mpr hpart)]
      exact congrArg some (Prod.ext rfl hdrop.symm)

/-! ### The opcode map (R73, R76) -/

theorem opcode_mem_definedOpcodes (i : Instr) : i.opcode ∈ Machine.definedOpcodes := by
  cases i <;> simp [Instr.opcode, Machine.definedOpcodes]

/-- The one reason a whole packet does not decode is its opcode byte, which the answer names (R72, R76). -/
theorem decodePacket_error {k : Packet} {e : DecodeError} (h : decodePacket k = .error e) : e = .unknownOpcode k.op := by
  unfold decodePacket at h
  split at h <;> cases h
  rfl

theorem decodePacket_of_mem {k : Packet} (h : k.op ∈ Machine.definedOpcodes) : ∃ i, decodePacket k = .ok i := by
  obtain ⟨op, a, b, payload⟩ := k
  simp only [Machine.definedOpcodes, List.mem_cons, List.not_mem_nil, or_false] at h
  rcases h with rfl | rfl | rfl | rfl | rfl | rfl | rfl | rfl | rfl | rfl | rfl | rfl | rfl | rfl | rfl | rfl | rfl |
    rfl | rfl | rfl <;> exact ⟨_, rfl⟩

theorem decodePacket_of_not_mem {k : Packet} (h : k.op ∉ Machine.definedOpcodes) :
    decodePacket k = .error (.unknownOpcode k.op) := by
  cases hpacket : decodePacket k with
  | ok i =>
    obtain ⟨hop, -, -, -⟩ := decodePacket_ok hpacket
    exact absurd (hop ▸ opcode_mem_definedOpcodes i) h
  | error e => rw [decodePacket_error hpacket]

/-- Settles O5: the twenty opcode bytes decode, and what decodes keeps its fields; no other byte is a command's opcode. -/
theorem opcodeMapHasTwentyEntries : Obligations.OpcodeMapHasTwentyEntries := by
  refine ⟨rfl, by decide, fun k => ⟨fun hmem => ?_, decodePacket_of_not_mem⟩⟩
  obtain ⟨i, hpacket⟩ := decodePacket_of_mem hmem
  exact ⟨i, hpacket, decodePacket_ok hpacket⟩

namespace Machine

/-! ### Illegal opcodes (R76) -/

/-- A packet whose opcode byte is outside the map is answered with `ERR_OPCODE` (R76). -/
theorem runPacket_of_not_mem {k : Packet} (h : k.op ∉ definedOpcodes) (s : State) :
    runPacket k s = .next (takeError k.op .opcode s) := by
  simp only [runPacket, decodePacket_of_not_mem h]

/-- The log's two registers are the only ones that taking an error writes; its response writes none (R245, R250). -/
theorem registers_takeError (op : Byte) (e : Err) (s : State) :
    registers (takeError op e s) =
      { registers s with lasterr := errCode e, esticky := s.esticky ||| stickyBit e } := rfl

/-- Settles O8: the packet is taken off the stream, and its run is the one error `ERR_OPCODE`, code `0x0b`, bit 11. -/
theorem illegalOpcodeOnlyFails : Obligations.IllegalOpcodeOnlyFails := by
  intro s k rest htake hop
  have hstep : step s = .next (takeError k.op .opcode { s with cmdStream := rest }) := by
    rw [step_of_takePacket htake, runPacket_of_not_mem hop]
  exact ⟨_, hstep, registers_takeError k.op .opcode { s with cmdStream := rest }, rfl, rfl, rfl⟩

/-! ### Framed vectors (R75) -/

/-- An item that was parsed is as long as its four length bytes say. -/
theorem parseItems_item_length_lt {n : Nat} {bytes final : List Byte} {items : List (List Byte)}
    (h : parseItems n bytes = some (items, final)) : ∀ item ∈ items, item.length < 2 ^ 32 := by
  fun_induction parseItems n bytes generalizing items final with
  | case1 => cases h; simp
  | case2 => cases h
  | case3 n l0 l1 l2 l3 rest hfits items' final' hrest ih =>
    cases h
    have hlen : beNat [l0, l1, l2, l3] < 2 ^ 32 := by simpa using beNat_lt [l0, l1, l2, l3]
    have hhead : (rest.take (beNat [l0, l1, l2, l3])).length < 2 ^ 32 :=
      Nat.lt_of_le_of_lt (List.length_take_le _ _) hlen
    exact List.forall_mem_cons.mpr ⟨hhead, ih hrest⟩
  | case4 => cases h
  | case5 => cases h

/-- Parsing and framing are inverse to each other (R75). -/
theorem parseItems_eq_some_iff {n : Nat} {bytes final : List Byte} {items : List (List Byte)} :
    parseItems n bytes = some (items, final) ↔
      items.length = n ∧ (∀ item ∈ items, item.length < 2 ^ 32) ∧ bytes = frameVector items final := by
  constructor
  · intro h
    obtain ⟨hframe, hcount⟩ := frameVector_parseItems h
    exact ⟨hcount, parseItems_item_length_lt h, hframe⟩
  · rintro ⟨rfl, hlen, rfl⟩
    exact parseItems_frameVector items final hlen

theorem parseVector_of_gt {nad : Byte} (h : 126 < nad.toNat) (payload : List Byte) :
    parseVector nad payload = .error .tooManyAd := if_pos h

/-- With at most 126 items a vector parses as its items do (R75). -/
theorem parseVector_eq_ok_iff {nad : Byte} (h : nad.toNat ≤ 126) {payload : List Byte}
    {r : List (List Byte) × List Byte} : parseVector nad payload = .ok r ↔ parseItems nad.toNat payload = some r := by
  rw [parseVector, if_neg (show ¬nad.toNat > maxAd from Nat.not_lt.mpr h)]
  cases parseItems nad.toNat payload <;> simp

/-- With at most 126 items the one error of a vector is its framing (R75). -/
theorem parseVector_of_parseItems_eq_none {nad : Byte} (h : nad.toNat ≤ 126) {payload : List Byte}
    (hnone : parseItems nad.toNat payload = none) : parseVector nad payload = .error .framing := by
  rw [parseVector, if_neg (show ¬nad.toNat > maxAd from Nat.not_lt.mpr h), hnone]

/-- Settles O52: up to 126 items a vector parses exactly as its items do, and parsing items inverts their framing. -/
theorem framedVectorParses : Obligations.FramedVectorParses := by
  intro nad payload
  refine ⟨fun hmany => parseVector_of_gt hmany payload, fun hfew => ⟨fun items final => ?_, fun hnone => ?_⟩⟩
  · exact (parseVector_eq_ok_iff hfew).trans parseItems_eq_some_iff
  · refine parseVector_of_parseItems_eq_none hfew (Option.eq_none_iff_forall_ne_some.mpr ?_)
    rintro ⟨items, final⟩ hparse
    exact hnone items final (parseItems_eq_some_iff.mp hparse)

end Machine

end Sys2Proof
end

section
/-! PROOFS. The helper family: the functions of 40_helpers.md and the seven commands on them (R101 to R114). -/

namespace Sys2Proof.Machine

/-! ### Checks and answers of a command (R18, R71, R244) -/

/-- A check that fails ends the command with its error. -/
theorem complete_check_fails {c : Prop} [Decidable c] {op : Byte} {e : Err} {p : Proc (List Byte)} {s : State} (h : c) :
    complete op (if c then .raise e s else p) = .next (takeError op e s) := by
  rw [if_pos h]; rfl

/-- A check that passes leaves the command to what stands after it. -/
theorem complete_check_passes {c : Prop} [Decidable c] {op : Byte} {e : Err} {p : Proc (List Byte)} {s : State}
    (h : ¬c) : complete op (if c then .raise e s else p) = complete op p := by
  rw [if_neg h]

/-- Of two checks with one error, one that fails is enough. -/
theorem complete_checks_fail {c d : Prop} [Decidable c] [Decidable d] {op : Byte} {e : Err} {p : Proc (List Byte)}
    {s : State} (h : c ∨ d) :
    complete op (if c then .raise e s else if d then .raise e s else p) = .next (takeError op e s) := by
  by_cases hc : c
  · exact complete_check_fails hc
  · exact (complete_check_passes hc).trans (complete_check_fails (h.resolve_left hc))

/-- Two checks that pass leave the command to what stands after them. -/
theorem complete_checks_pass {c d : Prop} [Decidable c] [Decidable d] {op : Byte} {e e' : Err} {p : Proc (List Byte)}
    {s : State} (hc : ¬c) (hd : ¬d) :
    complete op (if c then .raise e s else if d then .raise e' s else p) = complete op p :=
  (complete_check_passes hc).trans (complete_check_passes hd)

/-- A response tells its payload, which stands unchanged behind the eight header bytes. -/
theorem respond_payload_inj {st op : Byte} {out out' : List Byte} {s : State}
    (h : respond st op out s = respond st op out' s) : out = out' := by
  have hpacket : responsePacket st op out = responsePacket st op out' :=
    List.append_cancel_left (congrArg State.respStream h)
  have hheader : ([st, op, 0, 0] ++ beBytes 4 out.length).length = ([st, op, 0, 0] ++ beBytes 4 out'.length).length := by
    simp
  exact (List.append_inj hpacket hheader).2

/-! ### Shifts of a block, bit by bit and byte by byte (R15, R101, R103) -/

/-- The bit that a left shift drops, alone. -/
theorem block_ushiftRight_127 (b : Block) : b >>> 127 = if b.getLsbD 127 then 1 else 0 := by
  ext i hi
  by_cases h0 : i = 0
  · subst h0
    cases h : b.getLsbD 127 <;> simpa using h
  · have hout : b.getLsbD (127 + i) = false := BitVec.getLsbD_of_ge b _ (by omega)
    cases b.getLsbD 127 <;> simp [hout, h0]

/-- The bit that a right shift drops, alone. -/
theorem block_and_one (b : Block) : b &&& 1#128 = if b.getLsbD 0 then 1 else 0 := by
  rw [BitVec.and_one_eq_setWidth_ofBool_getLsbD]
  cases b.getLsbD 0 <;> rfl

/-- A shift to the left and back loses the top bit and nothing else. -/
theorem block_shiftLeft_ushiftRight (b : Block) :
    b <<< 1 >>> 1 = b ^^^ if b.getLsbD 127 then 0x80000000000000000000000000000000 else 0 := by
  have htwoPow : (0x80000000000000000000000000000000 : Block) = BitVec.twoPow 128 127 := rfl
  rw [htwoPow]
  apply BitVec.eq_of_getLsbD_eq
  intro i hi
  by_cases htop : i = 127
  · subst htop
    cases h : b.getLsbD 127 <;> simpa using h
  · have hlow : 1 + i < 128 := by omega
    cases b.getLsbD 127 <;> simp [hlow, htop, BitVec.getLsbD_eq_getElem hi]

/-- A shift to the right and back loses the bottom bit and nothing else. -/
theorem block_ushiftRight_shiftLeft (b : Block) : b >>> 1 <<< 1 = b ^^^ if b.getLsbD 0 then 1 else 0 := by
  apply BitVec.eq_of_getLsbD_eq
  intro i hi
  cases i with
  | zero => cases h : b.getLsbD 0 <;> simpa using h
  | succ i =>
    have hbit : 1 + i = i + 1 := Nat.add_comm 1 i
    cases b.getLsbD 0 <;> simp [hi, hbit]

/-- Bit `j` of byte `i` of a block, as a bit of `int(b)`. -/
theorem blockByte_getLsbD (b : Block) {i : Nat} (hi : i < 16) (j : Nat) :
    (blockByte b i).getLsbD j = (decide (j < 8) && b.getLsbD (8 * (15 - i) + j)) := by
  rw [blockByte_eq_extract b hi, BitVec.getLsbD_extractLsb']

/-- Shifted left, a byte takes the top bit of the byte after it. -/
theorem blockByte_shiftLeft (b : Block) {i : Nat} (h : i < 15) :
    blockByte (b <<< 1) i = blockByte b i <<< 1 ||| blockByte b (i + 1) >>> 7 := by
  apply BitVec.eq_of_getLsbD_eq
  intro j hj
  rw [BitVec.getLsbD_or, BitVec.getLsbD_shiftLeft, BitVec.getLsbD_ushiftRight, blockByte_getLsbD b (by omega),
    blockByte_getLsbD b (by omega), blockByte_getLsbD (b <<< 1) (by omega), BitVec.getLsbD_shiftLeft]
  cases j with
  | zero =>
    have hbit : 8 * (15 - i) - 1 = 8 * (15 - (i + 1)) + 7 := by omega
    have hin : 8 * (15 - i) < 128 ∧ 8 * (15 - i) ≠ 0 := by omega
    simp [hin, hbit]
  | succ j =>
    have hin : 8 * (15 - i) + (j + 1) < 128 ∧ j < 8 ∧ ¬7 + (j + 1) < 8 := by omega
    simp [hin]

/-- Shifted left, the last byte takes a zero bit. -/
theorem blockByte_shiftLeft_last (b : Block) : blockByte (b <<< 1) 15 = blockByte b 15 <<< 1 := by
  apply BitVec.eq_of_getLsbD_eq
  intro j hj
  rw [BitVec.getLsbD_shiftLeft, blockByte_getLsbD b (by omega), blockByte_getLsbD (b <<< 1) (by omega),
    BitVec.getLsbD_shiftLeft]
  have hin : j < 128 ∧ j - 1 < 8 := by omega
  simp [hj, hin]

/-- Shifted right, a byte takes the bottom bit of the byte before it. -/
theorem blockByte_ushiftRight (b : Block) {i : Nat} (h0 : 0 < i) (h : i < 16) :
    blockByte (b >>> 1) i = blockByte b i >>> 1 ||| blockByte b (i - 1) <<< 7 := by
  apply BitVec.eq_of_getLsbD_eq
  intro j hj
  rw [BitVec.getLsbD_or, BitVec.getLsbD_shiftLeft, BitVec.getLsbD_ushiftRight, blockByte_getLsbD b h,
    blockByte_getLsbD b (by omega), blockByte_getLsbD (b >>> 1) h, BitVec.getLsbD_ushiftRight]
  by_cases htop : j = 7
  · subst htop
    have hbit : 1 + (8 * (15 - i) + 7) = 8 * (15 - (i - 1)) := by omega
    simp [hbit]
  · have hbit : 1 + (8 * (15 - i) + j) = 8 * (15 - i) + (1 + j) := by omega
    have hin : 1 + j < 8 ∧ j < 7 := by omega
    simp [hbit, hj, hin]

/-- Shifted right, the first byte takes a zero bit. -/
theorem blockByte_ushiftRight_first (b : Block) : blockByte (b >>> 1) 0 = blockByte b 0 >>> 1 := by
  apply BitVec.eq_of_getLsbD_eq
  intro j hj
  rw [BitVec.getLsbD_ushiftRight, blockByte_getLsbD b (by omega), blockByte_getLsbD (b >>> 1) (by omega),
    BitVec.getLsbD_ushiftRight]
  by_cases htop : j = 7
  · subst htop
    simp
  · have hbit : 1 + (120 + j) = 120 + (1 + j) := by omega
    have hin : 1 + j < 8 := by omega
    simp [hj, hin, hbit]

/-! ### `dbl` and `dblinv` (R101, R103) -/

theorem dbl_eq_ite (b : Block) : dbl b = b <<< 1 ^^^ if b.getLsbD 127 then 0x87 else 0 := by
  rw [dbl, block_ushiftRight_127]
  split <;> rfl

theorem dblinv_eq_ite (b : Block) :
    dblinv b = b >>> 1 ^^^ if b.getLsbD 0 then 0x80000000000000000000000000000043 else 0 := by
  rw [dblinv, block_and_one]
  split <;> rfl

/-- A contribution that one bit decides is linear in that bit. -/
theorem ite_xor_ite (p q : Bool) (c : Block) :
    (if p ^^ q then c else 0) = (if p then c else 0) ^^^ if q then c else 0 := by
  cases p <;> cases q <;> simp

theorem dbl_xor (x y : Block) : dbl (x ^^^ y) = dbl x ^^^ dbl y := by
  simp only [dbl_eq_ite, BitVec.shiftLeft_xor_distrib, BitVec.getLsbD_xor, ite_xor_ite]
  ac_rfl

/-- The bottom bit of `dbl b` is the bit that was shifted out at the top. -/
theorem dbl_getLsbD_zero (b : Block) : (dbl b).getLsbD 0 = b.getLsbD 127 := by
  rw [dbl_eq_ite]
  cases b.getLsbD 127 <;> simp

/-- With the carry read off the bottom bit, `dblinv` takes `0x87` back and puts the top bit in again. -/
theorem dblinv_dbl : Function.LeftInverse dblinv dbl := by
  intro b
  rw [dblinv_eq_ite, dbl_getLsbD_zero, dbl_eq_ite, BitVec.ushiftRight_xor_distrib, block_shiftLeft_ushiftRight]
  cases b.getLsbD 127
  case false => simp
  case true =>
    have hcarry : (0x87 : Block) >>> 1 ^^^ 0x80000000000000000000000000000043 = 0x80000000000000000000000000000000 := rfl
    rw [if_pos rfl, if_pos rfl, if_pos rfl, BitVec.xor_assoc, hcarry, BitVec.xor_assoc, BitVec.xor_self]
    exact BitVec.xor_zero

/-- The carry out of `dblinv b` is the bit that was shifted out at the bottom. -/
theorem dblinv_getLsbD_127 (b : Block) : (dblinv b).getLsbD 127 = b.getLsbD 0 := by
  have hout : b.getLsbD (1 + 127) = false := BitVec.getLsbD_of_ge b _ (by omega)
  rw [dblinv_eq_ite, BitVec.getLsbD_xor, BitVec.getLsbD_ushiftRight, hout, Bool.false_xor]
  cases b.getLsbD 0 <;> decide

/-- With the carry read off the top bit, `dbl` takes the constant back and puts the bottom bit in again. -/
theorem dbl_dblinv : Function.RightInverse dblinv dbl := by
  intro b
  rw [dbl_eq_ite, dblinv_getLsbD_127, dblinv_eq_ite, BitVec.shiftLeft_xor_distrib, block_ushiftRight_shiftLeft]
  cases b.getLsbD 0
  case false => simp
  case true =>
    have hcarry : (0x80000000000000000000000000000043 : Block) <<< 1 ^^^ 0x87 = 1 := rfl
    rw [if_pos rfl, if_pos rfl, if_pos rfl, BitVec.xor_assoc, hcarry, BitVec.xor_assoc, BitVec.xor_self]
    exact BitVec.xor_zero

/-- The reduction constant stands in the last byte alone (R101). -/
theorem blockByte_reduction {i : Nat} (h : i < 15) : blockByte 0x87 i = 0 := by
  revert i; decide

/-- The inverse's constant stands in the first and the last byte alone (R103). -/
theorem blockByte_reductionInv {i : Nat} (h0 : 0 < i) (h : i < 15) :
    blockByte 0x80000000000000000000000000000043 i = 0 := by
  have hmiddle : ∀ i < 15, 0 < i → blockByte 0x80000000000000000000000000000043 i = 0 := by decide
  exact hmiddle i h h0

theorem blockByte_dbl (b : Block) {i : Nat} (h : i < 15) :
    blockByte (dbl b) i = blockByte b i <<< 1 ||| blockByte b (i + 1) >>> 7 := by
  rw [dbl_eq_ite, blockByte_xor, blockByte_shiftLeft b h, apply_ite (blockByte · i), blockByte_reduction h,
    blockByte_zero, ite_self]
  exact BitVec.xor_zero

theorem blockByte_dbl_last (b : Block) :
    blockByte (dbl b) 15 = blockByte b 15 <<< 1 ^^^ if (blockByte b 0).getLsbD 7 then 0x87 else 0 := by
  rw [dbl_eq_ite, blockByte_xor, blockByte_shiftLeft_last, apply_ite (blockByte · 15), blockByte_getLsbD b (by omega)]
  rfl

theorem blockByte_dblinv (b : Block) {i : Nat} (h0 : 0 < i) (h : i < 15) :
    blockByte (dblinv b) i = blockByte b i >>> 1 ||| blockByte b (i - 1) <<< 7 := by
  rw [dblinv_eq_ite, blockByte_xor, blockByte_ushiftRight b h0 (by omega), apply_ite (blockByte · i),
    blockByte_reductionInv h0 h, blockByte_zero, ite_self]
  exact BitVec.xor_zero

theorem blockByte_dblinv_first (b : Block) :
    blockByte (dblinv b) 0 = blockByte b 0 >>> 1 ^^^ if (blockByte b 15).getLsbD 0 then 0x80 else 0 := by
  rw [dblinv_eq_ite, blockByte_xor, blockByte_ushiftRight_first, apply_ite (blockByte · 0), blockByte_getLsbD b (by omega)]
  rfl

theorem blockByte_dblinv_last (b : Block) :
    blockByte (dblinv b) 15 =
      (blockByte b 15 >>> 1 ||| blockByte b 14 <<< 7) ^^^ if (blockByte b 15).getLsbD 0 then 0x43 else 0 := by
  rw [dblinv_eq_ite, blockByte_xor, blockByte_ushiftRight b (by omega) (by omega), apply_ite (blockByte · 15),
    blockByte_getLsbD b (by omega)]
  rfl

/-- Settles O26: shifts and the carry's contribution are linear, and each function undoes the other's carry. -/
theorem dblIsALinearBijection : Obligations.DblIsALinearBijection := fun x y => ⟨dbl_xor x y, dblinv_dbl x, dbl_dblinv x⟩

/-! ### `DBL` and `DBLINV` (R102, R104) -/

theorem exec_dbl {payload : List Byte} (h : payload.length = 16) (s : State) :
    exec (.dbl 0 0 payload) s = .next (respond okCode 0x01 (blockBytes (dbl (blockOf payload))) s) :=
  complete_checks_pass (by simp) (not_not_intro h)

theorem exec_dblinv {payload : List Byte} (h : payload.length = 16) (s : State) :
    exec (.dblinv 0 0 payload) s = .next (respond okCode 0x02 (blockBytes (dblinv (blockOf payload))) s) :=
  complete_checks_pass (by simp) (not_not_intro h)

/-- Settles O24: the bytes of the payload are the bytes of the block it spells. -/
theorem dblDoublesABlock : Obligations.DblDoublesABlock := by
  intro a b payload s
  refine ⟨?ok, complete_check_fails, ?length⟩
  case ok =>
    rintro rfl rfl hlen
    refine ⟨_, exec_dbl hlen s, blockBytes_length _, fun i hi => ?_, ?_⟩
    · simp only [← blockByte_blockOf hlen]
      exact blockByte_dbl (blockOf payload) hi
    · simp only [← blockByte_blockOf hlen]
      exact blockByte_dbl_last (blockOf payload)
  case length =>
    rintro rfl rfl hlen
    exact (complete_check_passes (by simp)).trans (complete_check_fails hlen)

/-- Settles O25: as for `DBL`; a response tells the block it answers, which the other command takes back. -/
theorem dblinvHalvesABlock : Obligations.DblinvHalvesABlock := by
  intro a b payload s
  refine ⟨?ok, complete_check_fails, ?length, ?inverse⟩
  case ok =>
    rintro rfl rfl hlen
    refine ⟨_, exec_dblinv hlen s, blockBytes_length _, fun i h0 hi => ?_, ?_, ?_⟩
    · simp only [← blockByte_blockOf hlen]
      exact blockByte_dblinv (blockOf payload) h0 hi
    · simp only [← blockByte_blockOf hlen]
      exact blockByte_dblinv_first (blockOf payload)
    · simp only [← blockByte_blockOf hlen]
      exact blockByte_dblinv_last (blockOf payload)
  case length =>
    rintro rfl rfl hlen
    exact (complete_check_passes (by simp)).trans (complete_check_fails hlen)
  case inverse =>
    rintro rfl rfl hlen out
    constructor
    · intro h
      rw [exec_dbl hlen] at h
      obtain rfl := respond_payload_inj (Host.Outcome.next.inj h)
      rw [exec_dblinv (blockBytes_length _), blockOf_blockBytes, dblinv_dbl, blockBytes_blockOf hlen]
    · intro h
      rw [exec_dblinv hlen] at h
      obtain rfl := respond_payload_inj (Host.Outcome.next.inj h)
      rw [exec_dbl (blockBytes_length _), blockOf_blockBytes, dbl_dblinv, blockBytes_blockOf hlen]

/-! ### `xor` and `XOR` (R105, R106) -/

/-- Past its end the shorter source changes nothing. -/
theorem xorBytes_getD {ds xs : List Byte} (h : xs.length ≤ ds.length) (i : Nat) :
    (xorBytes ds xs).getD i 0 = ds.getD i 0 ^^^ xs.getD i 0 := by
  induction ds generalizing xs i with
  | nil => simp [xorBytes, List.length_eq_zero_iff.mp (Nat.le_zero.mp h)]
  | cons d ds ih =>
    cases xs with
    | nil => simp [xorBytes]
    | cons x xs =>
      cases i with
      | zero => simp [xorBytes]
      | succ i => simpa [xorBytes] using ih (Nat.le_of_succ_le_succ h) i

theorem getD_of_length_le {bytes : List Byte} {i : Nat} (h : bytes.length ≤ i) : bytes.getD i 0 = 0 := by
  rw [List.getD_eq_getElem?_getD, List.getElem?_eq_none h, Option.getD_none]

theorem getD_take {bytes : List Byte} {n i : Nat} (h : i < n) : (bytes.take n).getD i 0 = bytes.getD i 0 := by
  simp [h]

theorem getD_drop (bytes : List Byte) (n i : Nat) : (bytes.drop n).getD i 0 = bytes.getD (n + i) 0 := by
  simp

theorem exec_xor {n : Half} {payload : List Byte} (hn : n.toNat ≤ payload.length)
    (hfits : (payload.drop n.toNat).length ≤ (payload.take n.toNat).length) (s : State) :
    exec (.xor 0 n payload) s =
      .next (respond okCode 0x03 (xorBytes (payload.take n.toNat) (payload.drop n.toNat)) s) :=
  (complete_checks_pass (by simp) (Nat.not_lt.mpr hn)).trans (complete_check_passes (Nat.not_lt.mpr hfits))

/-- Settles O27: the source's byte `i` is the payload's byte `n + i`, and past the payload's end it is zero. -/
theorem xorMixesTheSourceIn : Obligations.XorMixesTheSourceIn := by
  intro a n payload s
  refine ⟨?ok, complete_checks_fail, ?length⟩
  case ok =>
    rintro rfl hn hshort
    have hfits : (payload.drop n.toNat).length ≤ (payload.take n.toNat).length := by
      rwa [List.length_drop, List.length_take_of_le hn]
    have hbyte : ∀ i, i < n.toNat → (xorBytes (payload.take n.toNat) (payload.drop n.toNat)).getD i 0 =
        payload.getD i 0 ^^^ payload.getD (n.toNat + i) 0 := fun i hi => by
      rw [xorBytes_getD hfits, getD_take hi, getD_drop]
    refine ⟨_, exec_xor hn hfits s, ?_, fun i hi => hbyte i (by omega), fun i hpast hi => ?_⟩
    · rw [xorBytes_length, List.length_take_of_le hn]
    · rw [hbyte i hi, getD_of_length_le (show payload.length ≤ n.toNat + i by omega)]
      exact BitVec.xor_zero
  case length =>
    rintro rfl hn hlong
    have hover : (payload.drop n.toNat).length > (payload.take n.toNat).length := by
      rwa [List.length_drop, List.length_take_of_le hn]
    exact (complete_checks_pass (by simp) (Nat.not_lt.mpr hn)).trans (complete_check_fails hover)

/-! ### `pad` and `PAD` (R107, R108) -/

theorem getD_append_left {as : List Byte} (bs : List Byte) {i : Nat} (h : i < as.length) :
    (as ++ bs).getD i 0 = as.getD i 0 := by
  rw [List.getD_eq_getElem?_getD, List.getElem?_append_left h, ← List.getD_eq_getElem?_getD]

theorem getD_append_length (as : List Byte) (b : Byte) : (as ++ [b]).getD as.length 0 = b := by
  rw [List.getD_eq_getElem?_getD, List.getElem?_concat_length, Option.getD_some]

theorem blockByte_pad (b : Block) {pos : Nat} (h : pos ≤ 15) (i : Nat) :
    blockByte (pad b pos) i = if i < pos then blockByte b i else if i = pos then 0x80 else 0 := by
  have htake : ((blockBytes b).take pos).length = pos := by
    rw [List.length_take_of_le (by rw [blockBytes_length]; omega)]
  have hlen : (zeroFill 16 ((blockBytes b).take pos ++ [0x80#8])).length = 16 :=
    zeroFill_length _ _ (by rw [List.length_append, htake]; exact Nat.succ_le_succ h)
  rw [pad, blockByte_blockOf hlen, zeroFill_getD]
  rcases Nat.lt_trichotomy i pos with hbefore | hat | hafter
  · rw [if_pos hbefore, getD_append_left _ (by rwa [htake]), getD_take hbefore, blockByte]
  · have hmarker := getD_append_length ((blockBytes b).take pos) 0x80#8
    rw [htake] at hmarker
    rw [if_neg (by omega), if_pos hat, hat]
    exact hmarker
  · rw [if_neg (by omega), if_neg (by omega)]
    exact getD_of_length_le (by rw [List.length_append, htake]; exact hafter)

theorem exec_pad {pos : Byte} {payload : List Byte} (hpos : pos.toNat ≤ 15) (hlen : payload.length = 16) (s : State) :
    exec (.pad pos 0 payload) s = .next (respond okCode 0x04 (blockBytes (pad (blockOf payload) pos.toNat)) s) :=
  (complete_checks_pass (by simp) (Nat.not_lt.mpr hpos)).trans (complete_check_passes (not_not_intro hlen))

/-- Settles O28: the block's bytes before `pos` are the payload's. -/
theorem padWritesTheMarker : Obligations.PadWritesTheMarker := by
  intro pos b payload s
  refine ⟨?ok, complete_checks_fail, ?length⟩
  case ok =>
    rintro rfl hpos hlen
    have hbyte := blockByte_pad (blockOf payload) hpos
    refine ⟨_, exec_pad hpos hlen s, blockBytes_length _, fun i hi => ?_, ?_, fun i hi => ?_⟩
    · exact (hbyte i).trans ((if_pos hi).trans (blockByte_blockOf hlen i))
    · exact (hbyte pos.toNat).trans ((if_neg (Nat.lt_irrefl _)).trans (if_pos rfl))
    · exact (hbyte i).trans ((if_neg (Nat.lt_asymm hi)).trans (if_neg (Nat.ne_of_gt hi)))
  case length =>
    rintro rfl hpos hlen
    exact (complete_checks_pass (by simp) (Nat.not_lt.mpr hpos)).trans (complete_check_fails hlen)

/-! ### `select` and `SELECT` (R109, R110) -/

/-- The mask `bit - 1` is all zeros for 1 and all ones for 0. -/
theorem select8_eq {bit : Byte} (h : bit.toNat ≤ 1) (x y : Byte) : select8 bit x y = if bit = 1 then x else y := by
  have hbit : bit = 0 ∨ bit = 1 := by bv_omega
  rcases hbit with rfl | rfl
  · calc select8 0 x y = (0#8 &&& x) ||| (BitVec.allOnes 8 &&& y) := rfl
      _ = y := by rw [BitVec.zero_and, BitVec.allOnes_and, BitVec.zero_or]
  · calc select8 1 x y = (BitVec.allOnes 8 &&& x) ||| (0#8 &&& y) := rfl
      _ = x := by rw [BitVec.zero_and, BitVec.allOnes_and, BitVec.or_zero]

theorem selectBytes_eq {bit : Byte} (h : bit.toNat ≤ 1) {as bs : List Byte} (hlen : as.length = bs.length) :
    selectBytes bit as bs = if bit = 1 then as else bs := by
  induction as generalizing bs with
  | nil => simp [selectBytes, List.length_eq_zero_iff.mp hlen.symm]
  | cons a as ih =>
    cases bs with
    | nil => cases hlen
    | cons b bs =>
      rw [selectBytes, select8_eq h, ih (Nat.succ.inj hlen)]
      split <;> rfl

theorem exec_select {bit : Byte} {payload : List Byte} (hbit : bit.toNat ≤ 1) (heven : payload.length % 2 = 0)
    (s : State) :
    exec (.select bit 0 payload) s = .next (respond okCode 0x05
      (selectBytes bit (payload.take (payload.length / 2)) (payload.drop (payload.length / 2))) s) :=
  (complete_checks_pass (by simp) (Nat.not_lt.mpr hbit)).trans (complete_check_passes (by omega))

/-- Settles O29: an even payload has two halves of one length. -/
theorem selectPicksAHalf : Obligations.SelectPicksAHalf := by
  intro bit b payload s
  refine ⟨?ok, complete_checks_fail, ?length⟩
  case ok =>
    rintro rfl hbit heven
    have hhalves : (payload.take (payload.length / 2)).length = (payload.drop (payload.length / 2)).length := by
      rw [List.length_take, List.length_drop]; omega
    exact ⟨by rw [exec_select hbit heven, selectBytes_eq hbit hhalves], select8_eq hbit⟩
  case length =>
    rintro rfl hbit hodd
    exact (complete_checks_pass (by simp) (Nat.not_lt.mpr hbit)).trans (complete_check_fails hodd)

/-! ### `compare`, `equal`, `CMP` and `EQUAL` (R111 to R114) -/

/-- Two equal strings are both empty or both not. -/
theorem equalBytes_eq (as bs : List Byte) : equalBytes as bs = if as = bs ∧ as ++ bs ≠ [] then 1 else 0 := by
  rw [equalBytes, compareBytes_eq]
  by_cases h : as = bs
  · subst h
    cases as <;> simp
  · simp [h]

theorem exec_cmp {n : Half} {payload : List Byte} (hn : n.toNat ≤ payload.length) (s : State) :
    exec (.cmp 0 n payload) s =
      .next (respond okCode 0x06 [compareBytes (payload.take n.toNat) (payload.drop n.toNat)] s) :=
  complete_checks_pass (by simp) (Nat.not_lt.mpr hn)

theorem exec_equal {n : Half} {payload : List Byte} (hn : n.toNat ≤ payload.length) (s : State) :
    exec (.equal 0 n payload) s =
      .next (respond okCode 0x07 [equalBytes (payload.take n.toNat) (payload.drop n.toNat)] s) :=
  complete_checks_pass (by simp) (Nat.not_lt.mpr hn)

/-- Settles O30: the two strings together are the payload. -/
theorem cmpAndEqualCompareStrings : Obligations.CmpAndEqualCompareStrings := by
  intro a n payload s
  refine ⟨?ok, fun h => ⟨complete_checks_fail h, complete_checks_fail h⟩⟩
  rintro rfl hn
  constructor
  · rw [exec_cmp hn, compareBytes_eq]
  · rw [exec_equal hn, equalBytes_eq, List.take_append_drop]

end Sys2Proof.Machine
end

section
/-! PROOFS. The configuration family: the key loads of `SIV_INIT` and `CTR_INIT`, `WIPE`, `GET_STATUS` (41_config.md R131,
R133 to R135). -/

namespace Sys2Proof.Machine

/-! ### Commands that take no payload (R134, R135, R244) -/

/-- With no argument set, a payload fails the command. -/
theorem complete_payload_refused {a : Byte} {b : Half} {op : Byte} {payload : List Byte} {p : Proc (List Byte)} {s : State}
    (ha : a = 0) (hb : b = 0) (h : payload ≠ []) :
    complete op (if a ≠ 0 ∨ b ≠ 0 then .raise .badArg s else if payload.length ≠ 0 then .raise .length s else p) =
      .next (takeError op .length s) :=
  (complete_check_passes (by simp [ha, hb])).trans (complete_check_fails (mt List.length_eq_zero_iff.mp h))

/-- With neither arguments nor a payload, the command is left to what stands after its checks. -/
theorem complete_noOperands {a : Byte} {b : Half} {op : Byte} {payload : List Byte} {p : Proc (List Byte)} {s : State}
    (ha : a = 0) (hb : b = 0) (h : payload = []) :
    complete op (if a ≠ 0 ∨ b ≠ 0 then .raise .badArg s else if payload.length ≠ 0 then .raise .length s else p) =
      complete op p :=
  complete_checks_pass (by simp [ha, hb]) (by simp [h])

/-- Settles O35: past its two checks `WIPE` is `wipeRegisters`, which takes all but the log and the ports from reset. -/
theorem wipeKeepsOnlyTheLog : Obligations.WipeKeepsOnlyTheLog := fun _ _ _ _ =>
  ⟨complete_noOperands, complete_check_fails, complete_payload_refused⟩

/-! ### The status block (R35, R135) -/

/-- The byte that stands for a key length in the status block (R35). -/
def keyLenCode : KeyLen → Byte
  | .noKey => 0
  | .bytes16 => 16
  | .bytes32 => 32

theorem ofNat_keyLenBytes (k : KeyLen) : BitVec.ofNat 8 (keyLenBytes k) = keyLenCode k := by
  cases k <;> rfl

theorem ofNat_toNat_div {w : Nat} (x : BitVec w) (i : Nat) :
    BitVec.ofNat 8 (x.toNat / 256 ^ i) = x.extractLsb' (8 * i) 8 := by
  apply BitVec.eq_of_toNat_eq
  rw [BitVec.toNat_ofNat, BitVec.extractLsb'_toNat, Nat.shiftRight_eq_div_pow, Nat.pow_mul]

theorem beBytes_two_toNat (x : BitVec 16) : beBytes 2 x.toNat = [x.extractLsb' 8 8, x.extractLsb' 0 8] := by
  simp only [beBytes, ofNat_toNat_div]

theorem beBytes_four_toNat (x : BitVec 32) :
    beBytes 4 x.toNat = [x.extractLsb' 24 8, x.extractLsb' 16 8, x.extractLsb' 8 8, x.extractLsb' 0 8] := by
  simp only [beBytes, ofNat_toNat_div]

theorem statusBlock_eq (s : State) :
    statusBlock s =
      [mkindCode s.mkind, keyLenCode s.kmacLen, keyLenCode s.kctrLen, mstCode s.mst, BitVec.ofNat 8 s.pos.val,
        cstCode s.cst, BitVec.ofNat 8 s.kpos.val, s.lasterr, s.esticky.extractLsb' 8 8, s.esticky.extractLsb' 0 8,
        s.cnt.extractLsb' 24 8, s.cnt.extractLsb' 16 8, s.cnt.extractLsb' 8 8, s.cnt.extractLsb' 0 8] := by
  rw [statusBlock, ofNat_keyLenBytes, ofNat_keyLenBytes, beBytes_two_toNat, beBytes_four_toNat]
  rfl

/-- Settles O36: the codes in the status block are those of the registers' enumerations. -/
theorem getStatusReadsTheStatusBlock : Obligations.GetStatusReadsTheStatusBlock := by
  intro a b payload s
  refine ⟨fun ha hb hp => ?_, complete_check_fails, complete_payload_refused⟩
  calc exec (.getStatus a b payload) s = .next (respond okCode 0x14 (statusBlock s) s) := complete_noOperands ha hb hp
    _ = _ := by rw [statusBlock_eq]; rfl

/-! ### `CTR_INIT` (R133) -/

theorem keyLenOf_eq {n : Nat} (h : n = 16 ∨ n = 32) : keyLenOf n = if n = 16 then .bytes16 else .bytes32 := by
  rcases h with rfl | rfl <;> rfl

theorem exec_ctrInit {key : List Byte} (h : key.length = 16 ∨ key.length = 32) (s : State) :
    exec (.ctrInit 0 0 key) s = .next (respond okCode 0x12 [] (ctrLoad key s)) :=
  complete_checks_pass (by simp) (by omega)

/-- Settles O34: a key of either length fits the key register, which holds it filled up with zero bytes. -/
theorem ctrInitLoadsTheKey : Obligations.CtrInitLoadsTheKey := by
  intro a b key s
  refine ⟨?ok, complete_check_fails, ?keyLength⟩
  case ok =>
    rintro rfl rfl hlen
    refine ⟨keyRegOf key, keyRegBytes_keyRegOf (by omega), ?_⟩
    rw [exec_ctrInit hlen, ← keyLenOf_eq hlen]
    rfl
  case keyLength =>
    rintro rfl rfl h16 h32
    exact (complete_check_passes (by simp)).trans (complete_check_fails ⟨h16, h32⟩)

/-! ### `SIV_INIT` and `MAC_INIT` (R131, R132) -/

theorem exists_kindOf {a : Byte} (h : a = 1 ∨ a = 2) : ∃ kind, kindOf a = some kind := by
  rcases h with rfl | rfl
  · exact ⟨.cmac, rfl⟩
  · exact ⟨.pmac, rfl⟩

theorem kindOf_eq_none {a : Byte} (h1 : a ≠ 1) (h2 : a ≠ 2) : kindOf a = none := by
  rw [kindOf, if_neg h1, if_neg h2]

theorem sivInitCommand_badArg (E : Cipher) {a : Byte} {b : Half} (h : b ≠ 0 ∨ (a ≠ 1 ∧ a ≠ 2)) (key : List Byte)
    (s : State) : sivInitCommand E a b key s = .raise .badArg s := by
  rcases h with hb | ⟨h1, h2⟩
  · exact if_pos hb
  · rw [sivInitCommand, kindOf_eq_none h1 h2]
    exact ite_self _

theorem sivInitCommand_of_kindOf (E : Cipher) {a : Byte} {kind : MacKind} (h : kindOf a = some kind) (key : List Byte)
    (s : State) :
    sivInitCommand E a 0 key s =
      if key.length ≠ 32 ∧ key.length ≠ 64 then .raise .keyLength s
      else .ok [] (ctrLoad (splitKey key).2 (macLoad E kind (splitKey key).1 s)) := by
  rw [sivInitCommand, if_neg (not_not_intro rfl), h]

theorem exec_sivInit {a : Byte} {kind : MacKind} (h : kindOf a = some kind) {key : List Byte}
    (hlen : key.length = 32 ∨ key.length = 64) (s : State) :
    exec (.sivInit a 0 key) s =
      .next (respond okCode 0x10 [] (ctrLoad (splitKey key).2 (macLoad Config.E kind (splitKey key).1 s))) :=
  (congrArg (complete 0x10) (sivInitCommand_of_kindOf Config.E h key s)).trans (complete_check_passes (by omega))

theorem exec_macInit {a : Byte} {kind : MacKind} (h : kindOf a = some kind) {key : List Byte}
    (hlen : key.length = 16 ∨ key.length = 32) (s : State) :
    exec (.macInit a 0 key) s = .next (respond okCode 0x11 [] (macLoad Config.E kind key s)) := by
  refine (complete_check_passes (not_not_intro rfl)).trans ?_
  rw [h]
  exact complete_check_passes (by omega)

/-- A key of known length is read back from its register (R23). -/
theorem keyRegBytes_take_of_length {key : List Byte} {n : Nat} (h : key.length = n) (hn : n ≤ 32) :
    (keyRegBytes (keyRegOf key)).take n = key := by
  subst h
  exact keyRegBytes_take hn

theorem macLoad_kmac (E : Cipher) (kind : MacKind) (key : List Byte) (s : State) :
    (macLoad E kind key s).kmac = keyRegOf key := by
  cases kind <;> rfl

/-- A key load of either kind makes one request, on the zero block (R151, R171). -/
theorem macLoad_cipherPort (E : Cipher) (kind : MacKind) (key : List Byte) (s : State) :
    (macLoad E kind key s).cipherPort = s.cipherPort ++ [⟨.mac, 0⟩] := by
  cases kind <;> rfl

/-- The CTR key load neither reads nor writes the ports. -/
theorem registers_ctrLoad_respond (st op : Byte) (out key : List Byte) (s : State) :
    registers (ctrLoad key (respond st op out s)) = registers (ctrLoad key s) := rfl

/-- Settles O31: the two halves are keys that `MAC_INIT` and `CTR_INIT` accept, and the response between the two commands
touches no register. -/
theorem sivInitLoadsBothHalves : Obligations.SivInitLoadsBothHalves := by
  intro a b key s
  refine ⟨?ok, fun h => congrArg (complete 0x10) (sivInitCommand_badArg Config.E h key s), ?keyLength⟩
  case ok =>
    rintro rfl ha hlen
    obtain ⟨kind, hkind⟩ := exists_kindOf ha
    have hmac : (key.take (key.length / 2)).length = key.length / 2 := by rw [List.length_take]; omega
    have hctr : (key.drop (key.length / 2)).length = key.length / 2 := by rw [List.length_drop]; omega
    obtain ⟨hcmd, hresp⟩ := macLoad_streams Config.E kind (key.take (key.length / 2)) s
    have hport := macLoad_cipherPort Config.E kind (key.take (key.length / 2)) s
    refine ⟨_, _, _, exec_sivInit hkind hlen s, exec_macInit hkind (by omega) s, exec_ctrInit (by omega) _,
      (registers_ctrLoad_respond ..).symm, hport, rfl, hcmd, congrArg (· ++ _) hresp, ?macKey, ?ctrKey⟩
    case macKey =>
      change (keyRegBytes (macLoad Config.E kind (key.take (key.length / 2)) s).kmac).take _ = _
      rw [macLoad_kmac]
      exact keyRegBytes_take_of_length hmac (by omega)
    case ctrKey => exact keyRegBytes_take_of_length hctr (by omega)
  case keyLength =>
    rintro rfl ha h32 h64
    obtain ⟨kind, hkind⟩ := exists_kindOf ha
    exact (congrArg (complete 0x10) (sivInitCommand_of_kindOf Config.E hkind key s)).trans
      (complete_check_fails ⟨h32, h64⟩)

end Sys2Proof.Machine
end

section
/-! PROOFS. The MAC family in CMAC kind: `MAC_INIT`, `MAC_RESET`, `MAC_UPDATE`, `MAC_FINISH` (41_config.md R132,
42_cmac.md R151 to R157). -/

namespace Sys2Proof.Machine

/-! ### The commands of a loaded MAC unit past their checks, for both kinds (R152 to R154, R172 to R175) -/

theorem exec_macReset {s : State} {kind : MacKind} (hkind : s.mkind = some kind) :
    exec (.macReset 0 0 []) s = .next (respond okCode 0x20 [] (macReset s)) :=
  (complete_noOperands rfl rfl rfl).trans (by rw [hkind]; rfl)

theorem exec_macReset_noKey {s : State} (hkind : s.mkind = none) :
    exec (.macReset 0 0 []) s = .next (takeError 0x20 .noKey s) :=
  (complete_noOperands rfl rfl rfl).trans (by rw [hkind]; rfl)

theorem exec_macUpdate {s : State} {kind : MacKind} (hkind : s.mkind = some kind) (hmst : s.mst ≠ .finished)
    (bytes : List Byte) :
    exec (.macUpdate 0 0 bytes) s =
      complete 0x21 (andThen (macUpdate Config.E kind bytes s) fun _ s => .ok [] s) := by
  refine (complete_check_passes (by simp)).trans ?_
  rw [hkind]
  exact complete_check_passes hmst

theorem exec_macFinish {s : State} {kind : MacKind} (hkind : s.mkind = some kind) (hmst : s.mst ≠ .finished) :
    exec (.macFinish 0 0 []) s =
      .next (respond okCode 0x22 (blockBytes (macFinish Config.E kind s).1) (macFinish Config.E kind s).2) := by
  refine (complete_noOperands rfl rfl rfl).trans ?_
  rw [hkind]
  exact complete_check_passes hmst

theorem exec_macFinish_noKey {s : State} (hkind : s.mkind = none) :
    exec (.macFinish 0 0 []) s = .next (takeError 0x22 .noKey s) :=
  (complete_noOperands rfl rfl rfl).trans (by rw [hkind]; rfl)

theorem exec_macFinish_finished {s : State} {kind : MacKind} (hkind : s.mkind = some kind) (hmst : s.mst = .finished) :
    exec (.macFinish 0 0 []) s = .next (takeError 0x22 .macFinished s) := by
  refine (complete_noOperands rfl rfl rfl).trans ?_
  rw [hkind]
  exact complete_check_fails hmst

/-- Settles O37: `MAC_RESET` reads `MKIND` alone, so `macReset` runs in every state of the unit that has a key. -/
theorem macResetEmptiesTheUnit : Obligations.MacResetEmptiesTheUnit := by
  intro a b payload s
  refine ⟨?ok, complete_check_fails, complete_payload_refused, ?noKey⟩
  case ok =>
    rintro rfl rfl rfl hkey
    obtain ⟨kind, hkind⟩ := Option.ne_none_iff_exists'.mp hkey
    exact exec_macReset hkind
  case noKey =>
    rintro rfl rfl rfl hkind
    exact exec_macReset_noKey hkind

/-- Settles O40: past its checks `MAC_FINISH` is `cmacFinish`, whose one request is on the chain with the last block. -/
theorem cmacFinishAnswersTheTag : Obligations.CmacFinishAnswersTheTag := by
  intro a b payload s
  refine ⟨?ok, complete_check_fails, complete_payload_refused, ?noKey, ?finished⟩
  case ok =>
    rintro rfl rfl rfl hkind hmst
    exact exec_macFinish hkind hmst
  case noKey =>
    rintro rfl rfl rfl hkind
    exact exec_macFinish_noKey hkind
  case finished =>
    rintro rfl rfl rfl hkind hmst
    exact exec_macFinish_finished hkind hmst

/-! ### `MAC_INIT` (R132, R151) -/

theorem macInitCommand_badArg (E : Cipher) {a : Byte} {b : Half} (h : b ≠ 0 ∨ (a ≠ 1 ∧ a ≠ 2)) (key : List Byte)
    (s : State) : macInitCommand E a b key s = .raise .badArg s := by
  rcases h with hb | ⟨h1, h2⟩
  · exact if_pos hb
  · rw [macInitCommand, kindOf_eq_none h1 h2]
    exact ite_self _

theorem macInitCommand_of_kindOf (E : Cipher) {a : Byte} {kind : MacKind} (h : kindOf a = some kind) (key : List Byte)
    (s : State) :
    macInitCommand E a 0 key s =
      if key.length ≠ 16 ∧ key.length ≠ 32 then .raise .keyLength s else .ok [] (macLoad E kind key s) := by
  rw [macInitCommand, if_neg (not_not_intro rfl), h]

/-- A key just loaded is the key the requests are made with (R23, R55). -/
theorem keyBytes_mac_of_loaded {key : List Byte} (h : key.length = 16 ∨ key.length = 32) {s : State}
    (hk : s.kmac = keyRegOf key) (hl : s.kmacLen = keyLenOf key.length) : keyBytes .mac s = key := by
  rw [keyBytes, hk, hl, keyLenBytes_keyLenOf h]
  exact keyRegBytes_take (by omega)

/-- `mac_load` of the CMAC kind (R132, R151, R152): the request goes out under the key just loaded. -/
theorem macLoad_cmac (E : Cipher) {key : List Byte} (h : key.length = 16 ∨ key.length = 32) (s : State) :
    macLoad E .cmac key s =
      { s with
        kmac := keyRegOf key, kmacLen := keyLenOf key.length, mkind := some .cmac
        k1 := dbl (E key 0), k2 := dbl (dbl (E key 0)), lTab := Vector.replicate 31 0, linv := 0
        chain := 0, buf := 0, pos := 0, offset := 0, tag := 0, cnt := 0, mst := .fresh
        cipherPort := s.cipherPort ++ [⟨.mac, 0⟩] } := by
  simp only [macLoad, cmacConstruct, encipher, macReset, keyBytes_mac_of_loaded h]

/-- Settles O32: past its checks `MAC_INIT` is `mac_load`, whose key register holds the key filled up with zero bytes. -/
theorem macInitBuildsCmacSubkeys : Obligations.MacInitBuildsCmacSubkeys := by
  intro a b key s
  refine ⟨?ok, fun h => congrArg (complete 0x11) (macInitCommand_badArg Config.E h key s), ?keyLength⟩
  case ok =>
    rintro rfl rfl hlen
    refine ⟨keyRegOf key, keyRegBytes_keyRegOf (by omega), ?_⟩
    rw [exec_macInit (kind := .cmac) rfl hlen, macLoad_cmac Config.E hlen, keyLenOf_eq hlen]
  case keyLength =>
    rintro rfl ha h16 h32
    obtain ⟨kind, hkind⟩ := exists_kindOf ha
    exact (congrArg (complete 0x11) (macInitCommand_of_kindOf Config.E hkind key s)).trans
      (complete_check_fails ⟨h16, h32⟩)

/-! ### `MAC_UPDATE`: several pieces are one piece (R153) -/

theorem cmacAbsorbAll_append (E : Cipher) (x y : List Byte) (s : State) :
    cmacAbsorbAll E (x ++ y) s = cmacAbsorbAll E y (cmacAbsorbAll E x s) := by
  induction x generalizing s with
  | nil => rfl
  | cons d x ih => exact ih (cmacAbsorb E d s)

/-- The update is beside the absorbing of bytes in CMAC kind: it can be done before or after a full buffer is processed,
before or after a byte is buffered, and does not touch the position that chooses between the two. -/
structure BesideAbsorbing (E : Cipher) (f : State → State) : Prop where
  pos : ∀ s, (f s).pos = s.pos
  block : ∀ s, cmacBlock E (f s) = f (cmacBlock E s)
  byte : ∀ d s, bufferByte d (f s) = f (bufferByte d s)

theorem BesideAbsorbing.absorb {E : Cipher} {f : State → State} (hf : BesideAbsorbing E f) (d : Byte) (s : State) :
    cmacAbsorb E d (f s) = f (cmacAbsorb E d s) := by
  unfold cmacAbsorb
  rw [hf.pos]
  by_cases hfull : s.pos = 16
  · rw [if_pos hfull, if_pos hfull, hf.block, hf.byte]
  · rw [if_neg hfull, if_neg hfull, hf.byte]

theorem BesideAbsorbing.absorbAll {E : Cipher} {f : State → State} (hf : BesideAbsorbing E f) (ds : List Byte)
    (s : State) : cmacAbsorbAll E ds (f s) = f (cmacAbsorbAll E ds s) := by
  induction ds generalizing s with
  | nil => rfl
  | cons d ds ih => rw [cmacAbsorbAll, hf.absorb, ih, cmacAbsorbAll]

/-- `MST <- Accumulating` (R31). -/
def accumulating (s : State) : State := { s with mst := .accumulating }

/-- Absorbing bytes does not read `MST`. -/
theorem besideAbsorbing_accumulating (E : Cipher) : BesideAbsorbing E accumulating :=
  ⟨fun _ => rfl, fun _ => rfl, fun _ _ => rfl⟩

/-- Absorbing bytes does not read the response stream. -/
theorem besideAbsorbing_respond (E : Cipher) (st op : Byte) (out : List Byte) : BesideAbsorbing E (respond st op out) :=
  ⟨fun _ => rfl, fun _ => rfl, fun _ _ => rfl⟩

theorem cmacUpdate_eq (E : Cipher) (bytes : List Byte) (s : State) :
    cmacUpdate E bytes s = accumulating (cmacAbsorbAll E bytes s) := rfl

theorem cmacUpdate_append (E : Cipher) (x y : List Byte) (s : State) :
    cmacUpdate E (x ++ y) s = cmacUpdate E y (cmacUpdate E x s) := by
  rw [cmacUpdate_eq, cmacUpdate_eq, cmacUpdate_eq, cmacAbsorbAll_append, (besideAbsorbing_accumulating E).absorbAll]
  rfl

theorem cmacUpdate_respond (E : Cipher) (bytes : List Byte) (st op : Byte) (out : List Byte) (s : State) :
    cmacUpdate E bytes (respond st op out s) = respond st op out (cmacUpdate E bytes s) := by
  rw [cmacUpdate_eq, (besideAbsorbing_respond E st op out).absorbAll]
  rfl

/-- What `mac_update` in CMAC kind can do: it changes `CHAIN`, `BUF`, `POS`, `MST` and the cipher port alone (R37, R153). -/
theorem cmacUpdate_cases (E : Cipher) (bytes : List Byte) (s : State) :
    ∃ chain buf pos reqs, cmacUpdate E bytes s =
      { s with
        chain := chain, buf := buf, pos := pos, mst := .accumulating, cipherPort := s.cipherPort ++ reqs } := by
  obtain ⟨chain, buf, pos, reqs, e⟩ := cmacAbsorbAll_cases E bytes s
  exact ⟨chain, buf, pos, reqs.map (CipherReq.mk .mac), by rw [cmacUpdate, e]⟩

@[simp] theorem cmacUpdate_mst (E : Cipher) (bytes : List Byte) (s : State) :
    (cmacUpdate E bytes s).mst = .accumulating := rfl

theorem cmacUpdate_mkind (E : Cipher) (bytes : List Byte) (s : State) : (cmacUpdate E bytes s).mkind = s.mkind := by
  obtain ⟨chain, buf, pos, reqs, e⟩ := cmacUpdate_cases E bytes s
  rw [e]

theorem cmacUpdate_respStream (E : Cipher) (bytes : List Byte) (s : State) :
    (cmacUpdate E bytes s).respStream = s.respStream := by
  obtain ⟨chain, buf, pos, reqs, e⟩ := cmacUpdate_cases E bytes s
  rw [e]

theorem cmacUpdate_sameKeys (E : Cipher) (bytes : List Byte) (s : State) : SameKeys s (cmacUpdate E bytes s) := by
  obtain ⟨chain, buf, pos, reqs, e⟩ := cmacUpdate_cases E bytes s
  rw [e]
  exact SameKeys.refl s

/-- One byte into a buffer with room (R153). -/
theorem cmacUpdate_room (E : Cipher) {s : State} (h : s.pos.val < 16) (d : Byte) :
    cmacUpdate E [d] s = { s with buf := setBlockByte s.buf s.pos.val d, pos := s.pos + 1, mst := .accumulating } := by
  have hroom : s.pos ≠ 16 := fun e => absurd h (by rw [e]; decide)
  rw [cmacUpdate, cmacAbsorbAll, cmacAbsorb, if_neg hroom]
  rfl

/-- One byte behind a full buffer, which is processed first (R153). -/
theorem cmacUpdate_full (E : Cipher) {s : State} (h : s.pos = 16) (d : Byte) :
    cmacUpdate E [d] s =
      { s with
        chain := E (keyBytes .mac s) (s.chain ^^^ s.buf), buf := setBlockByte 0 0 d, pos := 1, mst := .accumulating
        cipherPort := s.cipherPort ++ [⟨.mac, s.chain ^^^ s.buf⟩] } := by
  rw [cmacUpdate, cmacAbsorbAll, cmacAbsorb, if_pos h]
  rfl

/-- `MAC_UPDATE` in CMAC kind accepts any piece (R153). -/
theorem exec_macUpdate_cmac {s : State} (hkind : s.mkind = some .cmac) (hmst : s.mst ≠ .finished) (bytes : List Byte) :
    exec (.macUpdate 0 0 bytes) s = .next (respond okCode 0x21 [] (cmacUpdate Config.E bytes s)) :=
  exec_macUpdate hkind hmst bytes

/-- The unit goes on accepting pieces after one. -/
theorem exec_macUpdate_cmac_next {s : State} (hkind : s.mkind = some .cmac) (x y : List Byte) :
    exec (.macUpdate 0 0 y) (respond okCode 0x21 [] (cmacUpdate Config.E x s)) =
      .next (respond okCode 0x21 [] (respond okCode 0x21 [] (cmacUpdate Config.E (x ++ y) s))) := by
  have hkind' : (respond okCode 0x21 [] (cmacUpdate Config.E x s)).mkind = some .cmac :=
    (cmacUpdate_mkind Config.E x s).trans hkind
  rw [exec_macUpdate_cmac hkind' (by simp), cmacUpdate_respond, cmacUpdate_append]

/-- Settles O38: every clause is `cmacUpdate` on its piece; two pieces differ from their concatenation by one response. -/
theorem cmacUpdateFeedsBytes : Obligations.CmacUpdateFeedsBytes := by
  intro s hkind hmst
  have hexec := exec_macUpdate_cmac hkind hmst
  refine ⟨hexec [], fun d hroom => ?room, fun d hfull => ?full, fun bytes => ?frame, fun x y t u ht hu => ?pieces⟩
  case room => rw [hexec, cmacUpdate_room Config.E hroom]
  case full => rw [hexec, cmacUpdate_full Config.E hfull]
  case frame =>
    obtain ⟨chain, buf, pos, reqs, e⟩ := cmacUpdate_cases Config.E bytes s
    exact ⟨chain, buf, pos, reqs, by rw [hexec, e]⟩
  case pieces =>
    obtain rfl := Host.Outcome.next.inj ((hexec x).symm.trans ht)
    obtain rfl := Host.Outcome.next.inj ((exec_macUpdate_cmac_next hkind x y).symm.trans hu)
    rw [hexec, respond_respStream, cmacUpdate_respStream, respond, cmacUpdate_respStream]
    rfl

/-! ### A digest fed in pieces (R157) -/

/-- `t` stands in a CMAC digest that was started from the keys of `s`: it holds the message `m`, and its blocks before the
last piece have gone out, one request each. -/
structure CmacDigest (s : State) (m : List Byte) (t : State) : Prop where
  kind : t.mkind = some .cmac
  notFinished : t.mst ≠ .finished
  sameKeys : SameKeys s t
  holds : CmacHolds Config.E t m
  requests : ∃ reqs, t.cipherPort = s.cipherPort ++ reqs ∧
    reqs.map CipherReq.key = List.replicate (wholeBlocks m.length) .mac

/-- `MAC_RESET` starts the digest of the empty message (R152). -/
theorem cmacDigest_macReset {s : State} (hkind : s.mkind = some .cmac) (out : List Byte) :
    CmacDigest s [] (respond okCode 0x20 out (macReset s)) :=
  ⟨hkind, by simp, SameKeys.refl s, cmacHolds_macReset Config.E s, [], by simp, rfl⟩

/-- `MAC_UPDATE` goes on with the digest of the longer message (R153). -/
theorem CmacDigest.update {s t : State} {m : List Byte} (h : CmacDigest s m t) (x out : List Byte) :
    CmacDigest s (m ++ x) (respond okCode 0x21 out (cmacUpdate Config.E x t)) := by
  obtain ⟨hkind, -, hkeys, hholds, reqs, hport, hreqs⟩ := h
  obtain ⟨hholds', hport'⟩ := cmacAbsorbAll_holds x hholds
  rw [hport, List.append_assoc] at hport'
  refine ⟨(cmacUpdate_mkind Config.E x t).trans hkind, by simp,
    hkeys.trans (cmacUpdate_sameKeys Config.E x t), hholds', _, hport', ?_⟩
  have hmono : wholeBlocks m.length ≤ wholeBlocks (m ++ x).length := wholeBlocks_mono (by simp)
  rw [List.map_append, hreqs, blockRequests_keys, List.replicate_append_replicate, Nat.add_sub_cancel' hmono]

/-- Any pieces in turn take the digest to the message they spell (R157). -/
theorem CmacDigest.runs {s t : State} {m : List Byte} (h : CmacDigest s m t) (pieces : List (List Byte)) :
    ∃ u, Runs (pieces.map (.macUpdate 0 0)) t u ∧ CmacDigest s (m ++ pieces.flatten) u := by
  induction pieces generalizing t m with
  | nil => exact ⟨t, rfl, by simpa using h⟩
  | cons x pieces ih =>
    obtain ⟨u, hruns, hu⟩ := ih (h.update x [])
    exact ⟨u, ⟨_, exec_macUpdate_cmac h.kind h.notFinished x, hruns⟩, by simpa using hu⟩

/-- `MAC_FINISH` answers the tag of the message held, with one more request (R154, R157). -/
theorem CmacDigest.finish {s t : State} {m : List Byte} (h : CmacDigest s m t) :
    ∃ u reqs, exec (.macFinish 0 0 []) t = .next u ∧
      u.respStream = t.respStream ++
        responsePacket okCode 0x22 (blockBytes (cmacTag Config.E (keyBytes .mac s) s.k1 s.k2 m)) ∧
      u.cipherPort = s.cipherPort ++ reqs ∧ reqs.map CipherReq.key = List.replicate (macRequests m.length) .mac := by
  obtain ⟨hkind, hmst, hkeys, hholds, reqs, hport, hreqs⟩ := h
  have htag : cmacTag Config.E (keyBytes .mac t) t.k1 t.k2 m = cmacTag Config.E (keyBytes .mac s) s.k1 s.k2 m :=
    congrFun (hkeys.macTag Config.E .cmac) m
  have hfinish := cmacFinish_holds hholds
  rw [htag] at hfinish
  refine ⟨_, reqs ++ [⟨.mac, t.chain ^^^ cmacLastBlock t⟩], exec_macFinish hkind hmst, ?_, ?_, ?_⟩
  · rw [respond_respStream, macFinish, hfinish]
  · rw [respond_cipherPort, macFinish, hfinish, hport, List.append_assoc]
  · rw [List.map_append, hreqs, macRequests_eq, List.replicate_succ']
    rfl

/-- Settles O42: `MAC_RESET` starts a digest, the pieces take it to the whole message, and `MAC_FINISH` ends it. -/
theorem cmacDigestIsTheClosedForm : Obligations.CmacDigestIsTheClosedForm := by
  intro s pieces hkind
  obtain ⟨t, hruns, ht⟩ := (cmacDigest_macReset hkind []).runs pieces
  obtain ⟨u, reqs, hfinish, hresp, hport, hreqs⟩ := ht.finish
  exact ⟨t, u, reqs, ⟨_, exec_macReset hkind, hruns⟩, hfinish, hresp, hport, hreqs⟩

end Sys2Proof.Machine
end

section
/-! PROOFS. What a command does past the checks of stages 1 and 2 (60_exceptions.md R244), and the transitions of `MST`
(42_cmac.md R156). -/

namespace Sys2Proof.Machine

/-! ### Checks in the order of R244 -/

/-- The command raises the early error in the state it found, and without one is as `past` says. -/
def Checked (s : State) (early : Option Err) (p : Proc (List Byte)) (past : Proc (List Byte) → Prop) : Prop :=
  match early with
  | some e => p = .raise e s
  | none => past p

section

variable {s : State} {p : Proc (List Byte)} {past : Proc (List Byte) → Prop} {c d : Prop} [Decidable c] [Decidable d]
  {e : Err} {rest late : Option Err}

theorem Checked.pass (h : past p) : Checked s none p past := h

theorem Checked.error (h : Checked s (some e) p past) : p = .raise e s := h

/-- A check of the table that the command is known to make. -/
theorem Checked.checkOf (hfails : c → p = .raise e s) (hpasses : ¬c → Checked s rest p past) :
    Checked s (if c then some e else rest) p past := by
  split
  case isTrue h => exact hfails h
  case isFalse h => exact hpasses h

/-- A check that stands alike in the table and in the command. -/
theorem Checked.check (hpasses : ¬c → Checked s rest p past) :
    Checked s (if c then some e else rest) (if c then .raise e s else p) past :=
  .checkOf (fun h => if_pos h) fun h => by rw [if_neg h]; exact hpasses h

/-- The check of `MKIND` (R244, stage 2). -/
theorem Checked.keyLoaded (hnone : s.mkind = none → p = .raise .noKey s)
    (hsome : ∀ kind, s.mkind = some kind → Checked s rest p past) :
    Checked s (if s.mkind = none then some .noKey else rest) p past :=
  .checkOf hnone fun h => by
    obtain ⟨kind, hkind⟩ := Option.ne_none_iff_exists'.mp h
    exact hsome kind hkind

/-- The check of both keys (R244, stage 2). -/
theorem Checked.keysLoaded {body : MacKind → Proc (List Byte)} (hnone : s.mkind = none → p = .raise .noKey s)
    (hsome : ∀ kind, s.mkind = some kind → p = if s.kctrLen = .noKey then .raise .noKey s else body kind)
    (hpast : ∀ kind, s.mkind = some kind → past (body kind)) :
    Checked s (if s.mkind = none ∨ s.kctrLen = .noKey then some .noKey else none) p past := by
  cases hkind : s.mkind with
  | none => exact .checkOf (fun _ => hnone hkind) fun h => absurd (.inl rfl) h
  | some kind =>
    rw [hsome kind hkind]
    refine .checkOf (fun h => if_pos (h.resolve_left (Option.some_ne_none kind))) fun h => ?_
    rw [if_neg fun hk => h (.inr hk)]
    exact .pass (hpast kind hkind)

theorem ite_some_or : (if c then some e else rest).or late = if c then some e else rest.or late := by
  split <;> rfl

/-- A check of stage 1 that the command is known to make. -/
theorem Checked.packetOf (hfails : c → p = .raise e s) (hpasses : ¬c → Checked s (rest.or late) p past) :
    Checked s ((if c then some e else rest).or late) p past := by
  rw [ite_some_or]
  exact .checkOf hfails hpasses

/-- A check of stage 1 that stands alike in the table and in the command. -/
theorem Checked.packet (hpasses : ¬c → Checked s (rest.or late) p past) :
    Checked s ((if c then some e else rest).or late) (if c then .raise e s else p) past := by
  rw [ite_some_or]
  exact .check hpasses

/-- A check of stage 1 on both header arguments, which the command makes one by one. -/
theorem Checked.packetTwo (hpasses : ¬c → ¬d → Checked s (rest.or late) p past) :
    Checked s ((if c ∨ d then some e else rest).or late) (if c then .raise e s else if d then .raise e s else p)
      past := by
  by_cases hc : c
  · exact .packetOf (fun _ => if_pos hc) fun h => absurd (.inl hc) h
  · rw [if_neg hc]
    refine .packetOf (fun h => if_pos (h.resolve_left hc)) fun h => ?_
    have hd : ¬d := fun hd => h (.inr hd)
    rw [if_neg hd]
    exact hpasses hc hd

end

/-! ### The commands past their checks -/

/-- The opcodes of the commands that only answer: the helpers and `GET_STATUS`. -/
def answerOpcodes : List Byte := [0x01, 0x02, 0x03, 0x04, 0x05, 0x06, 0x07, 0x14]

/-- What the commands do past stages 1 and 2 of R244, with what those checks leave for the body to rely on. -/
inductive PastChecks (E : Cipher) (s : State) : Instr → Proc (List Byte) → Prop
  /-- The helpers and `GET_STATUS`. -/
  | answer {i : Instr} {out : List Byte} (hop : i.opcode ∈ answerOpcodes) : PastChecks E s i (.ok out s)
  | sivInit {a : Byte} {b : Half} {key : List Byte} {kind : MacKind} (hkind : kindOf a = some kind) :
    PastChecks E s (.sivInit a b key) (.ok [] (ctrLoad (splitKey key).2 (macLoad E kind (splitKey key).1 s)))
  | macInit {a : Byte} {b : Half} {key : List Byte} {kind : MacKind} (hkind : kindOf a = some kind) :
    PastChecks E s (.macInit a b key) (.ok [] (macLoad E kind key s))
  | ctrInit {a : Byte} {b : Half} {key : List Byte} : PastChecks E s (.ctrInit a b key) (.ok [] (ctrLoad key s))
  | wipe {a : Byte} {b : Half} {payload : List Byte} : PastChecks E s (.wipe a b payload) (.ok [] (wipeRegisters s))
  | macReset {a : Byte} {b : Half} {payload : List Byte} : PastChecks E s (.macReset a b payload) (.ok [] (macReset s))
  | macUpdate {a : Byte} {b : Half} {payload : List Byte} {kind : MacKind} (hkind : s.mkind = some kind)
      (hmst : s.mst ≠ .finished) :
    PastChecks E s (.macUpdate a b payload) (andThen (macUpdate E kind payload s) fun _ s => .ok [] s)
  | macFinish {a : Byte} {b : Half} {payload : List Byte} {kind : MacKind} (hkind : s.mkind = some kind)
      (hmst : s.mst ≠ .finished) :
    PastChecks E s (.macFinish a b payload) (.ok (blockBytes (macFinish E kind s).1) (macFinish E kind s).2)
  | ctrSetiv {a : Byte} {b : Half} {payload : List Byte} :
    PastChecks E s (.ctrSetiv a b payload) (.ok [] (ctrSetiv (blockOf payload) s))
  | ctrXor {a : Byte} {b : Half} {payload : List Byte} (hcst : s.cst ≠ .idle) :
    PastChecks E s (.ctrXor a b payload) (ctrXor E payload s)
  | s2v {nad : Byte} {b : Half} {payload p : List Byte} {items : List (List Byte)} {kind : MacKind}
      (hparse : parseVector nad payload = .ok (items, p)) (hkind : s.mkind = some kind) :
    PastChecks E s (.s2v nad b payload)
      (endingWith s2vEnd (andThen (s2v E kind items p s) fun v s => .ok (blockBytes v) s))
  | sivSeal {nad : Byte} {b : Half} {payload p : List Byte} {items : List (List Byte)} {kind : MacKind}
      (hparse : parseVector nad payload = .ok (items, p)) (hlen : p.length ≤ maxSealPlaintext)
      (hkind : s.mkind = some kind) :
    PastChecks E s (.sivSeal nad b payload) (endingWith sivEnd (sealBody E kind items p s))
  | sivOpen {nad : Byte} {b : Half} {payload c : List Byte} {items : List (List Byte)} {kind : MacKind}
      (hparse : parseVector nad payload = .ok (items, c)) (hlen : 16 ≤ c.length) (hkind : s.mkind = some kind) :
    PastChecks E s (.sivOpen nad b payload) (endingWith (fun s => sivEnd (wipeP s)) (openBody E kind items c s))

/-- A command that only answers, past its last check. -/
theorem Checked.answer {E : Cipher} {s : State} {i : Instr} {out : List Byte} (hop : answerOpcodes.elem i.opcode = true) :
    Checked s none (.ok out s) (PastChecks E s i) := .pass (.answer (List.mem_of_elem_eq_true hop))

/-- Header arguments of a key load that pass its check name a kind (R74, R131, R132). -/
theorem exists_kindOf_of_args {a : Byte} {b : Half} (h : ¬(b ≠ 0 ∨ (a ≠ 1 ∧ a ≠ 2))) :
    b = 0 ∧ ∃ kind, kindOf a = some kind := by
  obtain ⟨hb, ha⟩ := not_or.mp h
  have hkind : a = 1 ∨ a = 2 := by
    by_cases h1 : a = 1
    · exact .inl h1
    · exact .inr (Decidable.not_not.mp fun h2 => ha ⟨h1, h2⟩)
  exact ⟨Decidable.not_not.mp hb, exists_kindOf hkind⟩

/-- Parsing a vector fails with the error the table names, or gives a final string of the length the table reads (R75). -/
theorem parseVector_cases (nad : Byte) (payload : List Byte) :
    (∃ e, parseVector nad payload = .error e ∧ vectorError nad payload = some e) ∨
      ∃ items final, parseVector nad payload = .ok (items, final) ∧ vectorError nad payload = none ∧
        finalLength nad payload = final.length := by
  unfold parseVector vectorError finalLength maxAd
  by_cases hmany : nad.toNat > 126
  · exact .inl ⟨.tooManyAd, by rw [if_pos hmany], by rw [if_pos hmany]⟩
  · rw [if_neg hmany, if_neg hmany]
    cases hitems : parseItems nad.toNat payload with
    | none => exact .inl ⟨.framing, rfl, rfl⟩
    | some r => exact .inr ⟨r.1, r.2, rfl, rfl, rfl⟩

/-- The check of a framed vector (R75, R244). -/
theorem Checked.vector {s : State} {p : Proc (List Byte)} {past : Proc (List Byte) → Prop} {rest : Option Err}
    {nad : Byte} {payload : List Byte} (herror : ∀ e, parseVector nad payload = .error e → p = .raise e s)
    (hok : ∀ items final, parseVector nad payload = .ok (items, final) → finalLength nad payload = final.length →
      Checked s rest p past) : Checked s ((vectorError nad payload).or rest) p past := by
  obtain ⟨e, hparse, herr⟩ | ⟨items, final, hparse, hnone, hfinal⟩ := parseVector_cases nad payload
  · rw [herr]
    exact herror e hparse
  · rw [hnone]
    exact hok items final hparse hfinal

theorem sivInitCommand_checked (E : Cipher) (a : Byte) (b : Half) (key : List Byte) (s : State) :
    Checked s (earlyError (.sivInit a b key) s) (sivInitCommand E a b key s) (PastChecks E s (.sivInit a b key)) := by
  refine .packetOf (fun h => sivInitCommand_badArg E h key s) fun h => ?_
  obtain ⟨rfl, kind, hkind⟩ := exists_kindOf_of_args h
  rw [sivInitCommand_of_kindOf E hkind]
  exact .packet fun _ => .pass (.sivInit hkind)

theorem macInitCommand_checked (E : Cipher) (a : Byte) (b : Half) (key : List Byte) (s : State) :
    Checked s (earlyError (.macInit a b key) s) (macInitCommand E a b key s) (PastChecks E s (.macInit a b key)) := by
  refine .packetOf (fun h => macInitCommand_badArg E h key s) fun h => ?_
  obtain ⟨rfl, kind, hkind⟩ := exists_kindOf_of_args h
  rw [macInitCommand_of_kindOf E hkind]
  exact .packet fun _ => .pass (.macInit hkind)

theorem macResetCommand_checked (E : Cipher) (a : Byte) (b : Half) (payload : List Byte) (s : State) :
    Checked s (earlyError (.macReset a b payload) s) (macResetCommand a b payload s)
      (PastChecks E s (.macReset a b payload)) := by
  refine .packet fun _ => .packet fun _ => .keyLoaded (fun h => by simp only [h]) fun kind hkind => ?_
  simp only [hkind]
  exact .pass .macReset

theorem macUpdateCommand_checked (E : Cipher) (a : Byte) (b : Half) (payload : List Byte) (s : State) :
    Checked s (earlyError (.macUpdate a b payload) s) (macUpdateCommand E a b payload s)
      (PastChecks E s (.macUpdate a b payload)) := by
  refine .packet fun _ => .keyLoaded (fun h => by simp only [h]) fun kind hkind => ?_
  simp only [hkind]
  exact .check fun hmst => .pass (.macUpdate hkind hmst)

theorem macFinishCommand_checked (E : Cipher) (a : Byte) (b : Half) (payload : List Byte) (s : State) :
    Checked s (earlyError (.macFinish a b payload) s) (macFinishCommand E a b payload s)
      (PastChecks E s (.macFinish a b payload)) := by
  refine .packet fun _ => .packet fun _ => .keyLoaded (fun h => by simp only [h]) fun kind hkind => ?_
  simp only [hkind]
  exact .check fun hmst => .pass (.macFinish hkind hmst)

theorem s2vCommand_checked (E : Cipher) (nad : Byte) (b : Half) (payload : List Byte) (s : State) :
    Checked s (earlyError (.s2v nad b payload) s) (s2vCommand E nad b payload s)
      (PastChecks E s (.s2v nad b payload)) := by
  refine .packet fun _ => .vector (fun e hparse => by simp only [hparse]) fun items p hparse _ => ?_
  simp only [hparse]
  refine .keyLoaded (fun h => by simp only [h]) fun kind hkind => ?_
  simp only [hkind]
  exact .pass (.s2v hparse hkind)

theorem sivSealCommand_checked (E : Cipher) (nad : Byte) (b : Half) (payload : List Byte) (s : State) :
    Checked s (earlyError (.sivSeal nad b payload) s) (sivSealCommand E nad b payload s)
      (PastChecks E s (.sivSeal nad b payload)) := by
  refine .packet fun _ => ?_
  rw [Option.or_assoc]
  refine .vector (fun e hparse => by simp only [hparse]) fun items p hparse hfinal => ?_
  simp only [hparse, hfinal]
  exact .packet fun hlen => .keysLoaded (fun h => by simp only [h]) (fun kind hkind => by simp only [hkind])
    fun kind hkind => .sivSeal hparse (Nat.not_lt.mp hlen) hkind

theorem sivOpenCommand_checked (E : Cipher) (nad : Byte) (b : Half) (payload : List Byte) (s : State) :
    Checked s (earlyError (.sivOpen nad b payload) s) (sivOpenCommand E nad b payload s)
      (PastChecks E s (.sivOpen nad b payload)) := by
  refine .packet fun _ => ?_
  rw [Option.or_assoc]
  refine .vector (fun e hparse => by simp only [hparse]) fun items c hparse hfinal => ?_
  simp only [hparse, hfinal]
  exact .packet fun hlen => .keysLoaded (fun h => by simp only [h]) (fun kind hkind => by simp only [hkind])
    fun kind hkind => .sivOpen hparse (Nat.not_lt.mp hlen) hkind

/-- Every command makes the checks of R244 in order, each in the state it found. -/
theorem commandOf_checked (E : Cipher) (i : Instr) (s : State) :
    Checked s (earlyError i s) (commandOf E i s) (PastChecks E s i) := by
  cases i with
  | dbl a b payload => exact .packet fun _ => .packet fun _ => .answer rfl
  | dblinv a b payload => exact .packet fun _ => .packet fun _ => .answer rfl
  | xor a n payload =>
    refine .packetTwo fun _ hn => ?_
    rw [List.length_drop, List.length_take_of_le (Nat.not_lt.mp hn)]
    exact .packet fun _ => .answer rfl
  | pad pos b payload => exact .packetTwo fun _ _ => .packet fun _ => .answer rfl
  | select bit b payload => exact .packetTwo fun _ _ => .packet fun _ => .answer rfl
  | cmp a n payload => exact .packetTwo fun _ _ => .answer rfl
  | equal a n payload => exact .packetTwo fun _ _ => .answer rfl
  | sivInit a b key => exact sivInitCommand_checked E a b key s
  | macInit a b key => exact macInitCommand_checked E a b key s
  | ctrInit a b key => exact .packet fun _ => .packet fun _ => .pass .ctrInit
  | wipe a b payload => exact .packet fun _ => .packet fun _ => .pass .wipe
  | getStatus a b payload => exact .packet fun _ => .packet fun _ => .answer rfl
  | macReset a b payload => exact macResetCommand_checked E a b payload s
  | macUpdate a b payload => exact macUpdateCommand_checked E a b payload s
  | macFinish a b payload => exact macFinishCommand_checked E a b payload s
  | ctrSetiv a b payload => exact .packet fun _ => .packet fun _ => .check fun _ => .pass .ctrSetiv
  | ctrXor a b payload => exact .packet fun _ => .check fun _ => .check fun hcst => .pass (.ctrXor hcst)
  | s2v nad b payload => exact s2vCommand_checked E nad b payload s
  | sivSeal nad b payload => exact sivSealCommand_checked E nad b payload s
  | sivOpen nad b payload => exact sivOpenCommand_checked E nad b payload s

/-- A command with an early error raises it in the state it found (R242, R244). -/
theorem commandOf_of_earlyError (E : Cipher) {i : Instr} {s : State} {e : Err} (h : earlyError i s = some e) :
    commandOf E i s = .raise e s := by
  have hchecked := commandOf_checked E i s
  rw [h] at hchecked
  exact hchecked.error

theorem commandOf_pastChecks (E : Cipher) {i : Instr} {s : State} (h : earlyError i s = none) :
    PastChecks E s i (commandOf E i s) := by
  have hchecked := commandOf_checked E i s
  rwa [h] at hchecked

/-! ### The transitions of `MST` (R31, R156) -/

/-- The opcodes of the commands that leave `MST` Fresh (R156). -/
def freshOpcodes : List Byte := [0x10, 0x11, 0x13, 0x20, 0x40, 0x41, 0x42]

/-- The opcodes of the commands that write `MST` (R156). -/
def mstOpcodes : List Byte := [0x10, 0x11, 0x13, 0x20, 0x21, 0x22, 0x40, 0x41, 0x42]

theorem mem_mstOpcodes_of_mem_freshOpcodes : ∀ op ∈ freshOpcodes, op ∈ mstOpcodes := by decide

/-- The transition of `MST` that a command with the given opcode byte makes past its checks (R156). -/
structure MstTransition (op : Byte) (s t : State) : Prop where
  fresh : op ∈ freshOpcodes → t.mst = .fresh
  update : op = 0x21 →
    t.mst = .accumulating ∨ (t.mst = .finished ∧ s.mkind = some .pmac ∧ t.lasterr = errCode .pmacLimit)
  finish : op = 0x22 → t.mst = .finished
  kept : op ∉ mstOpcodes → t.mst = s.mst

theorem mstTransition_fresh {op : Byte} {s t : State} (hop : op ∈ freshOpcodes) (ht : t.mst = .fresh) :
    MstTransition op s t where
  fresh _ := ht
  update := by rintro rfl; exact absurd hop (by decide)
  finish := by rintro rfl; exact absurd hop (by decide)
  kept h := absurd (mem_mstOpcodes_of_mem_freshOpcodes op hop) h

theorem mstTransition_update {s t : State}
    (ht : t.mst = .accumulating ∨ (t.mst = .finished ∧ s.mkind = some .pmac ∧ t.lasterr = errCode .pmacLimit)) :
    MstTransition 0x21 s t where
  fresh h := absurd h (by decide)
  update _ := ht
  finish h := absurd h (by decide)
  kept h := absurd (by decide) h

theorem mstTransition_finish {s t : State} (ht : t.mst = .finished) : MstTransition 0x22 s t where
  fresh h := absurd h (by decide)
  update h := absurd h (by decide)
  finish _ := ht
  kept h := absurd (by decide) h

theorem mstTransition_kept {op : Byte} {s t : State} (hop : op ∉ mstOpcodes) (ht : t.mst = s.mst) :
    MstTransition op s t where
  fresh h := absurd (mem_mstOpcodes_of_mem_freshOpcodes op h) hop
  update := by rintro rfl; exact absurd (by decide) hop
  finish := by rintro rfl; exact absurd (by decide) hop
  kept _ := ht

theorem not_mem_mstOpcodes_of_mem_answerOpcodes : ∀ op ∈ answerOpcodes, op ∉ mstOpcodes := by decide

theorem macFinish_mst (E : Cipher) (kind : MacKind) (s : State) : (macFinish E kind s).2.mst = .finished := by
  cases kind <;> rfl

/-- `MAC_UPDATE` past its checks leaves Accumulating, or the PMAC limit leaves Finished (R153, R173, R176). -/
theorem macUpdate_mst (E : Cipher) {kind : MacKind} {s : State} (hkind : s.mkind = some kind) (bytes : List Byte) :
    MstTransition 0x21 s (finalState (andThen (macUpdate E kind bytes s) fun _ s => .ok [] s)) := by
  cases kind with
  | cmac => exact mstTransition_update (.inl rfl)
  | pmac =>
    rw [macUpdate, pmacUpdate]
    obtain ⟨buf, pos, offset, tag, cnt, reqs, e⟩ | ⟨reqs, e⟩ := pmacAbsorbAll_cases E bytes s
    · rw [e, andThen_ok, andThen_ok]
      exact mstTransition_update (.inl rfl)
    · rw [e, andThen_raise, andThen_raise]
      exact mstTransition_update (.inr ⟨rfl, hkind, rfl⟩)

/-- The CTR unit's stream, whether it goes on or ends, leaves `MST` (R193, R194). -/
theorem ctrXor_mst (E : Cipher) (ds : List Byte) (s : State) : (finalState (ctrXor E ds s)).mst = s.mst := by
  obtain ⟨out, ctrblk, ks, kpos, reqs, e, -⟩ | ⟨reqs, e⟩ := ctrXor_cases E ds s
  · rw [e]; rfl
  · rw [e]; rfl

/-- What ends a SIV command decides the `MST` it leaves, with a value or with an error (R219). -/
theorem endingWith_mst {finish : State → State} {mst : MacState} (h : ∀ s, (finish s).mst = mst)
    (p : Proc (List Byte)) : (finalState (endingWith finish p)).mst = mst := by
  cases p with
  | ok out t => exact h t
  | raise e t => exact h t

theorem PastChecks.mstTransition {E : Cipher} {s : State} {i : Instr} {p : Proc (List Byte)} (h : PastChecks E s i p) :
    MstTransition i.opcode s (finalState p) := by
  cases h with
  | answer hop => exact mstTransition_kept (not_mem_mstOpcodes_of_mem_answerOpcodes _ hop) rfl
  | sivInit => exact mstTransition_fresh (op := 0x10) (by decide) rfl
  | macInit => exact mstTransition_fresh (op := 0x11) (by decide) rfl
  | ctrInit => exact mstTransition_kept (op := 0x12) (by decide) rfl
  | wipe => exact mstTransition_fresh (op := 0x13) (by decide) rfl
  | macReset => exact mstTransition_fresh (op := 0x20) (by decide) rfl
  | macUpdate hkind => exact macUpdate_mst E hkind _
  | macFinish => exact mstTransition_finish (macFinish_mst E _ s)
  | ctrSetiv => exact mstTransition_kept (op := 0x30) (by decide) rfl
  | ctrXor => exact mstTransition_kept (op := 0x31) (by decide) (ctrXor_mst E _ s)
  | s2v => exact mstTransition_fresh (op := 0x40) (by decide) (endingWith_mst s2vEnd_mst _)
  | sivSeal => exact mstTransition_fresh (op := 0x41) (by decide) (endingWith_mst sivEnd_mst _)
  | sivOpen => exact mstTransition_fresh (op := 0x42) (by decide) (endingWith_mst (fun s => sivEnd_mst (wipeP s)) _)

/-- Settles O45: a rejected command ends in the state it found, and past its checks each body makes its own transition. -/
theorem macStateTransitions : Obligations.MacStateTransitions := by
  intro i s t _ ht
  rw [exec_next_eq ht]
  refine ⟨fun h => ?rejected, fun h => ?past⟩
  case rejected =>
    obtain ⟨e, he⟩ := Option.ne_none_iff_exists'.mp h
    rw [commandOf_of_earlyError Config.E he]
    rfl
  case past =>
    obtain ⟨hfresh, hupdate, hfinish, hkept⟩ := (commandOf_pastChecks Config.E h).mstTransition
    exact ⟨hfresh, hupdate, hfinish, hkept⟩

end Sys2Proof.Machine
end

section
/-! PROOFS. The MAC family in PMAC kind: `MAC_INIT`, `MAC_UPDATE`, `MAC_FINISH` (41_config.md R132, 43_pmac.md R171 to
R177). -/

namespace Sys2Proof.Machine

/-- Settles O41: past its checks `MAC_FINISH` is `pmacFinish`, whose one request is on the tag with the last block. -/
theorem pmacFinishAnswersTheTag : Obligations.PmacFinishAnswersTheTag := by
  intro a b payload s
  refine ⟨?ok, complete_check_fails, complete_payload_refused, ?noKey, ?finished⟩
  case ok =>
    rintro rfl rfl rfl hkind hmst
    exact exec_macFinish hkind hmst
  case noKey =>
    rintro rfl rfl rfl hkind
    exact exec_macFinish_noKey hkind
  case finished =>
    rintro rfl rfl rfl hkind hmst
    exact exec_macFinish_finished hkind hmst

/-! ### `MAC_INIT` (R132, R171) -/

theorem doublings_getElem_succ {n : Nat} (b : Block) (i : Nat) (h : i + 1 < (doublings n b).length) :
    (doublings n b)[i + 1] = dbl (doublings n b)[i] := by
  induction n generalizing b i with
  | zero => exact absurd h (Nat.not_lt_zero _)
  | succ n ih =>
    cases i with
    | zero =>
      cases n with
      | zero => exact absurd h (Nat.lt_irrefl _)
      | succ n => rfl
    | succ i => exact ih (dbl b) i (Nat.lt_of_succ_lt_succ h)

theorem lTable_getElem_zero (b : Block) : (lTable b)[0] = b := rfl

theorem lTable_getElem_succ (b : Block) (i : Nat) (h : i < 30) : (lTable b)[i + 1] = dbl (lTable b)[i] :=
  doublings_getElem_succ b i (by rw [doublings_length]; omega)

/-- `mac_load` of the PMAC kind (R132, R171, R172): the request goes out under the key just loaded. -/
theorem macLoad_pmac (E : Cipher) {key : List Byte} (h : key.length = 16 ∨ key.length = 32) (s : State) :
    macLoad E .pmac key s =
      { s with
        kmac := keyRegOf key, kmacLen := keyLenOf key.length, mkind := some .pmac
        k1 := 0, k2 := 0, lTab := lTable (E key 0), linv := dblinv (E key 0)
        chain := 0, buf := 0, pos := 0, offset := 0, tag := 0, cnt := 0, mst := .fresh
        cipherPort := s.cipherPort ++ [⟨.mac, 0⟩] } := by
  simp only [macLoad, pmacConstruct, encipher, macReset, keyBytes_mac_of_loaded h]

/-- Settles O33: past its checks `MAC_INIT` is `mac_load`, whose table doubles the answer to its one request. -/
theorem macInitBuildsPmacTable : Obligations.MacInitBuildsPmacTable := by
  intro key s hlen
  refine ⟨keyRegOf key, lTable (Config.E key 0), dblinv (Config.E key 0), keyRegBytes_keyRegOf (by omega),
    lTable_getElem_zero _, lTable_getElem_succ _, rfl, dbl_dblinv _, ?_⟩
  rw [exec_macInit (kind := .pmac) rfl hlen, macLoad_pmac Config.E hlen, keyLenOf_eq hlen]

/-! ### One block, by the table index (R16, R174, R176) -/

theorem not_two_pow_succ_ctz_dvd {n : Nat} (h : 1 ≤ n) : ¬2 ^ (ctz n + 1) ∣ n := by
  obtain ⟨hdvd, hodd⟩ := ctz_spec h
  rw [Nat.pow_succ, ← Nat.dvd_div_iff_mul_dvd hdvd]
  omega

/-- `ctz(n)` is the only `j` with `2^j` dividing `n` and `2^(j+1)` not (R16). -/
theorem ctz_eq_of_dvd {n j : Nat} (h : 1 ≤ n) (hdvd : 2 ^ j ∣ n) (hnot : ¬2 ^ (j + 1) ∣ n) : ctz n = j := by
  obtain hlt | heq | hgt := Nat.lt_trichotomy (ctz n) j
  · exact absurd (Nat.dvd_trans (Nat.pow_dvd_pow 2 hlt) hdvd) (not_two_pow_succ_ctz_dvd h)
  · exact heq
  · exact absurd (Nat.dvd_trans (Nat.pow_dvd_pow 2 hgt) (ctz_spec h).1) hnot

/-- What `pmac_block()` leaves when it takes the offset `o` (R174). -/
def pmacBlockWith (E : Cipher) (o : Block) (s : State) : State :=
  { s with
    offset := o, tag := s.tag ^^^ E (keyBytes .mac s) (o ^^^ s.buf), cnt := s.cnt + 1, buf := 0, pos := 0
    cipherPort := s.cipherPort ++ [⟨.mac, o ^^^ s.buf⟩] }

/-- `pmac_block()` where the table has the entry (R174). -/
theorem pmacBlock_entry (E : Cipher) {s : State} (h : ctz (s.cnt.toNat + 1) < 31) :
    pmacBlock E s = .ok () (pmacBlockWith E (s.offset ^^^ s.lTab[ctz (s.cnt.toNat + 1)]) s) := dif_pos h

/-- `pmac_block()` where the table ends before the entry (R176). -/
theorem pmacBlock_noEntry (E : Cipher) {s : State} (h : ¬ctz (s.cnt.toNat + 1) < 31) : pmacBlock E s = pmacLimit s :=
  dif_neg h

/-! ### `mac_update` in PMAC kind (R173) -/

theorem pmacUpdate_nil (E : Cipher) (s : State) : pmacUpdate E [] s = .ok () (accumulating s) := rfl

theorem pmacUpdate_cons (E : Cipher) (d : Byte) (ds : List Byte) (s : State) :
    pmacUpdate E (d :: ds) s = andThen (pmacMakeRoom E s) fun _ s => pmacUpdate E ds (bufferByte d s) := by
  rw [pmacUpdate, pmacAbsorbAll_cons, andThen_assoc]
  rfl

theorem pmacMakeRoom_room (E : Cipher) {s : State} (h : s.pos ≠ 16) : pmacMakeRoom E s = .ok () s := if_neg h

theorem pmacMakeRoom_full (E : Cipher) {s : State} (h : s.pos = 16) : pmacMakeRoom E s = pmacBlock E s := if_pos h

/-- What `mac_update` in PMAC kind can do: it changes `BUF`, `POS`, `OFFSET`, `TAG`, `CNT`, `MST` and the cipher port
alone, or abandons the digest (R37, R173, R176). -/
theorem pmacUpdate_cases (E : Cipher) (bytes : List Byte) (s : State) :
    (∃ buf pos offset tag cnt reqs, pmacUpdate E bytes s = .ok ()
      { s with
        buf := buf, pos := pos, offset := offset, tag := tag, cnt := cnt, mst := .accumulating
        cipherPort := s.cipherPort ++ reqs }) ∨
      ∃ reqs, pmacUpdate E bytes s = .raise .pmacLimit
        { s with
          buf := 0, pos := 0, offset := 0, tag := 0, cnt := 0, mst := .finished
          cipherPort := s.cipherPort ++ reqs } := by
  obtain ⟨buf, pos, offset, tag, cnt, reqs, e⟩ | ⟨reqs, e⟩ := pmacAbsorbAll_cases E bytes s
  · exact .inl ⟨buf, pos, offset, tag, cnt, reqs.map (CipherReq.mk .mac), by rw [pmacUpdate, e, andThen_ok]⟩
  · exact .inr ⟨reqs.map (CipherReq.mk .mac), by rw [pmacUpdate, e, andThen_raise]⟩

/-- What every `mac_update` in PMAC kind that answers leaves, for the commands after it. -/
theorem pmacUpdate_ok {E : Cipher} {bytes : List Byte} {s t : State} (h : pmacUpdate E bytes s = .ok () t) :
    t.mkind = s.mkind ∧ t.mst = .accumulating ∧ t.respStream = s.respStream := by
  obtain ⟨buf, pos, offset, tag, cnt, reqs, e⟩ | ⟨reqs, e⟩ := pmacUpdate_cases E bytes s
  · cases e.symm.trans h
    exact ⟨rfl, rfl, rfl⟩
  · cases e.symm.trans h

theorem pmacUpdate_raise {E : Cipher} {bytes : List Byte} {s t : State} {err : Err}
    (h : pmacUpdate E bytes s = .raise err t) : t.mst = .finished ∧ t.respStream = s.respStream := by
  obtain ⟨buf, pos, offset, tag, cnt, reqs, e⟩ | ⟨reqs, e⟩ := pmacUpdate_cases E bytes s
  · cases e.symm.trans h
  · cases e.symm.trans h
    exact ⟨rfl, rfl⟩

/-- One byte into a buffer with room (R173). -/
theorem pmacUpdate_room (E : Cipher) {s : State} (h : s.pos.val < 16) (d : Byte) :
    pmacUpdate E [d] s = .ok () (accumulating (bufferByte d s)) := by
  have hroom : s.pos ≠ 16 := fun e => absurd h (by rw [e]; decide)
  rw [pmacUpdate_cons, pmacMakeRoom_room E hroom]
  rfl

/-- One byte behind a full buffer, which is processed first (R173, R174). -/
theorem pmacUpdate_full (E : Cipher) {s : State} (h : s.pos = 16) (hctz : ctz (s.cnt.toNat + 1) < 31) (d : Byte) :
    pmacUpdate E [d] s =
      .ok () (accumulating (bufferByte d (pmacBlockWith E (s.offset ^^^ s.lTab[ctz (s.cnt.toNat + 1)]) s))) := by
  rw [pmacUpdate_cons, pmacMakeRoom_full E h, pmacBlock_entry E hctz]
  rfl

/-- One byte behind a full buffer for which the table has no entry (R173, R176). -/
theorem pmacUpdate_limit (E : Cipher) {s : State} (h : s.pos = 16) (hctz : ¬ctz (s.cnt.toNat + 1) < 31) (d : Byte) :
    pmacUpdate E [d] s = pmacLimit s := by
  rw [pmacUpdate_cons, pmacMakeRoom_full E h, pmacBlock_noEntry E hctz]
  rfl

/-! ### Several pieces are one piece (R173) -/

/-- A procedure's end with one update of the state where it answers and another where it raises. -/
def updateEnds (f g : State → State) : Proc Unit → Proc Unit
  | .ok v s => .ok v (f s)
  | .raise e s => .raise e (g s)

/-- The update `f` is beside the steps of `mac_update` in PMAC kind: done before one of them, it is done after it, and
as `g` once the procedure has ended, well or not. -/
structure BesidePmacUpdate (E : Cipher) (f g : State → State) : Prop where
  pos : ∀ s, (f s).pos = s.pos
  block : ∀ s, pmacBlock E (f s) = updateEnds f g (pmacBlock E s)
  byte : ∀ d s, bufferByte d (f s) = f (bufferByte d s)
  last : ∀ s, accumulating (f s) = g (accumulating s)

theorem BesidePmacUpdate.makeRoom {E : Cipher} {f g : State → State} (hf : BesidePmacUpdate E f g) (s : State) :
    pmacMakeRoom E (f s) = updateEnds f g (pmacMakeRoom E s) := by
  by_cases hfull : s.pos = 16
  · rw [pmacMakeRoom_full E hfull, pmacMakeRoom_full E ((hf.pos s).trans hfull), hf.block]
  · rw [pmacMakeRoom_room E hfull, pmacMakeRoom_room E (by rwa [hf.pos]), updateEnds]

theorem BesidePmacUpdate.update {E : Cipher} {f g : State → State} (hf : BesidePmacUpdate E f g) (ds : List Byte)
    (s : State) : pmacUpdate E ds (f s) = endingWith g (pmacUpdate E ds s) := by
  induction ds generalizing s with
  | nil => rw [pmacUpdate_nil, pmacUpdate_nil, hf.last, endingWith_ok]
  | cons d ds ih =>
    rw [pmacUpdate_cons, pmacUpdate_cons, hf.makeRoom]
    cases pmacMakeRoom E s with
    | ok v t => rw [updateEnds, andThen_ok, andThen_ok, hf.byte, ih]
    | raise e t => rfl

/-- Feeding bytes does not read `MST`, and ends by writing it. -/
theorem besidePmacUpdate_accumulating (E : Cipher) : BesidePmacUpdate E accumulating id where
  pos _ := rfl
  block _ := by
    rw [pmacBlock, pmacBlock, apply_dite (updateEnds _ _)]
    rfl
  byte _ _ := rfl
  last _ := rfl

/-- Feeding bytes does not read the response stream. -/
theorem besidePmacUpdate_respond (E : Cipher) (st op : Byte) (out : List Byte) :
    BesidePmacUpdate E (respond st op out) (respond st op out) where
  pos _ := rfl
  block _ := by
    rw [pmacBlock, pmacBlock, apply_dite (updateEnds _ _)]
    rfl
  byte _ _ := rfl
  last _ := rfl

theorem pmacUpdate_accumulating (E : Cipher) (ds : List Byte) (s : State) :
    pmacUpdate E ds (accumulating s) = pmacUpdate E ds s := by
  rw [(besidePmacUpdate_accumulating E).update]
  cases pmacUpdate E ds s <;> rfl

theorem pmacUpdate_respond (E : Cipher) (ds : List Byte) (st op : Byte) (out : List Byte) (s : State) :
    pmacUpdate E ds (respond st op out s) = endingWith (respond st op out) (pmacUpdate E ds s) :=
  (besidePmacUpdate_respond E st op out).update ds s

theorem pmacUpdate_append (E : Cipher) (x y : List Byte) (s : State) :
    pmacUpdate E (x ++ y) s = andThen (pmacUpdate E x s) fun _ s => pmacUpdate E y s := by
  induction x generalizing s with
  | nil => exact (pmacUpdate_accumulating E y s).symm
  | cons d x ih => simp only [List.cons_append, pmacUpdate_cons, andThen_assoc, ih]

/-! ### `MAC_UPDATE` (R173, R176) -/

/-- `MAC_UPDATE` in PMAC kind answers `OK`, or the limit. -/
theorem exec_macUpdate_pmac {s : State} (hkind : s.mkind = some .pmac) (hmst : s.mst ≠ .finished) (bytes : List Byte) :
    exec (.macUpdate 0 0 bytes) s = complete 0x21 (andThen (pmacUpdate Config.E bytes s) fun _ s => .ok [] s) :=
  exec_macUpdate hkind hmst bytes

theorem exec_macUpdate_pmac_ok {s t : State} (hkind : s.mkind = some .pmac) (hmst : s.mst ≠ .finished)
    {bytes : List Byte} (h : pmacUpdate Config.E bytes s = .ok () t) :
    exec (.macUpdate 0 0 bytes) s = .next (respond okCode 0x21 [] t) := by
  rw [exec_macUpdate_pmac hkind hmst, h, andThen_ok, complete_ok]

theorem exec_macUpdate_pmac_raise {s t : State} {e : Err} (hkind : s.mkind = some .pmac) (hmst : s.mst ≠ .finished)
    {bytes : List Byte} (h : pmacUpdate Config.E bytes s = .raise e t) :
    exec (.macUpdate 0 0 bytes) s = .next (takeError 0x21 e t) := by
  rw [exec_macUpdate_pmac hkind hmst, h, andThen_raise, complete_raise]

/-- A second piece, with the response to the first one out: it ends as if fed at once, but for that response. -/
theorem exec_macUpdate_pmac_next {s t u : State} (hkind : s.mkind = some .pmac) (hmst : s.mst ≠ .finished)
    {x y : List Byte} (hx : pmacUpdate Config.E x s = .ok () t)
    (hu : exec (.macUpdate 0 0 y) (respond okCode 0x21 [] t) = .next u) :
    exec (.macUpdate 0 0 (x ++ y)) s = .next
      { u with respStream := s.respStream ++ u.respStream.drop (respond okCode 0x21 [] t).respStream.length } := by
  obtain ⟨hkind', hmst', hresp⟩ := pmacUpdate_ok hx
  have hboth : pmacUpdate Config.E (x ++ y) s = pmacUpdate Config.E y t := by rw [pmacUpdate_append, hx, andThen_ok]
  rw [exec_macUpdate_pmac (s := respond okCode 0x21 [] t) (hkind'.trans hkind) (by simp [hmst']),
    pmacUpdate_respond] at hu
  cases hy : pmacUpdate Config.E y t with
  | ok v w =>
    rw [hy] at hu
    obtain rfl := Host.Outcome.next.inj hu
    obtain ⟨-, -, hresp'⟩ := pmacUpdate_ok hy
    rw [exec_macUpdate_pmac_ok hkind hmst (hboth.trans hy)]
    simp [respond, hresp', hresp]
  | raise e w =>
    rw [hy] at hu
    obtain rfl := Host.Outcome.next.inj hu
    obtain ⟨-, hresp'⟩ := pmacUpdate_raise hy
    rw [exec_macUpdate_pmac_raise hkind hmst (hboth.trans hy)]
    simp [takeError, logError, respond, hresp', hresp]

/-- Settles O39: every clause is `pmacUpdate` on its piece; `ctz_eq_of_dvd` gives the table index, and two pieces are
their concatenation, with one response more. -/
theorem pmacUpdateFeedsBytes : Obligations.PmacUpdateFeedsBytes := by
  intro s hkind hmst
  refine ⟨exec_macUpdate_pmac_ok hkind hmst rfl, fun d hroom => ?room, fun d j hfull hdvd hnot => ?full,
    fun x y t u ht => ?pieces⟩
  case room => exact exec_macUpdate_pmac_ok hkind hmst (pmacUpdate_room Config.E hroom d)
  case full =>
    obtain rfl := ctz_eq_of_dvd (Nat.succ_pos _) hdvd hnot
    exact ⟨fun h => exec_macUpdate_pmac_ok hkind hmst (pmacUpdate_full Config.E hfull h d),
      fun h => exec_macUpdate_pmac_raise hkind hmst (pmacUpdate_limit Config.E hfull (Nat.not_lt.mpr h) d)⟩
  case pieces =>
    cases hx : pmacUpdate Config.E x s with
    | ok v w =>
      obtain rfl := Host.Outcome.next.inj ((exec_macUpdate_pmac_ok hkind hmst hx).symm.trans ht)
      obtain ⟨-, hmst', -⟩ := pmacUpdate_ok hx
      exact ⟨fun _ hu => exec_macUpdate_pmac_next hkind hmst hx hu, fun h => (nomatch hmst'.symm.trans h)⟩
    | raise e w =>
      obtain rfl := Host.Outcome.next.inj ((exec_macUpdate_pmac_raise hkind hmst hx).symm.trans ht)
      obtain ⟨hmst', -⟩ := pmacUpdate_raise hx
      have hboth : pmacUpdate Config.E (x ++ y) s = .raise e w := by rw [pmacUpdate_append, hx, andThen_raise]
      exact ⟨fun h => (nomatch hmst'.symm.trans h), fun _ => exec_macUpdate_pmac_raise hkind hmst hboth⟩

/-! ### A digest fed in pieces (R177) -/

/-- Where the whole message is accepted at once, so is any cut of it, with the same digest but for `MST` while no piece
has come, and for the responses to the pieces. -/
theorem runs_pmacUpdate {pieces : List (List Byte)} {s u : State} (hkind : s.mkind = some .pmac)
    (hmst : s.mst ≠ .finished) (h : pmacUpdate Config.E pieces.flatten s = .ok () u) :
    ∃ t, Runs (pieces.map (.macUpdate 0 0)) s t ∧ t.mst ≠ .finished ∧
      accumulating t = { u with respStream := t.respStream } := by
  induction pieces generalizing s u with
  | nil =>
    cases h
    exact ⟨s, rfl, hmst, rfl⟩
  | cons x pieces ih =>
    rw [List.flatten_cons, pmacUpdate_append] at h
    obtain ⟨_, v, hx, hrest⟩ := andThen_eq_ok h
    obtain ⟨hkind', hmst', -⟩ := pmacUpdate_ok hx
    have hresponded : pmacUpdate Config.E pieces.flatten (respond okCode 0x21 [] v) =
        .ok () (respond okCode 0x21 [] u) := by rw [pmacUpdate_respond, hrest, endingWith_ok]
    obtain ⟨t, hruns, hmst'', ht⟩ := ih (s := respond okCode 0x21 [] v) (hkind'.trans hkind) (by simp [hmst'])
      hresponded
    exact ⟨t, ⟨_, exec_macUpdate_pmac_ok hkind hmst hx, hruns⟩, hmst'', ht⟩

/-- `mac_finish` reads neither `MST` nor the response stream, and keeps the latter (R175). -/
theorem pmacFinish_of_accumulating_eq {E : Cipher} {t u : State}
    (h : accumulating t = { u with respStream := t.respStream }) :
    pmacFinish E t = ((pmacFinish E u).1, { (pmacFinish E u).2 with respStream := t.respStream }) :=
  calc pmacFinish E t = pmacFinish E (accumulating t) := rfl
    _ = pmacFinish E { u with respStream := t.respStream } := by rw [h]
    _ = _ := rfl

/-- Settles O43: `mac` answers the tag of the whole message (R155), and its update is the pieces' in turn. -/
theorem pmacDigestIsTheClosedForm : Obligations.PmacDigestIsTheClosedForm := by
  intro s pieces hkind hlen
  obtain ⟨reqs, hmac, hreqs⟩ := macOf_eq Config.E .pmac pieces.flatten s hlen
  obtain ⟨_, v, hupdate, hfinish⟩ := andThen_eq_ok hmac
  change pmacUpdate Config.E pieces.flatten (macReset s) = .ok () v at hupdate
  obtain ⟨htag, hdone⟩ := Proc.ok.inj hfinish
  have hreset : pmacUpdate Config.E pieces.flatten (respond okCode 0x20 [] (macReset s)) =
      .ok () (respond okCode 0x20 [] v) := by rw [pmacUpdate_respond, hupdate, endingWith_ok]
  obtain ⟨t, hruns, hmst, ht⟩ := runs_pmacUpdate (s := respond okCode 0x20 [] (macReset s)) hkind (by simp) hreset
  have hkind' : t.mkind = some .pmac :=
    (congrArg State.mkind ht).trans ((pmacUpdate_ok hupdate).1.trans hkind)
  have hend : pmacFinish Config.E t =
      (macTag Config.E .pmac s pieces.flatten,
        { macDone s (s.cipherPort ++ reqs) s.d s.t with respStream := t.respStream }) := by
    rw [pmacFinish_of_accumulating_eq (u := v) ht, ← htag, ← hdone]
    rfl
  refine ⟨t, _, reqs, ⟨_, exec_macReset hkind, hruns⟩, exec_macFinish hkind' hmst, ?_, ?_, hreqs⟩
  · rw [respond_respStream, macFinish, hend]
    rfl
  · rw [respond_cipherPort, macFinish, hend]
    rfl

end Sys2Proof.Machine
end

section
/-! PROOFS. The CTR family: `CTR_SETIV`, `CTR_XOR` and the stream between them (44_ctr.md R190, R192 to R195). -/

namespace Sys2Proof.Machine

/-! ### `CTR_SETIV` (R192) -/

theorem exec_ctrSetiv {payload : List Byte} (hlen : payload.length = 16) {s : State} (hkey : s.kctrLen ≠ .noKey) :
    exec (.ctrSetiv 0 0 payload) s = .next (respond okCode 0x30 [] (ctrSetiv (blockOf payload) s)) :=
  (complete_checks_pass (by simp) (not_not_intro hlen)).trans (complete_check_passes hkey)

/-- Settles O47: past its three checks `CTR_SETIV` is `ctrSetiv`, which reads no register. -/
theorem ctrSetivStartsAStream : Obligations.CtrSetivStartsAStream := by
  intro a b payload s
  refine ⟨?ok, complete_check_fails, ?ivLength, ?noKey⟩
  case ok =>
    rintro rfl rfl hlen hkey
    exact ⟨blockOf payload, blockBytes_blockOf hlen, exec_ctrSetiv hlen hkey⟩
  case ivLength =>
    rintro rfl rfl hlen
    exact (complete_check_passes (by simp)).trans (complete_check_fails hlen)
  case noKey =>
    rintro rfl rfl hlen hkey
    exact (complete_checks_pass (by simp) (not_not_intro hlen)).trans (complete_check_fails hkey)

/-! ### `CTR_XOR` past its checks (R193) -/

theorem exec_ctrXor {s : State} (hkey : s.kctrLen ≠ .noKey) (hcst : s.cst = .streaming) (bytes : List Byte) :
    exec (.ctrXor 0 0 bytes) s = complete 0x31 (ctrXor Config.E bytes s) :=
  (complete_check_passes (by simp)).trans (complete_checks_pass hkey (by simp [hcst]))

theorem exec_ctrXor_ok {s t : State} (hkey : s.kctrLen ≠ .noKey) (hcst : s.cst = .streaming) {bytes out : List Byte}
    (h : ctrXor Config.E bytes s = .ok out t) : exec (.ctrXor 0 0 bytes) s = .next (respond okCode 0x31 out t) := by
  rw [exec_ctrXor hkey hcst, h, complete_ok]

theorem exec_ctrXor_raise {s t : State} (hkey : s.kctrLen ≠ .noKey) (hcst : s.cst = .streaming) {bytes : List Byte}
    {e : Err} (h : ctrXor Config.E bytes s = .raise e t) : exec (.ctrXor 0 0 bytes) s = .next (takeError 0x31 e t) := by
  rw [exec_ctrXor hkey hcst, h, complete_raise]

/-- A stream that goes on has changed `CTRBLK`, `KS`, `KPOS` and the cipher port alone (R193). -/
theorem ctrXor_ok {E : Cipher} {bytes out : List Byte} {s t : State} (h : ctrXor E bytes s = .ok out t) :
    ∃ ctrblk ks kpos reqs,
      t = { s with ctrblk := ctrblk, ks := ks, kpos := kpos, cipherPort := s.cipherPort ++ reqs } := by
  obtain ⟨_, ctrblk, ks, kpos, reqs, e, -⟩ | ⟨reqs, e⟩ := ctrXor_cases E bytes s
  · cases e.symm.trans h
    exact ⟨ctrblk, ks, kpos, _, rfl⟩
  · cases e.symm.trans h

/-- A stream ends by the overflow alone, which clears the unit (R194). -/
theorem ctrXor_raise {E : Cipher} {bytes : List Byte} {s t : State} {err : Err}
    (h : ctrXor E bytes s = .raise err t) :
    err = .ctrOverflow ∧ ∃ reqs, t = ctrClear { s with cipherPort := s.cipherPort ++ reqs } := by
  obtain ⟨_, ctrblk, ks, kpos, reqs, e, -⟩ | ⟨reqs, e⟩ := ctrXor_cases E bytes s
  · cases e.symm.trans h
  · cases e.symm.trans h
    exact ⟨rfl, _, rfl⟩

/-! ### One byte (R193, R194) -/

/-- A byte while keystream is left. -/
theorem ctrXor_left (E : Cipher) {s : State} (h : s.kpos.val < 16) (d : Byte) :
    ctrXor E [d] s = .ok [d ^^^ blockByte s.ks s.kpos.val] { s with kpos := s.kpos + 1 } := by
  have hleft : s.kpos ≠ 16 := fun e => absurd h (by rw [e]; decide)
  rw [ctrXor_cons, ctrMakeRoom, if_neg hleft]
  rfl

/-- A byte when no keystream is left: a block is made first. -/
theorem ctrXor_newBlock (E : Cipher) {s : State} (h : s.kpos = 16) (hroom : s.ctrblk ≠ BitVec.allOnes 128) (d : Byte) :
    ctrXor E [d] s = .ok [d ^^^ blockByte (E (keyBytes .ctr s) s.ctrblk) 0]
      { s with
        ks := E (keyBytes .ctr s) s.ctrblk, ctrblk := s.ctrblk + 1, kpos := 1
        cipherPort := s.cipherPort ++ [⟨.ctr, s.ctrblk⟩] } := by
  rw [ctrXor_cons, ctrMakeRoom, if_pos h, ctrNextBlock_room E hroom]
  rfl

/-- A byte when no keystream is left and no block can be made. -/
theorem ctrXor_overflow (E : Cipher) {s : State} (h : s.kpos = 16) (hfull : s.ctrblk = BitVec.allOnes 128) (d : Byte) :
    ctrXor E [d] s = .raise .ctrOverflow (ctrClear s) := by
  rw [ctrXor_cons, ctrMakeRoom, if_pos h, ctrNextBlock_overflow E hfull, andThen_raise]

/-! ### Several pieces are one piece (R195) -/

theorem ctrMakeRoom_respond (E : Cipher) (st op : Byte) (out : List Byte) (s : State) :
    ctrMakeRoom E (respond st op out s) = endingWith (respond st op out) (ctrMakeRoom E s) := by
  simp only [ctrMakeRoom, ctrNextBlock, apply_ite (endingWith _)]
  rfl

/-- The stream does not read the response stream. -/
theorem ctrXor_respond (E : Cipher) (bytes : List Byte) (st op : Byte) (out : List Byte) (s : State) :
    ctrXor E bytes (respond st op out s) = endingWith (respond st op out) (ctrXor E bytes s) := by
  induction bytes generalizing s with
  | nil => rfl
  | cons d bytes ih =>
    rw [ctrXor_cons, ctrXor_cons, ctrMakeRoom_respond]
    cases ctrMakeRoom E s with
    | raise e t => rfl
    | ok v t =>
      have hrest := ih { t with kpos := t.kpos + 1 }
      change andThen (ctrXor E bytes (respond st op out { t with kpos := t.kpos + 1 })) _ = _
      rw [hrest, andThen_ok]
      cases ctrXor E bytes { t with kpos := t.kpos + 1 } <;> rfl

theorem endingWith_eq_ok {α : Type} {finish : State → State} {m : Proc α} {v : α} {t : State}
    (h : endingWith finish m = .ok v t) : ∃ w, m = .ok v w ∧ t = finish w := by
  cases m with
  | ok v' w => cases h; exact ⟨w, rfl, rfl⟩
  | raise e w => cases h

theorem endingWith_eq_raise {α : Type} {finish : State → State} {m : Proc α} {e : Err} {t : State}
    (h : endingWith finish m = .raise e t) : ∃ w, m = .raise e w ∧ t = finish w := by
  cases m with
  | ok v w => cases h
  | raise e' w => cases h; exact ⟨w, rfl, rfl⟩

/-- A `CTR_XOR` that leaves the unit Streaming answered `OK` (R193). -/
theorem ctrXor_ok_of_exec_streaming {s t : State} (hkey : s.kctrLen ≠ .noKey) (hcst : s.cst = .streaming)
    {bytes : List Byte} (h : exec (.ctrXor 0 0 bytes) s = .next t) (ht : t.cst = .streaming) :
    ∃ out u, ctrXor Config.E bytes s = .ok out u ∧ t = respond okCode 0x31 out u := by
  rw [exec_ctrXor hkey hcst] at h
  obtain hok | ⟨e, u, hx, rfl⟩ := complete_next h
  · exact hok
  · obtain ⟨-, reqs, rfl⟩ := ctrXor_raise hx
    cases ht

/-- A `CTR_XOR` that leaves the unit Idle overflowed (R194). -/
theorem ctrXor_raise_of_exec_idle {s t : State} (hkey : s.kctrLen ≠ .noKey) (hcst : s.cst = .streaming)
    {bytes : List Byte} (h : exec (.ctrXor 0 0 bytes) s = .next t) (ht : t.cst = .idle) :
    ∃ u, ctrXor Config.E bytes s = .raise .ctrOverflow u ∧ t = takeError 0x31 .ctrOverflow u := by
  rw [exec_ctrXor hkey hcst] at h
  obtain ⟨out, u, hx, rfl⟩ | ⟨e, u, hx, rfl⟩ := complete_next h
  · obtain ⟨ctrblk, ks, kpos, reqs, rfl⟩ := ctrXor_ok hx
    cases hcst.symm.trans ht
  · obtain ⟨rfl, -⟩ := ctrXor_raise hx
    exact ⟨u, hx, rfl⟩

/-- Two pieces that both answer: together they answer both payloads and leave the same state (R195). -/
theorem exec_ctrXor_append_ok {s t u : State} (hkey : s.kctrLen ≠ .noKey) (hcst : s.cst = .streaming)
    {x y : List Byte} (ht : exec (.ctrXor 0 0 x) s = .next t) (htst : t.cst = .streaming)
    (hu : exec (.ctrXor 0 0 y) t = .next u) (hust : u.cst = .streaming) :
    ∃ ox oy, t.respStream = s.respStream ++ responsePacket okCode 0x31 ox ∧
      u.respStream = t.respStream ++ responsePacket okCode 0x31 oy ∧
      exec (.ctrXor 0 0 (x ++ y)) s =
        .next { u with respStream := s.respStream ++ responsePacket okCode 0x31 (ox ++ oy) } := by
  obtain ⟨ox, v, hx, rfl⟩ := ctrXor_ok_of_exec_streaming hkey hcst ht htst
  obtain ⟨ctrblk, ks, kpos, reqs, rfl⟩ := ctrXor_ok hx
  obtain ⟨oy, w', hy', rfl⟩ := ctrXor_ok_of_exec_streaming (by exact hkey) htst hu hust
  obtain ⟨w, hy, rfl⟩ := endingWith_eq_ok ((ctrXor_respond ..).symm.trans hy')
  have hboth : ctrXor Config.E (x ++ y) s = .ok (ox ++ oy) w := by
    rw [ctrXor_append, hx, andThen_ok, hy, andThen_ok]
  obtain ⟨ctrblk', ks', kpos', reqs', rfl⟩ := ctrXor_ok hy
  exact ⟨ox, oy, rfl, rfl, exec_ctrXor_ok hkey hcst hboth⟩

/-- Two pieces of which the second overflows: together they overflow and leave the same state (R195). -/
theorem exec_ctrXor_append_overflow {s t u : State} (hkey : s.kctrLen ≠ .noKey) (hcst : s.cst = .streaming)
    {x y : List Byte} (ht : exec (.ctrXor 0 0 x) s = .next t) (htst : t.cst = .streaming)
    (hu : exec (.ctrXor 0 0 y) t = .next u) (huidle : u.cst = .idle) :
    exec (.ctrXor 0 0 (x ++ y)) s =
      .next { u with respStream := s.respStream ++ responsePacket (errCode .ctrOverflow) 0x31 [] } := by
  obtain ⟨ox, v, hx, rfl⟩ := ctrXor_ok_of_exec_streaming hkey hcst ht htst
  obtain ⟨ctrblk, ks, kpos, reqs, rfl⟩ := ctrXor_ok hx
  obtain ⟨w', hy', rfl⟩ := ctrXor_raise_of_exec_idle (by exact hkey) htst hu huidle
  obtain ⟨w, hy, rfl⟩ := endingWith_eq_raise ((ctrXor_respond ..).symm.trans hy')
  have hboth : ctrXor Config.E (x ++ y) s = .raise .ctrOverflow w := by
    rw [ctrXor_append, hx, andThen_ok, hy, andThen_raise]
  obtain ⟨-, reqs', rfl⟩ := ctrXor_raise hy
  exact exec_ctrXor_raise hkey hcst hboth

/-- A first piece that overflows is all that runs (R195). -/
theorem exec_ctrXor_append_idle {s t : State} (hkey : s.kctrLen ≠ .noKey) (hcst : s.cst = .streaming) {x : List Byte}
    (y : List Byte) (ht : exec (.ctrXor 0 0 x) s = .next t) (htidle : t.cst = .idle) :
    exec (.ctrXor 0 0 (x ++ y)) s = .next t := by
  obtain ⟨v, hx, rfl⟩ := ctrXor_raise_of_exec_idle hkey hcst ht htidle
  have hboth : ctrXor Config.E (x ++ y) s = .raise .ctrOverflow v := by rw [ctrXor_append, hx, andThen_raise]
  exact exec_ctrXor_raise hkey hcst hboth

/-- Settles O48: every clause is `ctrXor` on its piece; two pieces are their concatenation, with one response more. -/
theorem ctrXorUsesTheNextKeystreamByte : Obligations.CtrXorUsesTheNextKeystreamByte := by
  intro s hkey hcst
  refine ⟨exec_ctrXor_ok hkey hcst rfl, fun d hleft => ?left, fun d hnone hroom => ?newBlock,
    fun d hnone hfull => ?overflow, fun x y t u ht => ⟨exec_ctrXor_append_ok hkey hcst ht,
      exec_ctrXor_append_overflow hkey hcst ht, exec_ctrXor_append_idle hkey hcst y ht⟩⟩
  case left => exact exec_ctrXor_ok hkey hcst (ctrXor_left Config.E hleft d)
  case newBlock => exact exec_ctrXor_ok hkey hcst (ctrXor_newBlock Config.E hnone hroom d)
  case overflow => exact exec_ctrXor_raise hkey hcst (ctrXor_overflow Config.E hnone hfull d)

/-! ### A stream read in pieces (R190) -/

/-- `t` stands `n` bytes into the stream of `iv` that was started from the keys of `s`: a request has gone out for each
block begun, and nothing of the MAC side has changed. -/
structure InStream (s : State) (iv : Block) (n : Nat) (t : State) : Prop where
  streaming : t.cst = .streaming
  sameKeys : SameKeys s t
  sameMacUnit : SameMacUnit s t
  holds : CtrHolds Config.E t iv n
  requests : ∃ reqs, t.cipherPort = s.cipherPort ++ reqs ∧
    reqs.map CipherReq.key = List.replicate ((n + 15) / 16) .ctr

theorem SameMacUnit.refl (s : State) : SameMacUnit s s := ⟨rfl, rfl, rfl, rfl, rfl, rfl, rfl, rfl, rfl, rfl, rfl⟩

/-- `CTR_SETIV` starts the stream of its IV (R192). -/
theorem inStream_ctrSetiv (s : State) (iv : Block) (out : List Byte) :
    InStream s iv 0 (respond okCode 0x30 out (ctrSetiv iv s)) :=
  ⟨rfl, SameKeys.refl s, SameMacUnit.refl s, ctrHolds_ctrSetiv Config.E iv s, [], by simp, rfl⟩

/-- A keyed stream whose counter stays below all-`ff` goes on by any bytes, XORed with the keystream (R190, R193). -/
theorem InStream.xor {s t : State} {iv : Block} {n : Nat} (h : InStream s iv n t) (hkey : s.kctrLen ≠ .noKey)
    (ds : List Byte) (hroom : iv.toNat + (n + ds.length + 15) / 16 ≤ 2 ^ 128 - 1) :
    ∃ u, exec (.ctrXor 0 0 ds) t = .next u ∧ InStream s iv (n + ds.length) u ∧
      u.respStream = t.respStream ++
        responsePacket okCode 0x31 (ctrStream Config.E (keyBytes .ctr s) iv n ds) := by
  obtain ⟨hcst, hkeys, hmac, hholds, reqs, hport, hreqs⟩ := h
  obtain ⟨v, hxor, hholds', hport'⟩ := ctrXor_holds ds hholds hroom
  rw [hport, List.append_assoc] at hport'
  rw [hkeys.keyBytes .ctr] at hxor
  obtain ⟨ctrblk, ks, kpos, _, rfl⟩ := ctrXor_ok hxor
  have hmono : (n + 15) / 16 ≤ (n + ds.length + 15) / 16 := by omega
  refine ⟨_, exec_ctrXor_ok (by rwa [hkeys.kctrLen]) hcst hxor, ⟨hcst, hkeys, hmac, hholds', _, hport', ?_⟩, rfl⟩
  rw [List.map_append, hreqs, blockRequests_keys, List.replicate_append_replicate, Nat.add_sub_cancel' hmono]

/-- Any pieces in turn take the stream to its byte after the last of them (R190). -/
theorem InStream.runs {s t : State} {iv : Block} {n : Nat} (h : InStream s iv n t) (hkey : s.kctrLen ≠ .noKey)
    (pieces : List (List Byte)) (hroom : iv.toNat + (n + pieces.flatten.length + 15) / 16 ≤ 2 ^ 128 - 1) :
    ∃ u, Runs (pieces.map (.ctrXor 0 0)) t u ∧ InStream s iv (n + pieces.flatten.length) u := by
  induction pieces generalizing t n with
  | nil => exact ⟨t, rfl, h⟩
  | cons x pieces ih =>
    rw [List.flatten_cons, List.length_append, ← Nat.add_assoc] at hroom ⊢
    obtain ⟨v, hexec, hv, -⟩ := h.xor hkey x (by omega)
    obtain ⟨u, hruns, hu⟩ := ih hv hroom
    exact ⟨u, ⟨v, hexec, hruns⟩, hu⟩

/-- Settles O49: `CTR_SETIV` starts the stream, the pieces take it to the last one, and that one is the keystream's. -/
theorem ctrStreamIsTheKeystream : Obligations.CtrStreamIsTheKeystream := by
  intro s iv pieces ds hkey n hroom
  have hstart := inStream_ctrSetiv s iv []
  obtain ⟨t, hruns, ht⟩ := hstart.runs hkey pieces (by omega)
  rw [Nat.zero_add] at ht
  obtain ⟨u, hexec, hu, hresp⟩ := ht.xor hkey ds hroom
  obtain ⟨-, ⟨hkmac, hkmacLen, -, -, hmkind, -⟩, hmac, ⟨hctrblk, hkpos, -⟩, reqs, hport, hreqs⟩ := hu
  have hsetiv := exec_ctrSetiv (blockBytes_length iv) hkey
  rw [blockOf_blockBytes] at hsetiv
  exact ⟨t, u, reqs, ⟨_, hsetiv, hruns⟩, hexec, hresp, hctrblk, hkpos, hport, hreqs, hkmac, hkmacLen, hmkind, hmac⟩

end Sys2Proof.Machine
end

section
/-! PROOFS. The SIV family: the counter's cleared bits, `S2V`, `SIV_SEAL` and `SIV_OPEN` (45_siv.md R212 to R220). -/

namespace Sys2Proof.Machine

/-! ### The zero-IV-bit rule (R215) -/

/-- AND of blocks is AND of their bytes. -/
theorem blockByte_and (a b : Block) {i : Nat} (h : i < 16) :
    blockByte (a &&& b) i = blockByte a i &&& blockByte b i := by
  apply BitVec.eq_of_getLsbD_eq
  intro j hj
  simp only [BitVec.getLsbD_and, blockByte_getLsbD _ h, hj, decide_true, Bool.true_and]

theorem blockByte_ivMask {i : Nat} (h : i < 16) : blockByte ivMask i = if i = 8 ∨ i = 12 then 0x7f else 0xff := by
  revert i; decide

theorem blockByte_sivIv (v : Block) {i : Nat} (h : i < 16) :
    blockByte (sivIv v) i = if i = 8 ∨ i = 12 then blockByte v i &&& 0x7f else blockByte v i := by
  rw [sivIv, blockByte_and v ivMask h, blockByte_ivMask h]
  split
  case isTrue => rfl
  case isFalse => exact BitVec.and_allOnes

/-- Settles O51: the mask is `7f` in bytes 8 and 12 and `ff` in the others; past byte 15 a block has no byte. -/
theorem zeroIvBitsClearTwoBits : Obligations.ZeroIvBitsClearTwoBits := by
  refine fun v => ⟨blockByte_sivIv v (by decide), blockByte_sivIv v (by decide), fun i h8 h12 => ?_⟩
  by_cases hi : i < 16
  · rw [blockByte_sivIv v hi, if_neg (not_or.mpr ⟨h8, h12⟩)]
  · rw [blockByte_of_le _ (Nat.not_lt.mp hi), blockByte_of_le _ (Nat.not_lt.mp hi)]

/-! ### Vectors that fit in a packet (R75, R211) -/

theorem frameVector_length (items : List (List Byte)) (final : List Byte) :
    (frameVector items final).length = (frameVector items []).length + final.length := by
  simp [frameVector]

/-- The count and the payload of a vector that fits parse to its items and its final string (R75). -/
theorem parseVector_frameVector {items : List (List Byte)} {final : List Byte} (h : VectorFits items final) :
    parseVector (BitVec.ofNat 8 items.length) (frameVector items final) = .ok (items, final) := by
  obtain ⟨hcount, hlen⟩ := h
  have hnad : (BitVec.ofNat 8 items.length).toNat = items.length := by
    rw [BitVec.toNat_ofNat, Nat.mod_eq_of_lt (by omega)]
  rw [parseVector_eq_ok_iff (by rwa [hnad]), hnad]
  exact parseItems_frameVector items final (item_length_lt hlen).2

/-! ### The three commands past their checks (R212, R217, R218) -/

section

variable {items : List (List Byte)} {p c : List Byte} {s : State} {kind : MacKind}

theorem exec_s2v (hfits : VectorFits items p) (hkind : s.mkind = some kind) :
    exec (.s2v (BitVec.ofNat 8 items.length) 0 (frameVector items p)) s =
      complete 0x40 (endingWith s2vEnd (andThen (s2v Config.E kind items p s) fun v s => .ok (blockBytes v) s)) := by
  refine (complete_check_passes (not_not_intro rfl)).trans ?_
  simp only [parseVector_frameVector hfits, hkind]

theorem exec_sivSeal (hfits : VectorFits items p) (hlen : p.length ≤ maxSealPlaintext) (hkind : s.mkind = some kind)
    (hkey : s.kctrLen ≠ .noKey) :
    exec (.sivSeal (BitVec.ofNat 8 items.length) 0 (frameVector items p)) s =
      complete 0x41 (endingWith sivEnd (sealBody Config.E kind items p s)) := by
  refine (complete_check_passes (not_not_intro rfl)).trans ?_
  simp only [parseVector_frameVector hfits, hkind]
  exact complete_checks_pass (Nat.not_lt.mpr hlen) hkey

theorem exec_sivOpen (hfits : VectorFits items c) (hlen : 16 ≤ c.length) (hkind : s.mkind = some kind)
    (hkey : s.kctrLen ≠ .noKey) :
    exec (.sivOpen (BitVec.ofNat 8 items.length) 0 (frameVector items c)) s =
      complete 0x42 (endingWith (fun s => sivEnd (wipeP s)) (openBody Config.E kind items c s)) := by
  refine (complete_check_passes (not_not_intro rfl)).trans ?_
  simp only [parseVector_frameVector hfits, hkind]
  exact complete_checks_pass (Nat.not_lt.mpr hlen) hkey

end

/-- Settles O53: past its checks the command is `s2v` and its end, which are known in closed form. -/
theorem s2vAnswersTheVectorTag : Obligations.S2vAnswersTheVectorTag := by
  intro kind items p s hfits hkind
  obtain ⟨hp, hitems⟩ := item_length_lt hfits.2
  obtain ⟨reqs, hbody, hkeys⟩ := s2vBody_eq Config.E kind items p s hitems hp
  exact ⟨reqs, by rw [exec_s2v hfits hkind, hbody, complete_ok], hkeys⟩

/-- Settles O54: past its checks the command is `sealBody` and its end, which are known in closed form. -/
theorem sealAnswersTagAndCiphertext : Obligations.SealAnswersTagAndCiphertext := by
  intro kind items p s hfits hlen hkind hkey
  obtain ⟨hp, hitems⟩ := item_length_lt hfits.2
  obtain ⟨reqs, hbody, hkeys⟩ := sealBody_eq Config.E kind items p s hitems hp
  exact ⟨reqs, by rw [exec_sivSeal hfits hlen hkind hkey, hbody, complete_ok], hkeys⟩

/-- Settles O55: past its checks the command is `openBody` and its end, whose closed form decides by the two tags. -/
theorem openReleasesVerifiedPlaintextOnly : Obligations.OpenReleasesVerifiedPlaintextOnly := by
  intro kind items tag body s hfits hkind hkey
  obtain ⟨hc, hitems⟩ := item_length_lt hfits.2
  rw [List.length_append, blockBytes_length] at hc
  obtain ⟨reqs, hbody, hkeys⟩ := openBody_eq Config.E kind items tag body s hitems (by omega)
  have hexec := exec_sivOpen hfits (by rw [List.length_append, blockBytes_length]; omega) hkind hkey
  rw [hbody] at hexec
  refine ⟨reqs, fun htag => ?_, fun htag => ?_, hkeys⟩
  · rw [hexec, if_pos htag, complete_ok]
  · rw [hexec, if_neg htag, complete_raise]

/-! ### The round trip (R220) -/

/-- Settles O56: sealing keeps the keys, so opening runs the same keystream a second time, which gives the plaintext
back, and with it the tag that was sealed. -/
theorem openInvertsSeal : Obligations.OpenInvertsSeal := by
  intro items p s hcount hroom hmkind hkey
  obtain ⟨kind, hkind⟩ := Option.ne_none_iff_exists'.mp hmkind
  have hlen := frameVector_length items p
  obtain ⟨sealReqs, hseal, -⟩ :=
    sealAnswersTagAndCiphertext kind items p s ⟨hcount, by omega⟩ (by omega) hkind hkey
  generalize htag : s2vTag (macTag Config.E kind s) items p = tag at hseal
  generalize hbody : ctrStream Config.E (keyBytes .ctr s) (sivIv tag) 0 p = body at hseal
  have hclen : (blockBytes tag ++ body).length = p.length + 16 := by
    rw [List.length_append, blockBytes_length, ← hbody, ctrStream_length, Nat.add_comm]
  have hfits : VectorFits items (blockBytes tag ++ body) := ⟨hcount, by rw [frameVector_length]; omega⟩
  generalize ht : respond okCode 0x41 (blockBytes tag ++ body) (afterSiv s sealReqs) = t at hseal
  have hkeys : SameKeys s t := ht ▸ SameKeys.refl s
  have hplain : ctrStream Config.E (keyBytes .ctr t) (sivIv tag) 0 body = p := by
    rw [hkeys.keyBytes, ← hbody, ctrStream_involutive]
  obtain ⟨openReqs, hopen, -, -⟩ := openReleasesVerifiedPlaintextOnly kind items tag body t hfits
    (hkeys.mkind.trans hkind) (by rwa [hkeys.kctrLen])
  rw [hplain, hkeys.macTag] at hopen
  exact ⟨blockBytes tag ++ body, t, _, hseal, ht ▸ rfl, hclen, hopen htag, rfl⟩

/-! ### What is left behind (R219) -/

/-- Past stage 2 a sealing or opening command answers or raises, and leaves what `siv_end` leaves, `P` wiped if the
command writes it (R217 to R219). -/
theorem PastChecks.sivEnds {E : Cipher} {s : State} {i : Instr} {m : Proc (List Byte)} (h : PastChecks E s i m)
    (hlen : i.WellFormed) (hop : i.opcode = 0x41 ∨ i.opcode = 0x42) :
    ∃ r reqs, m = endIn r { afterSiv s reqs with p := if i.opcode = 0x42 then [] else s.p } := by
  cases h
  case sivSeal hparse _ _ =>
    obtain ⟨hp, hitems⟩ := parseVector_lengths hlen hparse
    obtain ⟨reqs, hbody, -⟩ := sealBody_eq E _ _ _ s hitems hp
    exact ⟨.ok _, reqs, hbody⟩
  case sivOpen nad b payload c items kind hparse hlong _ =>
    obtain ⟨hc, hitems⟩ := parseVector_lengths hlen hparse
    have hshort : (c.drop 16).length < 2 ^ 32 := by rw [List.length_drop]; omega
    obtain ⟨reqs, hbody, -⟩ := openBody_eq E kind items (blockOf (c.take 16)) (c.drop 16) s hitems hshort
    rw [tag_append_body (Nat.not_lt.mpr hlong)] at hbody
    refine ⟨openVerdict E kind items c s, reqs, ?_⟩
    rw [hbody, openVerdict]
    split <;> rfl
  case answer hanswer =>
    obtain hseal | hopen := hop
    · exact absurd (hseal ▸ hanswer) (by decide)
    · exact absurd (hopen ▸ hanswer) (by decide)
  all_goals exact absurd hop (by simp [Instr.opcode])

/-- Settles O57: the command ends in what `siv_end` leaves, and neither the response nor the error log changes another
register. -/
theorem sivCommandsLeaveNoTrace : Obligations.SivCommandsLeaveNoTrace := by
  intro i s t hlen hop hearly hexec
  obtain ⟨r, reqs, hend⟩ := (commandOf_pastChecks Config.E hearly).sivEnds hlen hop
  rw [exec_eq_complete, hend] at hexec
  cases r with
  | ok out => cases hexec; rfl
  | error e => cases hexec; rfl

end Sys2Proof.Machine
end

section
/-! PROOFS. Errors: the order of the checks, what a failing command leaves, and where a digest and a stream end
(60_exceptions.md R244 to R252). -/

namespace Sys2Proof.Machine

/-! ### Stages 1 and 2 (R244, R246, R252) -/

/-- A command with an early error takes it in the state it found, and does nothing else (R246). -/
theorem exec_of_earlyError {i : Instr} {s : State} {e : Err} (h : earlyError i s = some e) :
    exec i s = .next (takeError i.opcode e s) := by
  rw [exec_eq_complete, commandOf_of_earlyError Config.E h, complete_raise]

/-- The checks do not read what taking an error writes (R252). -/
theorem earlyError_takeError (i : Instr) (op : Byte) (e : Err) (s : State) :
    earlyError i (takeError op e s) = earlyError i s := by
  have hstate : stateError i (takeError op e s) = stateError i s := by cases i <;> rfl
  rw [earlyError, hstate, earlyError]

/-- Settles O16: the command takes its early error, which writes the log and the response alone. -/
theorem earlyErrorsChangeOnlyTheLog : Obligations.EarlyErrorsChangeOnlyTheLog := by
  intro i s e h
  exact ⟨_, exec_of_earlyError h, registers_takeError i.opcode e s, rfl, rfl, rfl,
    (earlyError_takeError i i.opcode e s).trans h⟩

/-! ### Stage 3 (R221, R244), and the error log before the error is taken (R29) -/

/-- Two states with the same error log (R29). -/
def SameLog (s t : State) : Prop := t.lasterr = s.lasterr ∧ t.esticky = s.esticky

theorem SameLog.refl (s : State) : SameLog s s := ⟨rfl, rfl⟩

/-- The body answers or raises the one error named, and does not touch the error log: taking the error is what writes
it. -/
def EndsWithin (error : Option Err) (s : State) : Proc (List Byte) → Prop
  | .ok _ t => SameLog s t
  | .raise e t => error = some e ∧ SameLog s t

theorem macLoad_sameLog (E : Cipher) (kind : MacKind) (key : List Byte) (s : State) :
    SameLog s (macLoad E kind key s) := by
  cases kind <;> exact SameLog.refl s

theorem macFinish_sameLog (E : Cipher) (kind : MacKind) (s : State) : SameLog s (macFinish E kind s).2 := by
  cases kind <;> exact SameLog.refl s

/-- `MAC_UPDATE` past its checks raises nothing in CMAC kind, and the limit alone in PMAC kind (R153, R176). -/
theorem macUpdate_endsWithin (E : Cipher) {kind : MacKind} {s : State} (hkind : s.mkind = some kind)
    (bytes : List Byte) :
    EndsWithin (if s.mkind = some .pmac then some .pmacLimit else none) s
      (andThen (macUpdate E kind bytes s) fun _ s => .ok [] s) := by
  cases kind with
  | cmac =>
    obtain ⟨chain, buf, pos, reqs, e⟩ := cmacAbsorbAll_cases E bytes s
    rw [macUpdate, cmacUpdate, e, andThen_ok]
    exact SameLog.refl s
  | pmac =>
    rw [macUpdate, if_pos hkind]
    obtain ⟨buf, pos, offset, tag, cnt, reqs, e⟩ | ⟨reqs, e⟩ := pmacUpdate_cases E bytes s
    · rw [e, andThen_ok]
      exact SameLog.refl s
    · rw [e, andThen_raise]
      exact ⟨rfl, SameLog.refl s⟩

/-- `CTR_XOR` past its checks raises the overflow alone (R194). -/
theorem ctrXor_endsWithin (E : Cipher) (bytes : List Byte) (s : State) :
    EndsWithin (some .ctrOverflow) s (ctrXor E bytes s) := by
  obtain ⟨out, ctrblk, ks, kpos, reqs, e, -⟩ | ⟨reqs, e⟩ := ctrXor_cases E bytes s
  · rw [e]
    exact SameLog.refl s
  · rw [e]
    exact ⟨rfl, SameLog.refl s⟩

/-- `SIV_OPEN` past its checks raises `ERR_INTEGRITY` alone (R218, R221). -/
theorem sivOpen_endsWithin (E : Cipher) (kind : MacKind) {items : List (List Byte)} {c : List Byte} (s : State)
    (hitems : ∀ item ∈ items, item.length < 2 ^ 32) (hc : c.length < 2 ^ 32) (hlong : 16 ≤ c.length) :
    EndsWithin (some .integrity) s (endingWith (fun s => sivEnd (wipeP s)) (openBody E kind items c s)) := by
  have hbody : (c.drop 16).length < 2 ^ 32 := by rw [List.length_drop]; omega
  obtain ⟨reqs, e, -⟩ := openBody_eq E kind items (blockOf (c.take 16)) (c.drop 16) s hitems hbody
  rw [tag_append_body (Nat.not_lt.mpr hlong)] at e
  rw [e]
  split
  case isTrue => exact SameLog.refl s
  case isFalse => exact ⟨rfl, SameLog.refl s⟩

/-- Past its checks every command answers, or raises the stage 3 error of its row (R244). -/
theorem PastChecks.endsWithin {E : Cipher} {s : State} {i : Instr} {p : Proc (List Byte)} (h : PastChecks E s i p)
    (hlen : i.WellFormed) : EndsWithin (executionError i s) s p := by
  cases h with
  | answer => exact SameLog.refl s
  | sivInit => exact macLoad_sameLog E _ _ s
  | macInit => exact macLoad_sameLog E _ _ s
  | ctrInit => exact SameLog.refl s
  | wipe => exact SameLog.refl s
  | macReset => exact SameLog.refl s
  | macUpdate hkind => exact macUpdate_endsWithin E hkind _
  | macFinish => exact macFinish_sameLog E _ s
  | ctrSetiv => exact SameLog.refl s
  | ctrXor => exact ctrXor_endsWithin E _ s
  | s2v hparse =>
    obtain ⟨hp, hitems⟩ := parseVector_lengths hlen hparse
    obtain ⟨reqs, e, -⟩ := s2vBody_eq E _ _ _ s hitems hp
    rw [e]
    exact SameLog.refl s
  | sivSeal hparse =>
    obtain ⟨hp, hitems⟩ := parseVector_lengths hlen hparse
    obtain ⟨reqs, e, -⟩ := sealBody_eq E _ _ _ s hitems hp
    rw [e]
    exact SameLog.refl s
  | sivOpen hparse hlong =>
    obtain ⟨hc, hitems⟩ := parseVector_lengths hlen hparse
    exact sivOpen_endsWithin E _ s hitems hc hlong

/-- Settles O15: an early error is taken at once, and past the checks a command ends within its row of the table. -/
theorem checksFollowPriorityTable : Obligations.ChecksFollowPriorityTable := by
  refine ⟨fun k s hop => runPacket_of_not_mem hop s, fun i s hlen => ⟨fun e => exec_of_earlyError, fun hearly => ?_⟩⟩
  have hends := (commandOf_pastChecks Config.E hearly).endsWithin hlen
  rw [exec_eq_complete]
  cases hbody : commandOf Config.E i s with
  | ok out t => exact .inl ⟨out, t, rfl⟩
  | raise e t =>
    rw [hbody] at hends
    obtain ⟨hrow, -⟩ := hends
    exact .inr ⟨e, t, hrow, rfl⟩

/-! ### Every response and the error log (R245, R250) -/

/-- Every command body ends within some error or none: that of its first failing check, or that of its row (R244). -/
theorem commandOf_endsWithin (E : Cipher) {i : Instr} (s : State) (hlen : i.WellFormed) :
    ∃ error, EndsWithin error s (commandOf E i s) := by
  cases hearly : earlyError i s with
  | none => exact ⟨_, (commandOf_pastChecks E hearly).endsWithin hlen⟩
  | some e =>
    rw [commandOf_of_earlyError E hearly]
    exact ⟨some e, rfl, SameLog.refl s⟩

/-- The body that the run of a packet completes keeps the streams, and leaves the error log to the end of the command
(R71, R76, R245). -/
theorem runPacket_endsWithin {k : Packet} (s : State) (hlen : k.payload.length < 2 ^ 32) :
    ∃ error p, runPacket k s = complete k.op p ∧ AnswersFrom s p ∧ EndsWithin error s p := by
  cases hpacket : decodePacket k with
  | ok i =>
    obtain ⟨hop, -, -, hpayload⟩ := decodePacket_ok hpacket
    have hwf : i.WellFormed := by rwa [Instr.WellFormed, hpayload]
    obtain ⟨error, hends⟩ := commandOf_endsWithin Config.E s hwf
    refine ⟨error, _, ?_, commandOf_answersFrom Config.E s hwf, hends⟩
    rw [runPacket_of_decodePacket_ok hpacket, exec_eq_complete, hop]
  | error e =>
    exact ⟨some .opcode, .raise .opcode s, by simp only [runPacket, hpacket, complete_raise], .raise rfl rfl, rfl,
      SameLog.refl s⟩

/-- Settles O17: the body leaves streams and log as they were, so the log is written exactly where an error is taken. -/
theorem everyErrorResponseIsLogged : Obligations.EveryErrorResponseIsLogged := by
  intro s t k rest htake hstep
  obtain ⟨hlen, -⟩ := takePacket_some htake
  obtain ⟨_, p, hrun, hanswers, hends⟩ := runPacket_endsWithin { s with cmdStream := rest } hlen
  have hresp := hanswers.respStream
  rw [step_of_takePacket htake, hrun] at hstep
  cases p with
  | ok out u =>
    obtain ⟨hlast, hsticky⟩ := hends
    cases hstep
    exact .inl ⟨out, congrArg (· ++ _) hresp, hlast, hsticky⟩
  | raise e u =>
    obtain ⟨-, -, hsticky⟩ := hends
    cases hstep
    exact .inr ⟨errCode e, errCode_ne_ok e, congrArg (· ++ _) hresp, rfl, congrArg (· ||| _) hsticky⟩

/-! ### Where a PMAC digest ends (R176, R247) -/

/-- What an abandoned digest leaves: the accumulators wiped, Finished, after the given requests (R176, R247). -/
def pmacAbandoned (s : State) (reqs : List Block) : State :=
  { s with
    buf := 0, pos := 0, offset := 0, tag := 0, cnt := 0, mst := .finished
    cipherPort := s.cipherPort ++ reqs.map (CipherReq.mk .mac) }

theorem pmacLimit_eq (s : State) : pmacLimit s = .raise .pmacLimit (pmacAbandoned s []) := by
  simp [pmacLimit, pmacAbandoned]

/-- A block processed before the digest is abandoned has made its request. -/
theorem pmacAbandoned_pmacBlockWith (E : Cipher) (o : Block) (s : State) (reqs : List Block) :
    pmacAbandoned (pmacBlockWith E o s) reqs = pmacAbandoned s ((o ^^^ s.buf) :: reqs) := by
  simp [pmacAbandoned, pmacBlockWith]

/-- The table has an entry for each block up to number `2^31 - 1` (R16, R176). -/
theorem ctz_lt_31_iff {n : Nat} (h : n ≤ 2 ^ 31 - 1) : ctz (n + 1) < 31 ↔ n < 2 ^ 31 - 1 := by
  constructor
  · intro hctz
    refine Nat.lt_of_le_of_ne h fun hlast => ?_
    rw [hlast, show 2 ^ 31 - 1 + 1 = 2 ^ 31 by decide, ctz_two_pow_31] at hctz
    exact absurd hctz (by decide)
  · exact fun hn => ctz_lt (by omega) (by omega)

theorem pmacBlockWith_cnt_toNat (E : Cipher) (o : Block) {s : State} (h : s.cnt.toNat < 2 ^ 31 - 1) :
    (pmacBlockWith E o s).cnt.toNat = s.cnt.toNat + 1 :=
  BitVec.toNat_add_of_lt (y := 1#32) (by rw [BitVec.toNat_ofNat]; omega)

/-- A digest that is abandoned was so after a request for each block that `CNT` still had room for (R247). -/
theorem pmacUpdate_raise_requests {E : Cipher} {bytes : List Byte} {s t : State} {err : Err}
    (hcnt : s.cnt.toNat ≤ 2 ^ 31 - 1) (h : pmacUpdate E bytes s = .raise err t) :
    ∃ reqs : List Block, reqs.length = 2 ^ 31 - 1 - s.cnt.toNat ∧ t = pmacAbandoned s reqs := by
  induction bytes generalizing s with
  | nil => cases h
  | cons d bytes ih =>
    rw [pmacUpdate_cons] at h
    by_cases hfull : s.pos = 16
    · rw [pmacMakeRoom_full E hfull] at h
      by_cases hroom : s.cnt.toNat < 2 ^ 31 - 1
      · have hentry : ctz (s.cnt.toNat + 1) < 31 := (ctz_lt_31_iff hcnt).mpr hroom
        have hsucc := pmacBlockWith_cnt_toNat E (s.offset ^^^ s.lTab[ctz (s.cnt.toNat + 1)]) hroom
        rw [pmacBlock_entry E hentry, andThen_ok] at h
        obtain ⟨reqs, hlen, ht⟩ := ih (by rw [bufferByte_cnt, hsucc]; omega) h
        rw [bufferByte_cnt, hsucc] at hlen
        exact ⟨_ :: reqs, by rw [List.length_cons]; omega, ht.trans (pmacAbandoned_pmacBlockWith E _ s reqs)⟩
      · rw [pmacBlock_noEntry E (mt (ctz_lt_31_iff hcnt).mp hroom), pmacLimit_eq, andThen_raise] at h
        cases h
        exact ⟨[], by rw [List.length_nil]; omega, rfl⟩
    · rw [pmacMakeRoom_room E hfull, andThen_ok] at h
      exact ih (s := bufferByte d s) hcnt h

/-- `MAC_UPDATE` on a finished digest (R31, R156). -/
theorem exec_macUpdate_finished {s : State} {kind : MacKind} (hkind : s.mkind = some kind) (hmst : s.mst = .finished)
    (bytes : List Byte) : exec (.macUpdate 0 0 bytes) s = .next (takeError 0x21 .macFinished s) :=
  exec_of_earlyError (by simp [earlyError, packetError, stateError, hkind, hmst])

/-- Settles O44: `fedBytes` decides whether the table lasts, and an abandoned digest is Finished. -/
theorem pmacLimitAbandonsTheDigest : Obligations.PmacLimitAbandonsTheDigest := by
  intro s bytes hkind hmst hcnt
  refine ⟨fun hfits => ?within, fun hbeyond => ?beyond⟩
  case within =>
    obtain ⟨t, habsorb⟩ := pmacAbsorbAll_within Config.E bytes hcnt hfits
    have hupdate : pmacUpdate Config.E bytes s = .ok () (accumulating t) := by
      rw [pmacUpdate, habsorb, andThen_ok]
      rfl
    exact ⟨_, exec_macUpdate_pmac_ok hkind hmst hupdate, rfl⟩
  case beyond =>
    obtain ⟨t, habsorb⟩ := pmacAbsorbAll_beyond Config.E bytes hcnt hbeyond
    have hupdate : pmacUpdate Config.E bytes s = .raise .pmacLimit t := by rw [pmacUpdate, habsorb, andThen_raise]
    obtain ⟨reqs, hlen, rfl⟩ := pmacUpdate_raise_requests hcnt hupdate
    exact ⟨reqs, hlen, exec_macUpdate_pmac_raise hkind hmst hupdate,
      exec_macUpdate_finished (s := takeError 0x21 .pmacLimit (pmacAbandoned s reqs)) hkind rfl bytes⟩

/-! ### Where a stream ends (R194, R248) -/

theorem ctrblk_toNat_lt {b : Block} (h : b ≠ BitVec.allOnes 128) : b.toNat < 2 ^ 128 - 1 := by
  have hne : b.toNat ≠ 2 ^ 128 - 1 := fun e => h (BitVec.eq_of_toNat_eq (by rw [e, BitVec.toNat_allOnes]))
  have hlt := b.isLt
  omega

/-- A sequence whose last part only answers raises in the part before it. -/
theorem eq_raise_of_andThen_ok {α β : Type} {m : Proc α} {f : α → β} {e : Err} {t : State}
    (h : andThen m (fun v s => .ok (f v) s) = .raise e t) : m = .raise e t := by
  obtain hraise | ⟨_, _, -, hok⟩ := andThen_eq_raise h
  · exact hraise
  · cases hok

/-- A stream that ends does so after a request for each counter value below all-`ff` that was to come (R248). -/
theorem ctrXor_raise_requests {E : Cipher} {bytes : List Byte} {s t : State} {err : Err}
    (h : ctrXor E bytes s = .raise err t) :
    ∃ reqs : List Block, reqs.length = 2 ^ 128 - 1 - s.ctrblk.toNat ∧
      t = ctrClear { s with cipherPort := s.cipherPort ++ reqs.map (CipherReq.mk .ctr) } := by
  induction bytes generalizing s with
  | nil => cases h
  | cons d bytes ih =>
    rw [ctrXor_cons] at h
    obtain ⟨hroom, -⟩ | ⟨hblock, -, hne⟩ | ⟨hover, -, hfull⟩ := ctrMakeRoom_cases E s
    · rw [hroom, andThen_ok] at h
      exact ih (s := { s with kpos := s.kpos + 1 }) (eq_raise_of_andThen_ok h)
    · rw [hblock, andThen_ok] at h
      have hlt := ctrblk_toNat_lt hne
      have hsucc : (s.ctrblk + 1).toNat = s.ctrblk.toNat + 1 :=
        BitVec.toNat_add_of_lt (y := 1#128) (by rw [BitVec.toNat_ofNat]; omega)
      obtain ⟨reqs, hlen, rfl⟩ := ih (eq_raise_of_andThen_ok h)
      rw [hsucc] at hlen
      exact ⟨s.ctrblk :: reqs, by rw [List.length_cons]; omega, by simp [ctrClear]⟩
    · rw [hover, andThen_raise] at h
      cases h
      exact ⟨[], by rw [hfull, BitVec.toNat_allOnes, List.length_nil, Nat.sub_self], by simp⟩

/-- `CTR_XOR` without a stream (R32). -/
theorem exec_ctrXor_idle {s : State} (hkey : s.kctrLen ≠ .noKey) (hcst : s.cst = .idle) (bytes : List Byte) :
    exec (.ctrXor 0 0 bytes) s = .next (takeError 0x31 .ctrState s) :=
  exec_of_earlyError (by simp [earlyError, packetError, stateError, hkey, hcst])

/-- Settles O50: `streamRoom` decides whether the stream lasts, and a stream that ended is Idle. -/
theorem ctrOverflowKillsTheStream : Obligations.CtrOverflowKillsTheStream := by
  intro s bytes hkey hcst
  refine ⟨fun hfits => ?within, fun hbeyond => ?beyond⟩
  case within =>
    obtain ⟨_, _, hok⟩ := ctrXor_within Config.E bytes hfits
    obtain ⟨out, ctrblk, ks, kpos, reqs, hxor, hlen⟩ | ⟨_, hraise⟩ := ctrXor_cases Config.E bytes s
    · exact ⟨out, ctrblk, ks, kpos, _, exec_ctrXor_ok hkey hcst hxor, hlen⟩
    · cases hok.symm.trans hraise
  case beyond =>
    obtain ⟨t, hraise⟩ := ctrXor_beyond Config.E bytes hbeyond
    obtain ⟨reqs, hlen, rfl⟩ := ctrXor_raise_requests hraise
    exact ⟨reqs, hlen, exec_ctrXor_raise hkey hcst hraise, exec_ctrXor_idle (by exact hkey) rfl bytes⟩

end Sys2Proof.Machine
end

section
/-! PROOFS. Waiting for a packet, the external reset and `WIPE` (20_memory.md R51; 70_reset_and_hazards.md R270, R271). -/

namespace Sys2Proof.Machine

/-- Settles O9: a step either waits or runs a whole packet. -/
theorem engineWaitsForAWholePacket : Obligations.EngineWaitsForAWholePacket := by
  intro s hnone
  obtain ⟨-, hstep⟩ | ⟨k, rest, hsome, -⟩ := step_cases s
  · exact hstep
  · cases hnone.symm.trans hsome

/-! ### Reset and `WIPE` (R270, R271) -/

/-- The error log stands in bytes 7 to 9 of the status block (R35). -/
theorem statusBlock_log (s : State) (lasterr : BitVec 8) (esticky : BitVec 16) :
    statusBlock { s with lasterr := lasterr, esticky := esticky } =
      (((statusBlock s).set 7 lasterr).set 8 (esticky.extractLsb' 8 8)).set 9 (esticky.extractLsb' 0 8) := by
  rw [statusBlock_eq, statusBlock_eq]
  rfl

/-- Settles O11: `WIPE` leaves what the reset leaves but for the log, which no other byte of the status block shows. -/
theorem resetAndWipeCompared : Obligations.ResetAndWipeCompared := by
  intro s
  obtain ⟨hwipe, -⟩ := wipeKeepsOnlyTheLog 0 0 [] s
  refine ⟨rfl, _, hwipe rfl rfl rfl, rfl, fun n h7 h8 h9 => ?_⟩
  refine (congrArg (·[n]?) (statusBlock_log (hostReset s) s.lasterr s.esticky)).trans ?_
  rw [List.getElem?_set_ne h9.symm, List.getElem?_set_ne h8.symm, List.getElem?_set_ne h7.symm]

end Sys2Proof.Machine
end

section
/-! PROOFS. Data independence: two runs of one command on different data, side by side (70_reset_and_hazards.md R279). -/

namespace Sys2Proof

/-! ### Commands of one header (R70) -/

/-- The command with its header's opcode and arguments and another payload (R70). -/
def Instr.withPayload (payload : List Byte) : Instr → Instr
  | .dbl a b _ => .dbl a b payload
  | .dblinv a b _ => .dblinv a b payload
  | .xor a n _ => .xor a n payload
  | .pad pos b _ => .pad pos b payload
  | .select bit b _ => .select bit b payload
  | .cmp a n _ => .cmp a n payload
  | .equal a n _ => .equal a n payload
  | .sivInit kind b _ => .sivInit kind b payload
  | .macInit kind b _ => .macInit kind b payload
  | .ctrInit a b _ => .ctrInit a b payload
  | .wipe a b _ => .wipe a b payload
  | .getStatus a b _ => .getStatus a b payload
  | .macReset a b _ => .macReset a b payload
  | .macUpdate a b _ => .macUpdate a b payload
  | .macFinish a b _ => .macFinish a b payload
  | .ctrSetiv a b _ => .ctrSetiv a b payload
  | .ctrXor a b _ => .ctrXor a b payload
  | .s2v nad b _ => .s2v nad b payload
  | .sivSeal nad b _ => .sivSeal nad b payload
  | .sivOpen nad b _ => .sivOpen nad b payload

theorem decodePacket_withPayload (i : Instr) (payload : List Byte) :
    decodePacket ⟨i.opcode, i.argA, i.argB, payload⟩ = .ok (i.withPayload payload) := by
  cases i <;> rfl

/-- Two commands of one header differ in their payloads alone. -/
theorem eq_withPayload {i j : Instr} (hop : i.opcode = j.opcode) (ha : i.argA = j.argA) (hb : i.argB = j.argB) :
    j = i.withPayload j.payload := by
  have hj := decodePacket_ownFields j
  rw [← hop, ← ha, ← hb, decodePacket_withPayload] at hj
  exact (Except.ok.inj hj).symm

namespace Machine

/-! ### Requests that select the same keys (R55, R279) -/

/-- Since the cipher ports stood at `c` and `c'`, two runs have made requests that select the same keys in the same
order. -/
def SameRequests (c c' : List CipherReq) (t t' : State) : Prop :=
  ∃ reqs reqs', t.cipherPort = c ++ reqs ∧ t'.cipherPort = c' ++ reqs' ∧
    reqs.map CipherReq.key = reqs'.map CipherReq.key

theorem SameRequests.none {c c' : List CipherReq} {t t' : State} (ht : t.cipherPort = c) (ht' : t'.cipherPort = c') :
    SameRequests c c' t t' :=
  ⟨[], [], by rw [ht, List.append_nil], by rw [ht', List.append_nil], rfl⟩

theorem SameRequests.one {c c' : List CipherReq} {t t' : State} {sel : KeySel} {b b' : Block}
    (ht : t.cipherPort = c ++ [⟨sel, b⟩]) (ht' : t'.cipherPort = c' ++ [⟨sel, b'⟩]) : SameRequests c c' t t' :=
  ⟨_, _, ht, ht', rfl⟩

theorem SameRequests.trans {c c' : List CipherReq} {t t' u u' : State} (h : SameRequests c c' t t')
    (h' : SameRequests t.cipherPort t'.cipherPort u u') : SameRequests c c' u u' := by
  obtain ⟨r, r', ht, ht', hkeys⟩ := h
  obtain ⟨q, q', hu, hu', hkeys'⟩ := h'
  refine ⟨r ++ q, r' ++ q', ?_, ?_, ?_⟩
  · rw [hu, ht, List.append_assoc]
  · rw [hu', ht', List.append_assoc]
  · rw [List.map_append, List.map_append, hkeys, hkeys']

/-! ### Two runs of a procedure, side by side (R18, R279) -/

/-- Two runs, started with the cipher ports at `c` and `c'`, make the same requests and both answer, in values and
states that `Q` relates, or both raise the same error. -/
inductive SameCourse {α : Type} (c c' : List CipherReq) (Q : α → State → α → State → Prop) : Proc α → Proc α → Prop
  | ok {v v' : α} {t t' : State} (hreqs : SameRequests c c' t t') (hQ : Q v t v' t') :
    SameCourse c c' Q (.ok v t) (.ok v' t')
  | raise {e : Err} {t t' : State} (hreqs : SameRequests c c' t t') : SameCourse c c' Q (.raise e t) (.raise e t')

/-- Requests made before a run come before the requests of the run. -/
theorem SameCourse.after {α : Type} {c c' : List CipherReq} {Q : α → State → α → State → Prop} {t t' : State}
    {m m' : Proc α} (ht : SameRequests c c' t t') (h : SameCourse t.cipherPort t'.cipherPort Q m m') :
    SameCourse c c' Q m m' := by
  cases h with
  | ok hreqs hQ => exact .ok (ht.trans hreqs) hQ
  | raise hreqs => exact .raise (ht.trans hreqs)

/-- Sequences run side by side when their parts do. -/
theorem SameCourse.andThen {α β : Type} {c c' : List CipherReq} {Q : α → State → α → State → Prop}
    {R : β → State → β → State → Prop} {m m' : Proc α} {f f' : α → State → Proc β} (hm : SameCourse c c' Q m m')
    (hf : ∀ v t v' t', Q v t v' t' → SameCourse t.cipherPort t'.cipherPort R (f v t) (f' v' t')) :
    SameCourse c c' R (andThen m f) (andThen m' f') := by
  cases hm with
  | ok hreqs hQ => exact .after hreqs (hf _ _ _ _ hQ)
  | raise hreqs => exact .raise hreqs

/-! ### The MAC unit: its requests depend on `POS`, `CNT` and the number of bytes (R153, R173, R279) -/

theorem cmacAbsorb_sameRequests (E : Cipher) (d d' : Byte) {s s' : State} (hpos : s.pos = s'.pos) :
    SameRequests s.cipherPort s'.cipherPort (cmacAbsorb E d s) (cmacAbsorb E d' s') ∧
      (cmacAbsorb E d s).pos = (cmacAbsorb E d' s').pos := by
  unfold cmacAbsorb
  rw [← hpos]
  split
  case isTrue => exact ⟨.one rfl rfl, rfl⟩
  case isFalse => exact ⟨.none rfl rfl, congrArg (· + 1) hpos⟩

theorem cmacAbsorbAll_sameRequests (E : Cipher) {ds ds' : List Byte} (hlen : ds'.length = ds.length) {s s' : State}
    (hpos : s.pos = s'.pos) :
    SameRequests s.cipherPort s'.cipherPort (cmacAbsorbAll E ds s) (cmacAbsorbAll E ds' s') := by
  induction ds generalizing ds' s s' with
  | nil =>
    obtain rfl := List.length_eq_zero_iff.mp hlen
    exact .none rfl rfl
  | cons d ds ih =>
    obtain ⟨d', ds', rfl⟩ := List.exists_cons_of_length_eq_add_one hlen
    obtain ⟨hreqs, hpos⟩ := cmacAbsorb_sameRequests E d d' hpos
    exact hreqs.trans (ih (Nat.succ.inj hlen) hpos)

/-- The table index is a function of `CNT` (R174). -/
theorem pmacMakeRoom_sameCourse (E : Cipher) {s s' : State} (hpos : s.pos = s'.pos) (hcnt : s.cnt = s'.cnt) :
    SameCourse s.cipherPort s'.cipherPort (fun _ t _ t' => t.pos = t'.pos ∧ t.cnt = t'.cnt) (pmacMakeRoom E s)
      (pmacMakeRoom E s') := by
  by_cases hfull : s.pos = 16
  · rw [pmacMakeRoom_full E hfull, pmacMakeRoom_full E (hpos ▸ hfull)]
    by_cases hctz : ctz (s.cnt.toNat + 1) < 31
    · rw [pmacBlock_entry E hctz, pmacBlock_entry E (s := s') (hcnt ▸ hctz)]
      exact .ok (.one rfl rfl) ⟨rfl, congrArg (· + 1) hcnt⟩
    · rw [pmacBlock_noEntry E hctz, pmacBlock_noEntry E (s := s') (hcnt ▸ hctz)]
      exact .raise (.none rfl rfl)
  · rw [pmacMakeRoom_room E hfull, pmacMakeRoom_room E (hpos ▸ hfull)]
    exact .ok (.none rfl rfl) ⟨hpos, hcnt⟩

theorem pmacUpdate_sameCourse (E : Cipher) {ds ds' : List Byte} (hlen : ds'.length = ds.length) {s s' : State}
    (hpos : s.pos = s'.pos) (hcnt : s.cnt = s'.cnt) :
    SameCourse s.cipherPort s'.cipherPort (fun _ _ _ _ => True) (pmacUpdate E ds s) (pmacUpdate E ds' s') := by
  induction ds generalizing ds' s s' with
  | nil =>
    obtain rfl := List.length_eq_zero_iff.mp hlen
    exact .ok (.none rfl rfl) trivial
  | cons d ds ih =>
    obtain ⟨d', ds', rfl⟩ := List.exists_cons_of_length_eq_add_one hlen
    rw [pmacUpdate_cons, pmacUpdate_cons]
    refine (pmacMakeRoom_sameCourse E hpos hcnt).andThen fun _ t _ t' ⟨hpos, hcnt⟩ => ?_
    exact ih (s := bufferByte d t) (s' := bufferByte d' t') (Nat.succ.inj hlen) (congrArg (· + 1) hpos) hcnt

/-- Both kinds (R153, R173). -/
theorem macUpdate_sameCourse (E : Cipher) (kind : MacKind) {ds ds' : List Byte} (hlen : ds'.length = ds.length)
    {s s' : State} (hpos : s.pos = s'.pos) (hcnt : s.cnt = s'.cnt) :
    SameCourse s.cipherPort s'.cipherPort (fun _ _ _ _ => True) (macUpdate E kind ds s) (macUpdate E kind ds' s') := by
  cases kind with
  | cmac => exact .ok (cmacAbsorbAll_sameRequests E hlen hpos) trivial
  | pmac => exact pmacUpdate_sameCourse E hlen hpos hcnt

theorem macFinish_sameRequests (E : Cipher) (kind : MacKind) (s s' : State) :
    SameRequests s.cipherPort s'.cipherPort (macFinish E kind s).2 (macFinish E kind s').2 := by
  cases kind with
  | cmac => exact .one rfl rfl
  | pmac => exact .one rfl rfl

/-! ### The CTR unit: its requests depend on `KPOS`, `CTRBLK` and the number of bytes (R193, R194, R279) -/

theorem ctrMakeRoom_sameCourse (E : Cipher) {s s' : State} (hkpos : s.kpos = s'.kpos) (hctrblk : s.ctrblk = s'.ctrblk) :
    SameCourse s.cipherPort s'.cipherPort (fun _ t _ t' => t.kpos = t'.kpos ∧ t.ctrblk = t'.ctrblk) (ctrMakeRoom E s)
      (ctrMakeRoom E s') := by
  unfold ctrMakeRoom
  rw [← hkpos]
  split
  case isFalse => exact .ok (.none rfl rfl) ⟨hkpos, hctrblk⟩
  case isTrue =>
    by_cases hfull : s.ctrblk = BitVec.allOnes 128
    · rw [ctrNextBlock_overflow E hfull, ctrNextBlock_overflow E (hctrblk ▸ hfull)]
      exact .raise (.none rfl rfl)
    · rw [ctrNextBlock_room E hfull, ctrNextBlock_room E (hctrblk ▸ hfull)]
      exact .ok (.one rfl rfl) ⟨rfl, congrArg (· + 1) hctrblk⟩

/-- Two answers of one length. -/
def SameLength (out : List Byte) (_ : State) (out' : List Byte) (_ : State) : Prop := out.length = out'.length

theorem ctrXor_sameCourse (E : Cipher) {ds ds' : List Byte} (hlen : ds'.length = ds.length) {s s' : State}
    (hkpos : s.kpos = s'.kpos) (hctrblk : s.ctrblk = s'.ctrblk) :
    SameCourse s.cipherPort s'.cipherPort SameLength (ctrXor E ds s) (ctrXor E ds' s') := by
  induction ds generalizing ds' s s' with
  | nil =>
    obtain rfl := List.length_eq_zero_iff.mp hlen
    exact .ok (.none rfl rfl) rfl
  | cons d ds ih =>
    obtain ⟨d', ds', rfl⟩ := List.exists_cons_of_length_eq_add_one hlen
    rw [ctrXor_cons, ctrXor_cons]
    refine (ctrMakeRoom_sameCourse E hkpos hctrblk).andThen fun _ t _ t' ⟨hkpos, hctrblk⟩ => ?_
    have hrest := ih (s := { t with kpos := t.kpos + 1 }) (s' := { t' with kpos := t'.kpos + 1 }) (Nat.succ.inj hlen)
      (congrArg (· + 1) hkpos) hctrblk
    exact hrest.andThen fun _ _ _ _ hout => .ok (.none rfl rfl) (congrArg (· + 1) hout)

/-! ### Framed vectors of one shape (R75, R279) -/

/-- Vectors of one shape fail to parse with the same error, or parse to strings of the same lengths. -/
theorem parseVector_of_vectorShape_eq {nad : Byte} {p q : List Byte} (h : vectorShape nad p = vectorShape nad q) :
    (∃ e, parseVector nad p = .error e ∧ parseVector nad q = .error e) ∨
      ∃ items final items' final', parseVector nad p = .ok (items, final) ∧ parseVector nad q = .ok (items', final') ∧
        items.map List.length = items'.map List.length ∧ final.length = final'.length := by
  unfold vectorShape at h
  cases hp : parseVector nad p with
  | error e =>
    cases hq : parseVector nad q with
    | error e' =>
      rw [hp, hq] at h
      cases h
      exact .inl ⟨e, rfl, rfl⟩
    | ok r => rw [hp, hq] at h; cases h
  | ok r =>
    cases hq : parseVector nad q with
    | error e' => rw [hp, hq] at h; cases h
    | ok r' =>
      rw [hp, hq] at h
      obtain ⟨hitems, hfinal⟩ := Prod.mk.inj (Except.ok.inj h)
      exact .inr ⟨r.1, r.2, r'.1, r'.2, rfl, rfl, hitems, hfinal⟩

theorem vectorError_of_error {nad : Byte} {p : List Byte} {e : Err} (h : parseVector nad p = .error e) :
    vectorError nad p = some e := by
  obtain ⟨e', hparse, herror⟩ | ⟨items, final, hparse, -⟩ := parseVector_cases nad p
  · cases h.symm.trans hparse
    exact herror
  · cases h.symm.trans hparse

theorem vectorError_of_ok {nad : Byte} {p final : List Byte} {items : List (List Byte)}
    (h : parseVector nad p = .ok (items, final)) :
    vectorError nad p = none ∧ finalLength nad p = final.length := by
  obtain ⟨e', hparse, -⟩ | ⟨items', final', hparse, hnone, hfinal⟩ := parseVector_cases nad p
  · cases h.symm.trans hparse
  · cases h.symm.trans hparse
    exact ⟨hnone, hfinal⟩

/-- Framing and a check of the final string's length fail alike for vectors of one shape. -/
theorem vectorError_or_congr {nad : Byte} {p q : List Byte} (h : vectorShape nad p = vectorShape nad q)
    (check : Nat → Option Err) :
    (vectorError nad p).or (check (finalLength nad p)) = (vectorError nad q).or (check (finalLength nad q)) := by
  obtain ⟨e, hp, hq⟩ | ⟨items, final, items', final', hp, hq, -, hfinal⟩ := parseVector_of_vectorShape_eq h
  · rw [vectorError_of_error hp, vectorError_of_error hq, Option.some_or, Option.some_or]
  · obtain ⟨hnone, hlen⟩ := vectorError_of_ok hp
    obtain ⟨hnone', hlen'⟩ := vectorError_of_ok hq
    rw [hnone, hnone', hlen, hlen', hfinal]

/-! ### Stages 1 and 2 (R244, R279 (1)) -/

/-- A payload of the same length, and of the same shape where it is a framed vector (R279). -/
def SamePayloadShape (i : Instr) (q : List Byte) : Prop :=
  q.length = i.payload.length ∧
    (i.opcode ∈ [0x40#8, 0x41#8, 0x42#8] → vectorShape i.argA i.payload = vectorShape i.argA q)

theorem SameShape.exists_withPayload {i j : Instr} (h : SameShape i j) :
    ∃ q, j = i.withPayload q ∧ SamePayloadShape i q := by
  obtain ⟨hop, ha, hb, hlen, hshape⟩ := h
  exact ⟨j.payload, eq_withPayload hop ha hb, hlen.symm, fun hvector => by rw [hshape hvector, ha]⟩

theorem packetError_withPayload {i : Instr} {q : List Byte} (h : SamePayloadShape i q) :
    packetError (i.withPayload q) = packetError i := by
  obtain ⟨hlen, hshape⟩ := h
  cases i
  case s2v nad b p =>
    have herror := vectorError_or_congr (hshape (by simp [Instr.opcode])) fun _ => none
    rw [Option.or_none, Option.or_none] at herror
    exact congrArg (fun e => if b ≠ 0 then some .badArg else e) herror.symm
  case sivSeal nad b p =>
    have herror := vectorError_or_congr (hshape (by simp [Instr.opcode])) fun n =>
      if n > 2 ^ 32 - 17 then some .length else none
    exact congrArg (fun e => if b ≠ 0 then some .badArg else e) herror.symm
  case sivOpen nad b p =>
    have herror := vectorError_or_congr (hshape (by simp [Instr.opcode])) fun n =>
      if n < 16 then some .truncated else none
    exact congrArg (fun e => if b ≠ 0 then some .badArg else e) herror.symm
  all_goals
    rw [Instr.payload] at hlen
    simp only [Instr.withPayload, packetError, hlen]

theorem stateError_withPayload (i : Instr) (q : List Byte) (s : State) :
    stateError (i.withPayload q) s = stateError i s := by
  cases i <;> rfl

/-- The checks of stage 2 read `MKIND`, `KCTRLEN`, `MST` and `CST` (R244). -/
theorem stateError_congr {s s' : State} (h : SameControl s s') (i : Instr) : stateError i s = stateError i s' := by
  obtain ⟨hmkind, hkctrLen, hmst, hcst, -⟩ := h
  cases i <;> simp only [stateError, hmkind, hkctrLen, hmst, hcst]

/-! ### What an observer without the data sees of a command (R279 (2) to (5)) -/

/-- Two commands with the opcode byte `op`, run in `s` and `s'`, make the same requests and answer with the same status
and a payload of the same length; `SIV_OPEN` alone may fail verification in one of the runs and pass it in the other. -/
structure Indistinguishable (op : Byte) (s s' : State) (p p' : Proc (List Byte)) : Prop where
  requests : SameRequests s.cipherPort s'.cipherPort (finalState p) (finalState p')
  answers : statusOf p = statusOf p' ∧ (payloadOf p).length = (payloadOf p').length ∨
    op = 0x42 ∧ (statusOf p = okCode ∧ statusOf p' = errCode .integrity ∨
      statusOf p = errCode .integrity ∧ statusOf p' = okCode)

section

variable {op : Byte} {s s' t t' : State} {e : Err} {p p' : Proc (List Byte)}

namespace Indistinguishable

theorem ok {out out' : List Byte} (hreqs : SameRequests s.cipherPort s'.cipherPort t t')
    (hlen : out.length = out'.length) : Indistinguishable op s s' (.ok out t) (.ok out' t') := ⟨hreqs, .inl ⟨rfl, hlen⟩⟩

theorem raise (hreqs : SameRequests s.cipherPort s'.cipherPort t t') :
    Indistinguishable op s s' (.raise e t) (.raise e t') := ⟨hreqs, .inl ⟨rfl, rfl⟩⟩

/-- Answers without a request and without a change of state. -/
theorem answer {out out' : List Byte} (hlen : out.length = out'.length) :
    Indistinguishable op s s' (.ok out s) (.ok out' s') := ok (.none rfl rfl) hlen

/-- An answer of one block. -/
theorem block {b b' : Block} (hreqs : SameRequests s.cipherPort s'.cipherPort t t') :
    Indistinguishable op s s' (.ok (blockBytes b) t) (.ok (blockBytes b') t') :=
  ok hreqs (by rw [blockBytes_length, blockBytes_length])

/-- An early error, in the states the commands found. -/
theorem early : Indistinguishable op s s' (.raise e s) (.raise e s') := raise (.none rfl rfl)

/-- A check that fails in both runs or in none. -/
theorem check {c c' : Prop} [Decidable c] [Decidable c'] (hc : c ↔ c') (h : ¬c → Indistinguishable op s s' p p') :
    Indistinguishable op s s' (if c then .raise e s else p) (if c' then .raise e s' else p') := by
  by_cases hfails : c
  · rw [if_pos hfails, if_pos (hc.mp hfails)]
    exact early
  · rw [if_neg hfails, if_neg (mt hc.mpr hfails)]
    exact h hfails

/-- A verification of which nothing is known (R218, R279 (4)). -/
theorem verification {c c' : Prop} [Decidable c] [Decidable c'] {out out' : List Byte}
    (hreqs : SameRequests s.cipherPort s'.cipherPort t t') (hlen : out.length = out'.length) :
    Indistinguishable 0x42 s s' (if c then .ok out t else .raise .integrity t)
      (if c' then .ok out' t' else .raise .integrity t') := by
  by_cases hc : c
  · rw [if_pos hc]
    by_cases hc' : c'
    · rw [if_pos hc']
      exact ok hreqs hlen
    · rw [if_neg hc']
      exact ⟨hreqs, .inr ⟨rfl, .inl ⟨rfl, rfl⟩⟩⟩
  · rw [if_neg hc]
    by_cases hc' : c'
    · rw [if_pos hc']
      exact ⟨hreqs, .inr ⟨rfl, .inr ⟨rfl, rfl⟩⟩⟩
    · rw [if_neg hc']
      exact raise hreqs

end Indistinguishable

theorem SameCourse.indistinguishable (h : SameCourse s.cipherPort s'.cipherPort SameLength p p') :
    Indistinguishable op s s' p p' := by
  cases h with
  | ok hreqs hlen => exact .ok hreqs hlen
  | raise hreqs => exact .raise hreqs

end

theorem length_ne_iff {p q : List Byte} (hlen : q.length = p.length) (n : Nat) : p.length ≠ n ↔ q.length ≠ n := by
  rw [hlen]

/-! ### The commands, run with two payloads of one shape in two states with the same control registers -/

theorem xorCommand_indistinguishable (a : Byte) (n : Half) {p q : List Byte} (s s' : State)
    (hlen : q.length = p.length) : Indistinguishable 0x03 s s' (xorCommand a n p s) (xorCommand a n q s') := by
  have htake : (q.take n.toNat).length = (p.take n.toNat).length := by rw [List.length_take, List.length_take, hlen]
  have hdrop : (q.drop n.toNat).length = (p.drop n.toNat).length := by rw [List.length_drop, List.length_drop, hlen]
  refine .check .rfl fun _ => .check (by rw [hlen]) fun _ => .check (by rw [htake, hdrop]) fun _ => .answer ?_
  rw [xorBytes_length, xorBytes_length, htake]

theorem selectBytes_length (bit : Byte) {as bs : List Byte} (h : as.length = bs.length) :
    (selectBytes bit as bs).length = as.length := by
  induction as generalizing bs with
  | nil => rfl
  | cons a as ih =>
    obtain ⟨b, bs, rfl⟩ := List.exists_cons_of_length_eq_add_one h.symm
    exact congrArg (· + 1) (ih (Nat.succ.inj h))

/-- `SELECT` answers half its payload's length (R110). -/
theorem selectBytes_halves_length (bit : Byte) {p : List Byte} (heven : ¬p.length % 2 = 1) :
    (selectBytes bit (p.take (p.length / 2)) (p.drop (p.length / 2))).length = p.length / 2 := by
  rw [selectBytes_length bit (by rw [List.length_take, List.length_drop]; omega), List.length_take]
  omega

theorem selectCommand_indistinguishable (bit : Byte) (b : Half) {p q : List Byte} (s s' : State)
    (hlen : q.length = p.length) :
    Indistinguishable 0x05 s s' (selectCommand bit b p s) (selectCommand bit b q s') := by
  refine .check .rfl fun _ => .check .rfl fun _ => .check (by rw [hlen]) fun heven => .answer ?_
  rw [selectBytes_halves_length bit heven, selectBytes_halves_length bit (by rwa [hlen]), hlen]

/-- A key load makes one request with the key loaded (R131, R132). -/
theorem macLoad_sameRequests (E : Cipher) (kind : MacKind) (key key' : List Byte) (s s' : State) :
    SameRequests s.cipherPort s'.cipherPort (macLoad E kind key s) (macLoad E kind key' s') :=
  .one (macLoad_cipherPort E kind key s) (macLoad_cipherPort E kind key' s')

theorem sivInitCommand_indistinguishable (E : Cipher) (a : Byte) (b : Half) {p q : List Byte} (s s' : State)
    (hlen : q.length = p.length) :
    Indistinguishable 0x10 s s' (sivInitCommand E a b p s) (sivInitCommand E a b q s') := by
  refine .check .rfl fun _ => ?_
  cases kindOf a with
  | none => exact .early
  | some kind => exact .check (by rw [hlen]) fun _ => .ok (macLoad_sameRequests E kind _ _ s s') rfl

theorem macInitCommand_indistinguishable (E : Cipher) (a : Byte) (b : Half) {p q : List Byte} (s s' : State)
    (hlen : q.length = p.length) :
    Indistinguishable 0x11 s s' (macInitCommand E a b p s) (macInitCommand E a b q s') := by
  refine .check .rfl fun _ => ?_
  cases kindOf a with
  | none => exact .early
  | some kind => exact .check (by rw [hlen]) fun _ => .ok (macLoad_sameRequests E kind _ _ s s') rfl

section

variable {p q : List Byte} {s s' : State}

theorem macResetCommand_indistinguishable (a : Byte) (b : Half) (h : SameControl s s') (hlen : q.length = p.length) :
    Indistinguishable 0x20 s s' (macResetCommand a b p s) (macResetCommand a b q s') := by
  obtain ⟨hmkind, -⟩ := h
  refine .check .rfl fun _ => .check (length_ne_iff hlen 0) fun _ => ?_
  rw [← hmkind]
  cases s.mkind with
  | none => exact .early
  | some kind => exact .ok (.none rfl rfl) rfl

theorem macUpdateCommand_indistinguishable (E : Cipher) (a : Byte) (b : Half) (h : SameControl s s')
    (hlen : q.length = p.length) :
    Indistinguishable 0x21 s s' (macUpdateCommand E a b p s) (macUpdateCommand E a b q s') := by
  obtain ⟨hmkind, -, hmst, -, hpos, -, hcnt, -⟩ := h
  refine .check .rfl fun _ => ?_
  rw [← hmkind]
  cases s.mkind with
  | none => exact .early
  | some kind =>
    have hcourse := macUpdate_sameCourse E kind hlen hpos hcnt
    exact .check (by rw [hmst]) fun _ =>
      (hcourse.andThen fun _ _ _ _ _ => .ok (.none rfl rfl) rfl).indistinguishable

theorem macFinishCommand_indistinguishable (E : Cipher) (a : Byte) (b : Half) (h : SameControl s s')
    (hlen : q.length = p.length) :
    Indistinguishable 0x22 s s' (macFinishCommand E a b p s) (macFinishCommand E a b q s') := by
  obtain ⟨hmkind, -, hmst, -⟩ := h
  refine .check .rfl fun _ => .check (length_ne_iff hlen 0) fun _ => ?_
  rw [← hmkind]
  cases s.mkind with
  | none => exact .early
  | some kind => exact .check (by rw [hmst]) fun _ => .block (macFinish_sameRequests E kind s s')

theorem ctrXorCommand_indistinguishable (E : Cipher) (a : Byte) (b : Half) (h : SameControl s s')
    (hlen : q.length = p.length) :
    Indistinguishable 0x31 s s' (ctrXorCommand E a b p s) (ctrXorCommand E a b q s') := by
  obtain ⟨-, hkctrLen, -, hcst, -, hkpos, -, hctrblk⟩ := h
  exact .check .rfl fun _ => .check (by rw [hkctrLen]) fun _ => .check (by rw [hcst]) fun _ =>
    (ctrXor_sameCourse E hlen hkpos hctrblk).indistinguishable

theorem s2vCommand_indistinguishable (E : Cipher) (nad : Byte) (b : Half) (h : SameControl s s')
    (hp : p.length < 2 ^ 32) (hlen : q.length = p.length) (hshape : vectorShape nad p = vectorShape nad q) :
    Indistinguishable 0x40 s s' (s2vCommand E nad b p s) (s2vCommand E nad b q s') := by
  obtain ⟨hmkind, -⟩ := h
  refine .check .rfl fun _ => ?_
  obtain ⟨e, he, he'⟩ | ⟨items, final, items', final', hv, hv', hitems, hfinal⟩ := parseVector_of_vectorShape_eq hshape
  · rw [he, he']
    exact .early
  · obtain ⟨hfits, hfitsItems⟩ := parseVector_lengths hp hv
    obtain ⟨hfits', hfitsItems'⟩ := parseVector_lengths (by rwa [hlen]) hv'
    rw [hv, hv', ← hmkind]
    cases s.mkind with
    | none => exact .early
    | some kind =>
      obtain ⟨reqs, hbody, hkeys⟩ := s2vBody_eq E kind items final s hfitsItems hfits
      obtain ⟨reqs', hbody', hkeys'⟩ := s2vBody_eq E kind items' final' s' hfitsItems' hfits'
      dsimp only
      rw [hbody, hbody']
      exact .block ⟨reqs, reqs', rfl, rfl, by rw [hkeys, hkeys', hitems, hfinal]⟩

theorem sivSealCommand_indistinguishable (E : Cipher) (nad : Byte) (b : Half) (h : SameControl s s')
    (hp : p.length < 2 ^ 32) (hlen : q.length = p.length) (hshape : vectorShape nad p = vectorShape nad q) :
    Indistinguishable 0x41 s s' (sivSealCommand E nad b p s) (sivSealCommand E nad b q s') := by
  obtain ⟨hmkind, hkctrLen, -⟩ := h
  refine .check .rfl fun _ => ?_
  obtain ⟨e, he, he'⟩ | ⟨items, final, items', final', hv, hv', hitems, hfinal⟩ := parseVector_of_vectorShape_eq hshape
  · rw [he, he']
    exact .early
  · obtain ⟨hfits, hfitsItems⟩ := parseVector_lengths hp hv
    obtain ⟨hfits', hfitsItems'⟩ := parseVector_lengths (by rwa [hlen]) hv'
    rw [hv, hv', ← hmkind]
    refine .check (by rw [hfinal]) fun _ => ?_
    cases s.mkind with
    | none => exact .early
    | some kind =>
      obtain ⟨reqs, hbody, hkeys⟩ := sealBody_eq E kind items final s hfitsItems hfits
      obtain ⟨reqs', hbody', hkeys'⟩ := sealBody_eq E kind items' final' s' hfitsItems' hfits'
      refine .check (by rw [hkctrLen]) fun _ => ?_
      rw [hbody, hbody']
      refine .ok ⟨reqs, reqs', rfl, rfl, by rw [hkeys, hkeys', hitems, hfinal]⟩ ?_
      simp only [List.length_append, blockBytes_length, ctrStream_length, hfinal]

theorem sivOpenCommand_indistinguishable (E : Cipher) (nad : Byte) (b : Half) (h : SameControl s s')
    (hp : p.length < 2 ^ 32) (hlen : q.length = p.length) (hshape : vectorShape nad p = vectorShape nad q) :
    Indistinguishable 0x42 s s' (sivOpenCommand E nad b p s) (sivOpenCommand E nad b q s') := by
  obtain ⟨hmkind, hkctrLen, -⟩ := h
  refine .check .rfl fun _ => ?_
  obtain ⟨e, he, he'⟩ | ⟨items, c, items', c', hv, hv', hitems, hc⟩ := parseVector_of_vectorShape_eq hshape
  · rw [he, he']
    exact .early
  · obtain ⟨hfits, hfitsItems⟩ := parseVector_lengths hp hv
    obtain ⟨hfits', hfitsItems'⟩ := parseVector_lengths (by rwa [hlen]) hv'
    have hbodies : (c.drop 16).length = (c'.drop 16).length := by rw [List.length_drop, List.length_drop, hc]
    rw [hv, hv', ← hmkind]
    refine .check (by rw [hc]) fun hlong => ?_
    cases s.mkind with
    | none => exact .early
    | some kind =>
      obtain ⟨reqs, hbody, hkeys⟩ := openBody_eq E kind items (blockOf (c.take 16)) (c.drop 16) s hfitsItems
        (by rw [List.length_drop]; omega)
      obtain ⟨reqs', hbody', hkeys'⟩ := openBody_eq E kind items' (blockOf (c'.take 16)) (c'.drop 16) s' hfitsItems'
        (by rw [List.length_drop]; omega)
      rw [tag_append_body hlong] at hbody
      rw [tag_append_body (by rwa [← hc])] at hbody'
      refine .check (by rw [hkctrLen]) fun _ => ?_
      rw [hbody, hbody']
      refine .verification ⟨reqs, reqs', rfl, rfl, by rw [hkeys, hkeys', hitems, hbodies]⟩ ?_
      rw [ctrStream_length, ctrStream_length, hbodies]

/-- Every command, with two payloads of one shape (R279 (2) to (5)). -/
theorem commandOf_indistinguishable (E : Cipher) {i : Instr} (h : SameControl s s') (hwf : i.WellFormed)
    (hq : SamePayloadShape i q) :
    Indistinguishable i.opcode s s' (commandOf E i s) (commandOf E (i.withPayload q) s') := by
  obtain ⟨hlen, hshape⟩ := hq
  cases i with
  | dbl a b p => exact .check .rfl fun _ => .check (length_ne_iff hlen 16) fun _ => .block (.none rfl rfl)
  | dblinv a b p => exact .check .rfl fun _ => .check (length_ne_iff hlen 16) fun _ => .block (.none rfl rfl)
  | xor a n p => exact xorCommand_indistinguishable a n s s' hlen
  | pad pos b p =>
    exact .check .rfl fun _ => .check .rfl fun _ => .check (length_ne_iff hlen 16) fun _ => .block (.none rfl rfl)
  | select bit b p => exact selectCommand_indistinguishable bit b s s' hlen
  | cmp a n p => exact .check .rfl fun _ => .check (by rw [hlen]; rfl) fun _ => .answer rfl
  | equal a n p => exact .check .rfl fun _ => .check (by rw [hlen]; rfl) fun _ => .answer rfl
  | sivInit a b p => exact sivInitCommand_indistinguishable E a b s s' hlen
  | macInit a b p => exact macInitCommand_indistinguishable E a b s s' hlen
  | ctrInit a b p => exact .check .rfl fun _ => .check (by rw [hlen]; rfl) fun _ => .ok (.none rfl rfl) rfl
  | wipe a b p => exact .check .rfl fun _ => .check (length_ne_iff hlen 0) fun _ => .ok (.none rfl rfl) rfl
  | getStatus a b p =>
    exact .check .rfl fun _ => .check (length_ne_iff hlen 0) fun _ =>
      .answer (by rw [statusBlock_length, statusBlock_length])
  | macReset a b p => exact macResetCommand_indistinguishable a b h hlen
  | macUpdate a b p => exact macUpdateCommand_indistinguishable E a b h hlen
  | macFinish a b p => exact macFinishCommand_indistinguishable E a b h hlen
  | ctrSetiv a b p =>
    obtain ⟨-, hkctrLen, -⟩ := h
    exact .check .rfl fun _ => .check (length_ne_iff hlen 16) fun _ => .check (by rw [hkctrLen]) fun _ =>
      .ok (.none rfl rfl) rfl
  | ctrXor a b p => exact ctrXorCommand_indistinguishable E a b h hlen
  | s2v nad b p => exact s2vCommand_indistinguishable E nad b h hwf hlen (hshape (by simp [Instr.opcode]))
  | sivSeal nad b p => exact sivSealCommand_indistinguishable E nad b h hwf hlen (hshape (by simp [Instr.opcode]))
  | sivOpen nad b p => exact sivOpenCommand_indistinguishable E nad b h hwf hlen (hshape (by simp [Instr.opcode]))

end

/-- Settles O58: the second command is the first with a payload of the same shape; no check reads more than that shape and
the control registers, and the two bodies run side by side. -/
theorem secretsDoNotSteerExecution : Obligations.SecretsDoNotSteerExecution := by
  intro i j s s' t t' hi hj hshape hcontrol ht ht'
  obtain ⟨q, rfl, hq⟩ := hshape.exists_withPayload
  have hearly : earlyError i s = earlyError (i.withPayload q) s' := by
    rw [earlyError, earlyError, packetError_withPayload hq, stateError_withPayload, stateError_congr hcontrol]
  obtain ⟨hreqs, hanswers⟩ := commandOf_indistinguishable Config.E hcontrol hi hq
  rw [exec_next_eq ht, exec_next_eq ht']
  refine ⟨hearly, hreqs, _, _, _, _, ?_, ?_, hanswers⟩
  · rw [respond_respStream, (commandOf_answersFrom Config.E s hi).respStream]
  · rw [respond_respStream, (commandOf_answersFrom Config.E s' hj).respStream]

end Machine

end Sys2Proof
end

section
/-! PROOFS. What each family writes, and the transitions of `CST` (10_state.md R32, R37). -/

namespace Sys2Proof.Machine

/-! ### The two sides of the engine (R37) -/

/-- The registers of the MAC side alone: key, kind and unit (R23 to R26). -/
def macSide (s : State) : State :=
  { State.reset with
    kmac := s.kmac, kmacLen := s.kmacLen, mkind := s.mkind, k1 := s.k1, k2 := s.k2, chain := s.chain, buf := s.buf
    pos := s.pos, mst := s.mst, lTab := s.lTab, linv := s.linv, offset := s.offset, tag := s.tag, cnt := s.cnt }

/-- The registers of the CTR side alone: key and unit (R23, R27). -/
def ctrSide (s : State) : State :=
  { State.reset with
    kctr := s.kctr, kctrLen := s.kctrLen, ctrblk := s.ctrblk, ks := s.ks, kpos := s.kpos, cst := s.cst }

theorem macSide_eq_iff {s t : State} :
    macSide t = macSide s ↔ t.kmac = s.kmac ∧ t.kmacLen = s.kmacLen ∧ t.mkind = s.mkind ∧ SameMacUnit s t := by
  simp only [macSide, State.mk.injEq, SameMacUnit, true_and, and_true]

theorem ctrSide_eq_iff {s t : State} :
    ctrSide t = ctrSide s ↔ t.kctr = s.kctr ∧ t.kctrLen = s.kctrLen ∧ SameCtrUnit s t := by
  simp only [ctrSide, State.mk.injEq, SameCtrUnit, true_and, and_true]

/-- The digest of `s` has gone on or ended: `t` differs from `s` in the accumulators, `MST`, the log and the ports at
most (R37). -/
def DigestWritten (s t : State) : Prop :=
  t = { s with
    chain := t.chain, buf := t.buf, pos := t.pos, mst := t.mst, offset := t.offset, tag := t.tag, cnt := t.cnt
    lasterr := t.lasterr, esticky := t.esticky
    cmdStream := t.cmdStream, respStream := t.respStream, cipherPort := t.cipherPort }

/-- The stream of `s` has started, gone on or ended: `t` differs from `s` in the CTR unit, the log and the ports at most
(R37). -/
def StreamWritten (s t : State) : Prop :=
  t = { s with
    ctrblk := t.ctrblk, ks := t.ks, kpos := t.kpos, cst := t.cst, lasterr := t.lasterr, esticky := t.esticky
    cmdStream := t.cmdStream, respStream := t.respStream, cipherPort := t.cipherPort }

section

variable {s t : State}

theorem DigestWritten.sameKeys (h : DigestWritten s t) : SameKeys s t := by
  rw [h]; exact SameKeys.refl s

theorem DigestWritten.ctrSide (h : DigestWritten s t) : ctrSide t = ctrSide s := by
  rw [h]; rfl

theorem DigestWritten.sameTransients (h : DigestWritten s t) : SameTransients s t := by
  rw [h]; exact ⟨rfl, rfl, rfl⟩

theorem StreamWritten.sameKeys (h : StreamWritten s t) : SameKeys s t := by
  rw [h]; exact SameKeys.refl s

theorem StreamWritten.macSide (h : StreamWritten s t) : macSide t = macSide s := by
  rw [h]; rfl

theorem StreamWritten.sameTransients (h : StreamWritten s t) : SameTransients s t := by
  rw [h]; exact ⟨rfl, rfl, rfl⟩

end

/-! ### What the bodies write (R153, R154, R173, R175, R193, R219) -/

theorem macUpdate_writes (E : Cipher) (kind : MacKind) (bytes : List Byte) (s : State) :
    DigestWritten s (finalState (andThen (macUpdate E kind bytes s) fun _ s => .ok [] s)) := by
  cases kind with
  | cmac =>
    obtain ⟨chain, buf, pos, reqs, e⟩ := cmacAbsorbAll_cases E bytes s
    rw [macUpdate, cmacUpdate, e, andThen_ok]
    rfl
  | pmac =>
    rw [macUpdate]
    obtain ⟨buf, pos, offset, tag, cnt, reqs, e⟩ | ⟨reqs, e⟩ := pmacUpdate_cases E bytes s
    · rw [e, andThen_ok]; rfl
    · rw [e, andThen_raise]; rfl

theorem macFinish_writes (E : Cipher) (kind : MacKind) (s : State) : DigestWritten s (macFinish E kind s).2 := by
  cases kind with
  | cmac => rfl
  | pmac => rfl

theorem ctrXor_writes (E : Cipher) (bytes : List Byte) (s : State) :
    StreamWritten s (finalState (ctrXor E bytes s)) := by
  obtain ⟨out, ctrblk, ks, kpos, reqs, e, -⟩ | ⟨reqs, e⟩ := ctrXor_cases E bytes s
  · rw [e]; rfl
  · rw [e]; rfl

theorem macLoad_ctrSide (E : Cipher) (kind : MacKind) (key : List Byte) (s : State) :
    ctrSide (macLoad E kind key s) = ctrSide s := by
  cases kind with
  | cmac => rfl
  | pmac => rfl

theorem s2vBody_leaves (E : Cipher) (kind : MacKind) {nad : Byte} {payload p : List Byte} {items : List (List Byte)}
    (s : State) (hlen : payload.length < 2 ^ 32) (hparse : parseVector nad payload = .ok (items, p)) :
    ∃ reqs, finalState (endingWith s2vEnd (andThen (s2v E kind items p s) fun v s => .ok (blockBytes v) s)) =
      afterS2v s reqs := by
  obtain ⟨hp, hitems⟩ := parseVector_lengths hlen hparse
  obtain ⟨reqs, e, -⟩ := s2vBody_eq E kind items p s hitems hp
  exact ⟨reqs, by rw [e, finalState]⟩

/-- Past stage 2 a sealing or opening command leaves what `siv_end` leaves in all registers but `P` and the log (R219). -/
theorem PastChecks.sivLeaves {E : Cipher} {s : State} {i : Instr} {m : Proc (List Byte)} (h : PastChecks E s i m)
    (hlen : i.WellFormed) (hop : i.opcode = 0x41 ∨ i.opcode = 0x42) :
    ∃ lasterr esticky reqs, finalState m =
      { afterSiv s reqs with
        p := if i.opcode = 0x42 then [] else s.p, lasterr := lasterr, esticky := esticky } := by
  obtain ⟨r, reqs, rfl⟩ := h.sivEnds hlen hop
  cases r with
  | ok out => exact ⟨_, _, reqs, rfl⟩
  | error e => exact ⟨_, _, reqs, rfl⟩

/-! ### Keys, kind and constants (R23, R24, R26) -/

theorem PastChecks.sameKeys {E : Cipher} {s : State} {i : Instr} {m : Proc (List Byte)} (h : PastChecks E s i m)
    (hlen : i.WellFormed) (hop : i.opcode ∉ [0x10#8, 0x11#8, 0x12#8, 0x13#8]) : SameKeys s (finalState m) := by
  have hpast := h
  cases h with
  | answer => exact SameKeys.refl s
  | sivInit => exact absurd (by simp [Instr.opcode]) hop
  | macInit => exact absurd (by simp [Instr.opcode]) hop
  | ctrInit => exact absurd (by simp [Instr.opcode]) hop
  | wipe => exact absurd (by simp [Instr.opcode]) hop
  | macReset => exact SameKeys.refl s
  | macUpdate => exact (macUpdate_writes E _ _ s).sameKeys
  | macFinish => exact (macFinish_writes E _ s).sameKeys
  | ctrSetiv => exact SameKeys.refl s
  | ctrXor => exact (ctrXor_writes E _ s).sameKeys
  | s2v hparse =>
    obtain ⟨reqs, e⟩ := s2vBody_leaves E _ s hlen hparse
    rw [e]
    exact SameKeys.refl s
  | sivSeal =>
    obtain ⟨_, _, _, e⟩ := hpast.sivLeaves hlen (.inl rfl)
    rw [e]
    exact SameKeys.refl s
  | sivOpen =>
    obtain ⟨_, _, _, e⟩ := hpast.sivLeaves hlen (.inr rfl)
    rw [e]
    exact SameKeys.refl s

/-- What holds after every early error and after every body past its checks holds after the command (R242, R246). -/
theorem finalState_commandOf {E : Cipher} {i : Instr} {s : State} {Q : State → Prop}
    (hearly : ∀ e, Q (logError e s)) (hpast : ∀ m, earlyError i s = none → PastChecks E s i m → Q (finalState m)) :
    Q (finalState (commandOf E i s)) := by
  cases h : earlyError i s with
  | none => exact hpast _ h (commandOf_pastChecks E h)
  | some e =>
    rw [commandOf_of_earlyError E h]
    exact hearly e

theorem exec_sameKeys {i : Instr} {s t : State} (hlen : i.WellFormed)
    (hop : i.opcode ∉ [0x10#8, 0x11#8, 0x12#8, 0x13#8]) (h : exec i s = .next t) : SameKeys s t := by
  rw [exec_next_eq h]
  exact finalState_commandOf (Q := SameKeys s) (fun _ => SameKeys.refl s) fun _ _ hpast => hpast.sameKeys hlen hop

/-- Settles O20: of the bodies past the checks, only those of the key loads and of `WIPE` write a key register. -/
theorem onlyKeyLoadsWriteKeys : Obligations.OnlyKeyLoadsWriteKeys := fun _ _ _ => exec_sameKeys

/-! ### The two units (R37, R132, R133, R190, R212) -/

/-- The opcodes of `MAC_INIT`, the MAC family and `S2V`. -/
def macSideOpcodes : List Byte := [0x11, 0x20, 0x21, 0x22, 0x40]

/-- The opcodes of `CTR_INIT` and the CTR family. -/
def ctrSideOpcodes : List Byte := [0x12, 0x30, 0x31]

theorem PastChecks.ctrSide {E : Cipher} {s : State} {i : Instr} {m : Proc (List Byte)} (h : PastChecks E s i m)
    (hlen : i.WellFormed) (hop : i.opcode ∈ macSideOpcodes) : ctrSide (finalState m) = ctrSide s := by
  cases h with
  | answer => rfl
  | macInit => exact macLoad_ctrSide E _ _ s
  | macReset => rfl
  | macUpdate => exact (macUpdate_writes E _ _ s).ctrSide
  | macFinish => exact (macFinish_writes E _ s).ctrSide
  | s2v hparse =>
    obtain ⟨reqs, e⟩ := s2vBody_leaves E _ s hlen hparse
    rw [e]
    rfl
  | _ => exact absurd hop (by simp [Instr.opcode, macSideOpcodes])

theorem PastChecks.macSide {E : Cipher} {s : State} {i : Instr} {m : Proc (List Byte)} (h : PastChecks E s i m)
    (hop : i.opcode ∈ ctrSideOpcodes) :
    macSide (finalState m) = macSide s ∧ SameTransients s (finalState m) := by
  cases h with
  | answer => exact ⟨rfl, rfl, rfl, rfl⟩
  | ctrInit => exact ⟨rfl, rfl, rfl, rfl⟩
  | ctrSetiv => exact ⟨rfl, rfl, rfl, rfl⟩
  | @ctrXor _ _ payload =>
    have hwrites := ctrXor_writes E payload s
    exact ⟨hwrites.macSide, hwrites.sameTransients⟩
  | _ => exact absurd hop (by simp [Instr.opcode, ctrSideOpcodes])

/-- Settles O22: a rejected command writes the log alone, and past its checks each body writes its own unit. -/
theorem unitsAreWrittenSeparately : Obligations.UnitsAreWrittenSeparately := by
  intro i s t hlen h
  rw [exec_next_eq h]
  refine ⟨fun hop => ctrSide_eq_iff.mp ?mac, fun hop => ?ctr⟩
  case mac =>
    exact finalState_commandOf (Q := fun t => ctrSide t = ctrSide s) (fun _ => rfl) fun _ _ hpast =>
      hpast.ctrSide hlen hop
  case ctr =>
    obtain ⟨hmac, htransients⟩ := finalState_commandOf (E := Config.E) (i := i)
      (Q := fun t => macSide t = macSide s ∧ SameTransients s t) (fun _ => ⟨rfl, rfl, rfl, rfl⟩) fun _ _ hpast =>
      hpast.macSide hop
    obtain ⟨hkmac, hlen, hkind, hunit⟩ := macSide_eq_iff.mp hmac
    exact ⟨hkmac, hlen, hkind, hunit, htransients⟩

/-! ### The transitions of `CST` (R32) -/

/-- The opcodes of the commands that leave `CST` Idle (R32). -/
def idleOpcodes : List Byte := [0x10, 0x12, 0x13, 0x41, 0x42]

/-- The opcodes of the commands that write `CST` (R32). -/
def cstOpcodes : List Byte := [0x10, 0x12, 0x13, 0x30, 0x31, 0x41, 0x42]

/-- The transition of `CST` that a command with the given opcode byte makes past its checks (R32). -/
structure CstTransition (op : Byte) (s t : State) : Prop where
  setiv : op = 0x30 → t.cst = .streaming
  idle : op ∈ idleOpcodes → t.cst = .idle
  xor : op = 0x31 → t.cst = .streaming ∨ (t.cst = .idle ∧ t.lasterr = errCode .ctrOverflow)
  kept : op ∉ cstOpcodes → t.cst = s.cst

theorem mem_cstOpcodes_of_mem_idleOpcodes : ∀ op ∈ idleOpcodes, op ∈ cstOpcodes := by decide

theorem not_mem_cstOpcodes_of_mem_answerOpcodes : ∀ op ∈ answerOpcodes, op ∉ cstOpcodes := by decide

theorem cstTransition_setiv {s t : State} (ht : t.cst = .streaming) : CstTransition 0x30 s t where
  setiv _ := ht
  idle h := absurd h (by decide)
  xor h := absurd h (by decide)
  kept h := absurd (by decide) h

theorem cstTransition_idle {op : Byte} {s t : State} (hop : op ∈ idleOpcodes) (ht : t.cst = .idle) :
    CstTransition op s t where
  setiv := by rintro rfl; exact absurd hop (by decide)
  idle _ := ht
  xor := by rintro rfl; exact absurd hop (by decide)
  kept h := absurd (mem_cstOpcodes_of_mem_idleOpcodes op hop) h

theorem cstTransition_xor {s t : State}
    (ht : t.cst = .streaming ∨ (t.cst = .idle ∧ t.lasterr = errCode .ctrOverflow)) : CstTransition 0x31 s t where
  setiv h := absurd h (by decide)
  idle h := absurd h (by decide)
  xor _ := ht
  kept h := absurd (by decide) h

theorem cstTransition_kept {op : Byte} {s t : State} (hop : op ∉ cstOpcodes) (ht : ctrSide t = ctrSide s) :
    CstTransition op s t where
  setiv := by rintro rfl; exact absurd (by decide) hop
  idle h := absurd (mem_cstOpcodes_of_mem_idleOpcodes op h) hop
  xor := by rintro rfl; exact absurd (by decide) hop
  kept _ := show (ctrSide t).cst = (ctrSide s).cst from congrArg State.cst ht

/-- A stream goes on in the `CST` it was in, or overflows and is Idle (R193, R194). -/
theorem ctrXor_cst (E : Cipher) (bytes : List Byte) {s : State} (hcst : s.cst ≠ .idle) :
    CstTransition 0x31 s (finalState (ctrXor E bytes s)) := by
  have hstreaming : s.cst = .streaming := by
    cases h : s.cst with
    | idle => exact absurd h hcst
    | streaming => rfl
  obtain ⟨out, ctrblk, ks, kpos, reqs, e, -⟩ | ⟨reqs, e⟩ := ctrXor_cases E bytes s
  · rw [e]
    exact cstTransition_xor (.inl hstreaming)
  · rw [e]
    exact cstTransition_xor (.inr ⟨rfl, rfl⟩)

theorem PastChecks.cstTransition {E : Cipher} {s : State} {i : Instr} {m : Proc (List Byte)} (h : PastChecks E s i m)
    (hlen : i.WellFormed) : CstTransition i.opcode s (finalState m) := by
  have hpast := h
  cases h with
  | answer hop => exact cstTransition_kept (not_mem_cstOpcodes_of_mem_answerOpcodes _ hop) rfl
  | sivInit => exact cstTransition_idle (op := 0x10) (by decide) rfl
  | ctrInit => exact cstTransition_idle (op := 0x12) (by decide) rfl
  | wipe => exact cstTransition_idle (op := 0x13) (by decide) rfl
  | ctrSetiv => exact cstTransition_setiv rfl
  | ctrXor hcst => exact ctrXor_cst E _ hcst
  | sivSeal =>
    obtain ⟨_, _, _, e⟩ := hpast.sivLeaves hlen (.inl rfl)
    exact cstTransition_idle (op := 0x41) (by decide) (by rw [e]; rfl)
  | sivOpen =>
    obtain ⟨_, _, _, e⟩ := hpast.sivLeaves hlen (.inr rfl)
    exact cstTransition_idle (op := 0x42) (by decide) (by rw [e]; rfl)
  | macInit => exact cstTransition_kept (op := 0x11) (by decide) (hpast.ctrSide hlen (List.mem_of_elem_eq_true rfl))
  | macReset => exact cstTransition_kept (op := 0x20) (by decide) rfl
  | macUpdate => exact cstTransition_kept (op := 0x21) (by decide) (macUpdate_writes E _ _ s).ctrSide
  | macFinish => exact cstTransition_kept (op := 0x22) (by decide) (macFinish_writes E _ s).ctrSide
  | s2v => exact cstTransition_kept (op := 0x40) (by decide) (hpast.ctrSide hlen (List.mem_of_elem_eq_true rfl))

/-- Settles O46: a rejected command leaves the unit, and past its checks each body makes its own transition. -/
theorem ctrStateTransitions : Obligations.CtrStateTransitions := by
  intro i s t hlen ht
  rw [exec_next_eq ht]
  refine ⟨fun h => ?rejected, fun h => ?past⟩
  case rejected =>
    obtain ⟨e, he⟩ := Option.ne_none_iff_exists'.mp h
    rw [commandOf_of_earlyError Config.E he]
    rfl
  case past =>
    obtain ⟨hsetiv, hidle, hxor, hkept⟩ := (commandOf_pastChecks Config.E h).cstTransition hlen
    exact ⟨hsetiv, hidle, hxor, hkept⟩

end Sys2Proof.Machine
end

section
/-! PROOFS. The invariants between commands: at reset, and kept by every step (10_state.md R23, R29, R30, R34, R36). -/

namespace Sys2Proof.Machine

/-! ### The invariants in three parts: what each side keeps, and the error log -/

/-- No byte of `BUF` is set from index `POS` on (R30 (a)). -/
def BufferClean (s : State) : Prop := ∀ i, s.pos.val ≤ i → blockByte s.buf i = 0

/-- The invariants of the MAC side: R30 (a), (c), (d), (e), (g), (h) and R23. -/
structure MacInv (s : State) : Prop where
  bufTail : BufferClean s
  cmacOnly : s.mkind ≠ some .cmac → s.k1 = 0 ∧ s.k2 = 0 ∧ s.chain = 0
  pmacOnly : s.mkind ≠ some .pmac →
    s.lTab = Vector.replicate 31 0 ∧ s.linv = 0 ∧ s.offset = 0 ∧ s.tag = 0 ∧ s.cnt = 0
  noDigest : s.mst ≠ .accumulating →
    s.chain = 0 ∧ s.buf = 0 ∧ s.offset = 0 ∧ s.tag = 0 ∧ s.pos = 0 ∧ s.cnt = 0
  cntBound : s.cnt.toNat ≤ 2 ^ 31 - 1
  kindIffKey : s.mkind = none ↔ s.kmacLen = .noKey
  noKindFresh : s.mkind = none → s.mst = .fresh
  kmacTail : ∀ i, keyLenBytes s.kmacLen ≤ i → (keyRegBytes s.kmac).getD i 0 = 0

/-- The invariants of the CTR side: R30 (f), (h) and R23. -/
structure CtrInv (s : State) : Prop where
  noStream : s.cst = .idle → s.ctrblk = 0 ∧ s.ks = 0 ∧ s.kpos = 16
  noKeyIdle : s.kctrLen = .noKey → s.cst = .idle
  kctrTail : ∀ i, keyLenBytes s.kctrLen ≤ i → (keyRegBytes s.kctr).getD i 0 = 0

/-- The rules of the error log (R29, R241). -/
structure LogInv (s : State) : Prop where
  stickyEnds : s.esticky.getLsbD 0 = false ∧ s.esticky.getLsbD 15 = false
  lastLogged : s.lasterr ≠ 0 → s.esticky.getLsbD s.lasterr.toNat = true
  nothingLogged : s.lasterr = 0 → s.esticky = 0
  lastCode : s.lasterr.toNat ≤ 14

/-- The S2V transients are wiped (R30 (i)). -/
def TransientsWiped (s : State) : Prop := s.d = 0 ∧ s.t = 0 ∧ s.p = []

section

variable {s t : State}

theorem Inv.mac (h : Inv s) : MacInv s :=
  ⟨h.bufTail, h.cmacOnly, h.pmacOnly, h.noDigest, h.cntBound, h.kindIffKey, h.noKindFresh, h.kmacTail⟩

theorem Inv.ctr (h : Inv s) : CtrInv s := ⟨h.noStream, h.noKeyIdle, h.kctrTail⟩

theorem Inv.log (h : Inv s) : LogInv s := ⟨h.stickyEnds, h.lastLogged, h.nothingLogged, h.lastCode⟩

theorem inv_of_parts (hmac : MacInv s) (hctr : CtrInv s) (hwiped : TransientsWiped s) (hlog : LogInv s) : Inv s where
  bufTail := hmac.bufTail
  cmacOnly := hmac.cmacOnly
  pmacOnly := hmac.pmacOnly
  noDigest := hmac.noDigest
  noStream := hctr.noStream
  cntBound := hmac.cntBound
  kindIffKey := hmac.kindIffKey
  noKindFresh := hmac.noKindFresh
  noKeyIdle := hctr.noKeyIdle
  transients := hwiped
  kmacTail := hmac.kmacTail
  kctrTail := hctr.kctrTail
  stickyEnds := hlog.stickyEnds
  lastLogged := hlog.lastLogged
  nothingLogged := hlog.nothingLogged
  lastCode := hlog.lastCode

theorem macInv_macSide : MacInv (macSide s) ↔ MacInv s :=
  ⟨fun ⟨h1, h2, h3, h4, h5, h6, h7, h8⟩ => ⟨h1, h2, h3, h4, h5, h6, h7, h8⟩,
    fun ⟨h1, h2, h3, h4, h5, h6, h7, h8⟩ => ⟨h1, h2, h3, h4, h5, h6, h7, h8⟩⟩

theorem ctrInv_ctrSide : CtrInv (ctrSide s) ↔ CtrInv s :=
  ⟨fun ⟨h1, h2, h3⟩ => ⟨h1, h2, h3⟩, fun ⟨h1, h2, h3⟩ => ⟨h1, h2, h3⟩⟩

/-- The invariants of the MAC side read that side alone. -/
theorem MacInv.congr (h : MacInv s) (heq : macSide t = macSide s) : MacInv t :=
  macInv_macSide.mp (heq ▸ macInv_macSide.mpr h)

/-- The invariants of the CTR side read that side alone. -/
theorem CtrInv.congr (h : CtrInv s) (heq : ctrSide t = ctrSide s) : CtrInv t :=
  ctrInv_ctrSide.mp (heq ▸ ctrInv_ctrSide.mpr h)

theorem LogInv.congr (h : LogInv s) (heq : SameLog s t) : LogInv t := by
  obtain ⟨hsticky, hlogged, hnothing, hcode⟩ := h
  obtain ⟨hlast, hesticky⟩ := heq
  rw [← hesticky] at hsticky hlogged hnothing
  rw [← hlast] at hlogged hnothing hcode
  exact ⟨hsticky, hlogged, hnothing, hcode⟩

theorem TransientsWiped.congr (h : TransientsWiped s) (heq : SameTransients s t) : TransientsWiped t := by
  obtain ⟨hd, ht, hp⟩ := h
  obtain ⟨hd', ht', hp'⟩ := heq
  exact ⟨hd'.trans hd, ht'.trans ht, hp'.trans hp⟩

end

/-! ### Reset (R36) -/

/-- Settles O10: every register is a numeral of the reset state, and so is each entry of the table. -/
theorem resetRegisterValues : Obligations.ResetRegisterValues := by
  refine ⟨rfl, rfl, rfl, rfl, rfl, rfl, rfl, rfl, rfl, rfl, rfl, fun i h => ?table, rfl, rfl, rfl, rfl, rfl, rfl, rfl,
    rfl, rfl, rfl, rfl, rfl, rfl, ?status⟩
  case table => exact Vector.getElem_replicate h
  case status => rw [statusBlock_eq]; decide

/-- A key register holds zero bytes past the key it was loaded with (R23). -/
theorem keyRegBytes_keyRegOf_tail {key : List Byte} (h : key.length ≤ 32) {i : Nat} (hi : key.length ≤ i) :
    (keyRegBytes (keyRegOf key)).getD i 0 = 0 := by
  rw [keyRegBytes_keyRegOf h, zeroFill_getD, List.getD_eq_default _ _ hi]

theorem keyRegBytes_zero (i : Nat) : (keyRegBytes 0).getD i 0 = 0 :=
  keyRegBytes_keyRegOf_tail (key := []) (by decide) (Nat.zero_le i)

theorem macInv_reset : MacInv State.reset where
  bufTail i _ := blockByte_zero i
  cmacOnly _ := ⟨rfl, rfl, rfl⟩
  pmacOnly _ := ⟨rfl, rfl, rfl, rfl, rfl⟩
  noDigest _ := ⟨rfl, rfl, rfl, rfl, rfl, rfl⟩
  cntBound := Nat.zero_le _
  kindIffKey := ⟨fun _ => rfl, fun _ => rfl⟩
  noKindFresh _ := rfl
  kmacTail i _ := keyRegBytes_zero i

theorem ctrInv_reset : CtrInv State.reset where
  noStream _ := ⟨rfl, rfl, rfl⟩
  noKeyIdle _ := rfl
  kctrTail i _ := keyRegBytes_zero i

theorem logInv_reset : LogInv State.reset where
  stickyEnds := ⟨rfl, rfl⟩
  lastLogged h := absurd rfl h
  nothingLogged _ := rfl
  lastCode := Nat.zero_le _

theorem inv_reset : Inv State.reset := inv_of_parts macInv_reset ctrInv_reset ⟨rfl, rfl, rfl⟩ logInv_reset

/-- Without a MAC kind there are no constants to speak of (R24, R26). -/
theorem keyConstants_of_noKind (E : Cipher) {s : State} (h : s.mkind = none) : KeyConstants E s where
  subkeys hk := absurd (h.symm.trans hk) (by simp)
  tableStart hk := absurd (h.symm.trans hk) (by simp)
  tableStep hk := absurd (h.symm.trans hk) (by simp)
  inverse hk := absurd (h.symm.trans hk) (by simp)

/-- Settles O12: at reset all registers are zero, and no key is loaded. -/
theorem resetSatisfiesInvariants : Obligations.ResetSatisfiesInvariants :=
  ⟨inv_reset, keyConstants_of_noKind _ rfl⟩

/-! ### A step keeps what commands keep (R9, R51) -/

/-- What holds of a state whatever stands on its command stream, and is kept by every command and by the refusal of an
opcode outside the map, is kept by every step. -/
theorem step_keeps {P : State → Prop} (hstream : ∀ s rest, P s → P { s with cmdStream := rest })
    (hexec : ∀ i s t, i.WellFormed → P s → exec i s = .next t → P t)
    (hillegal : ∀ op s, P s → P (takeError op .opcode s)) {s t : State} (hs : P s) (h : step s = .next t) : P t := by
  obtain ⟨-, hwait⟩ | ⟨k, rest, htake, hrun⟩ := step_cases s
  · cases hwait.symm.trans h
    exact hs
  · have hs := hstream s rest hs
    rw [hrun] at h
    cases hpacket : decodePacket k with
    | ok i =>
      obtain ⟨-, -, -, hpayload⟩ := decodePacket_ok hpacket
      obtain ⟨hlen, -⟩ := takePacket_some htake
      rw [runPacket_of_decodePacket_ok hpacket] at h
      exact hexec i _ t (by rwa [Instr.WellFormed, hpayload]) hs h
    | error e =>
      simp only [runPacket, hpacket] at h
      cases h
      exact hillegal k.op _ hs

/-! ### The error log (R29) -/

theorem stickyBit_getLsbD (e : Err) : (stickyBit e).getLsbD (errCode e).toNat = true := by cases e <;> decide

theorem stickyBit_ends (e : Err) : (stickyBit e).getLsbD 0 = false ∧ (stickyBit e).getLsbD 15 = false := by
  cases e <;> decide

theorem LogInv.logError {s : State} (h : LogInv s) (e : Err) : LogInv (logError e s) where
  stickyEnds := by
    obtain ⟨h0, h15⟩ := h.stickyEnds
    obtain ⟨b0, b15⟩ := stickyBit_ends e
    simp only [logError_esticky, BitVec.getLsbD_or, h0, h15, b0, b15, Bool.or_self, and_self]
  lastLogged _ := by
    rw [logError_esticky, logError_lasterr, BitVec.getLsbD_or, stickyBit_getLsbD, Bool.or_true]
  nothingLogged h := absurd h (errCode_ne_ok e)
  lastCode := errCode_le_14 e

theorem LogInv.finalState {s : State} {error : Option Err} {m : Proc (List Byte)} (h : LogInv s)
    (hends : EndsWithin error s m) : LogInv (finalState m) := by
  cases m with
  | ok out t => exact h.congr hends
  | raise e t =>
    obtain ⟨-, hlog⟩ := hends
    exact (h.congr hlog).logError e

/-- A response with an error sets one bit more and a code that is not 0; any other step leaves the log. -/
theorem step_log_grows {s t : State} (hstep : step s = .next t) :
    (∀ n, s.esticky.getLsbD n = true → t.esticky.getLsbD n = true) ∧ (s.lasterr ≠ 0 → t.lasterr ≠ 0) := by
  obtain ⟨-, hwait⟩ | ⟨k, rest, htake, -⟩ := step_cases s
  · cases hwait.symm.trans hstep
    exact ⟨fun _ => id, id⟩
  · obtain ⟨-, -, hlast, hsticky⟩ | ⟨st, hst, -, hlast, hsticky⟩ := everyErrorResponseIsLogged s t k rest htake hstep
    · rw [hlast, hsticky]
      exact ⟨fun _ => id, id⟩
    · refine ⟨fun n hn => ?_, fun _ => hlast ▸ hst⟩
      rw [hsticky, BitVec.getLsbD_or, hn, Bool.true_or]

/-- Settles O19: a step adds to the log at most, and the reset's log is empty. -/
theorem onlyResetClearsTheLog : Obligations.OnlyResetClearsTheLog := by
  intro s t hstep
  obtain ⟨hsticky, hlast⟩ := step_log_grows hstep
  exact ⟨hsticky, hlast, rfl, rfl⟩

/-! ### Key loads (R131 to R133) -/

theorem packetError_of_earlyError {i : Instr} {s : State} (h : earlyError i s = none) : packetError i = none :=
  (Option.or_eq_none_iff.mp h).1

/-- What the two checks of a key load leave. -/
theorem of_keyChecks {c d : Prop} [Decidable c] [Decidable d] {e e' : Err}
    (h : (if c then some e else if d then some e' else none) = none) : ¬c ∧ ¬d := by
  split at h
  case isTrue => cases h
  case isFalse hc =>
    split at h
    case isTrue => cases h
    case isFalse hd => exact ⟨hc, hd⟩

/-- The two lengths a key can have (R23). -/
def KeyFits (key : List Byte) : Prop := key.length = 16 ∨ key.length = 32

theorem KeyFits.loaded {key : List Byte} (h : KeyFits key) : keyLenOf key.length ≠ .noKey := by
  rw [keyLenOf_eq h]
  split <;> simp

theorem KeyFits.tail {key : List Byte} (h : KeyFits key) {i : Nat} (hi : keyLenBytes (keyLenOf key.length) ≤ i) :
    (keyRegBytes (keyRegOf key)).getD i 0 = 0 := by
  rw [keyLenBytes_keyLenOf h] at hi
  exact keyRegBytes_keyRegOf_tail (by unfold KeyFits at h; omega) hi

theorem keyFits_of_macInit {a : Byte} {b : Half} {key : List Byte} {s : State}
    (h : earlyError (.macInit a b key) s = none) : KeyFits key := by
  obtain ⟨-, hlen⟩ := of_keyChecks (packetError_of_earlyError h)
  unfold KeyFits
  omega

theorem keyFits_of_ctrInit {a : Byte} {b : Half} {key : List Byte} {s : State}
    (h : earlyError (.ctrInit a b key) s = none) : KeyFits key := by
  obtain ⟨-, hlen⟩ := of_keyChecks (packetError_of_earlyError h)
  unfold KeyFits
  omega

/-- Both halves of a master key fit (R216). -/
theorem keyFits_of_sivInit {a : Byte} {b : Half} {key : List Byte} {s : State}
    (h : earlyError (.sivInit a b key) s = none) : KeyFits (splitKey key).1 ∧ KeyFits (splitKey key).2 := by
  obtain ⟨-, hlen⟩ := of_keyChecks (packetError_of_earlyError h)
  simp only [KeyFits, splitKey, List.length_take, List.length_drop]
  omega

/-- A key just loaded with the constants of its kind, and an empty unit. -/
theorem macInv_loaded {s : State} {kind : MacKind} {key : List Byte} (hkey : KeyFits key) (hkmac : s.kmac = keyRegOf key)
    (hlen : s.kmacLen = keyLenOf key.length) (hkind : s.mkind = some kind) (hcmac : kind ≠ .cmac → s.k1 = 0 ∧ s.k2 = 0)
    (hpmac : kind ≠ .pmac → s.lTab = Vector.replicate 31 0 ∧ s.linv = 0) : MacInv (macReset s) where
  bufTail i _ := blockByte_zero i
  cmacOnly hne := by
    obtain ⟨hk1, hk2⟩ := hcmac fun e => hne (e ▸ hkind)
    exact ⟨hk1, hk2, rfl⟩
  pmacOnly hne := by
    obtain ⟨hl, hi⟩ := hpmac fun e => hne (e ▸ hkind)
    exact ⟨hl, hi, rfl, rfl, rfl⟩
  noDigest _ := ⟨rfl, rfl, rfl, rfl, rfl, rfl⟩
  cntBound := Nat.zero_le _
  kindIffKey := ⟨fun hnone => absurd (hkind.symm.trans hnone) (Option.some_ne_none _),
    fun hnone => absurd (hlen.symm.trans hnone) hkey.loaded⟩
  noKindFresh _ := rfl
  kmacTail i hi := by
    rw [macReset_kmacLen, hlen] at hi
    rw [macReset_kmac, hkmac]
    exact hkey.tail hi

theorem macInv_macLoad (E : Cipher) (kind : MacKind) {key : List Byte} (hkey : KeyFits key) (s : State) :
    MacInv (macLoad E kind key s) := by
  cases kind with
  | cmac => exact macInv_loaded (kind := .cmac) hkey rfl rfl rfl (absurd rfl) fun _ => ⟨rfl, rfl⟩
  | pmac => exact macInv_loaded (kind := .pmac) hkey rfl rfl rfl (fun _ => ⟨rfl, rfl⟩) (absurd rfl)

theorem ctrInv_ctrLoad {key : List Byte} (hkey : KeyFits key) (s : State) : CtrInv (ctrLoad key s) where
  noStream _ := ⟨rfl, rfl, rfl⟩
  noKeyIdle _ := rfl
  kctrTail _ := hkey.tail

/-! ### The MAC unit (R152 to R154, R173 to R176) -/

theorem MacInv.macReset {s : State} (h : MacInv s) : MacInv (macReset s) where
  bufTail i _ := blockByte_zero i
  cmacOnly hk := by
    obtain ⟨hk1, hk2, -⟩ := h.cmacOnly hk
    exact ⟨hk1, hk2, rfl⟩
  pmacOnly hk := by
    obtain ⟨hl, hi, -⟩ := h.pmacOnly hk
    exact ⟨hl, hi, rfl, rfl, rfl⟩
  noDigest _ := ⟨rfl, rfl, rfl, rfl, rfl, rfl⟩
  cntBound := Nat.zero_le _
  kindIffKey := h.kindIffKey
  noKindFresh _ := rfl
  kmacTail := h.kmacTail

theorem bufferClean_bufferByte {s : State} (h : BufferClean s) (hroom : s.pos ≠ 16) (d : Byte) :
    BufferClean (bufferByte d s) := by
  intro i hi
  rw [bufferByte_pos, fin17_succ_val hroom] at hi
  have hlt : s.pos.val < 16 := by
    have hne : s.pos.val ≠ 16 := fun e => hroom (Fin.ext e)
    omega
  rw [bufferByte_buf, blockByte_setBlockByte _ hlt, if_neg (by omega)]
  exact h i (by omega)

theorem bufferClean_cmacAbsorbAll (E : Cipher) (bytes : List Byte) {s : State} (h : BufferClean s) :
    BufferClean (cmacAbsorbAll E bytes s) := by
  induction bytes generalizing s with
  | nil => exact h
  | cons d bytes ih =>
    refine ih ?_
    unfold cmacAbsorb
    split
    case isTrue => exact bufferClean_bufferByte (fun i _ => blockByte_zero i) (show (0 : Fin 17) ≠ 16 by decide) d
    case isFalse hroom => exact bufferClean_bufferByte h hroom d

/-- What feeding bytes in PMAC kind keeps while the digest lasts: the buffer's tail, and the bound on `CNT`, which counts
the blocks the table had an entry for (R30 (a), (g)). -/
def PmacFeeds (s : State) : Prop := BufferClean s ∧ s.cnt.toNat ≤ 2 ^ 31 - 1

theorem pmacMakeRoom_feeds {E : Cipher} {s t : State} (h : PmacFeeds s) (hok : pmacMakeRoom E s = .ok () t) :
    PmacFeeds t ∧ t.pos ≠ 16 := by
  obtain ⟨hclean, hcnt⟩ := h
  by_cases hfull : s.pos = 16
  · rw [pmacMakeRoom_full E hfull] at hok
    by_cases hroom : s.cnt.toNat < 2 ^ 31 - 1
    · have hentry : ctz (s.cnt.toNat + 1) < 31 := (ctz_lt_31_iff hcnt).mpr hroom
      have hsucc := pmacBlockWith_cnt_toNat E (s.offset ^^^ s.lTab[ctz (s.cnt.toNat + 1)]) hroom
      rw [pmacBlock_entry E hentry] at hok
      cases hok
      exact ⟨⟨fun i _ => blockByte_zero i, by omega⟩, show (0 : Fin 17) ≠ 16 by decide⟩
    · rw [pmacBlock_noEntry E (mt (ctz_lt_31_iff hcnt).mp hroom)] at hok
      cases hok
  · rw [pmacMakeRoom_room E hfull] at hok
    cases hok
    exact ⟨⟨hclean, hcnt⟩, hfull⟩

theorem pmacUpdate_feeds {E : Cipher} {bytes : List Byte} {s t : State} (h : PmacFeeds s)
    (hok : pmacUpdate E bytes s = .ok () t) : PmacFeeds t := by
  induction bytes generalizing s with
  | nil =>
    cases hok
    exact h
  | cons d bytes ih =>
    rw [pmacUpdate_cons] at hok
    obtain ⟨_, u, hmake, hrest⟩ := andThen_eq_ok hok
    obtain ⟨⟨hclean, hcnt⟩, hroom⟩ := pmacMakeRoom_feeds h hmake
    exact ih ⟨bufferClean_bufferByte hclean hroom d, hcnt⟩ hrest

/-- A CMAC digest that has gone on or ended, its buffer clean, and empty unless it goes on. -/
theorem MacInv.cmacDigest {s : State} (h : MacInv s) (hkind : s.mkind = some .cmac) {chain buf : Block} {pos : Fin 17}
    {mst : MacState} (hclean : BufferClean { s with chain := chain, buf := buf, pos := pos, mst := mst })
    (hempty : mst ≠ .accumulating → chain = 0 ∧ buf = 0 ∧ pos = 0) :
    MacInv { s with chain := chain, buf := buf, pos := pos, mst := mst } where
  bufTail := hclean
  cmacOnly hne := absurd hkind hne
  pmacOnly := h.pmacOnly
  noDigest hmst := by
    obtain ⟨-, -, hoffset, htag, hcnt⟩ := h.pmacOnly (by rw [hkind]; decide)
    obtain ⟨hchain, hbuf, hpos⟩ := hempty hmst
    exact ⟨hchain, hbuf, hoffset, htag, hpos, hcnt⟩
  cntBound := h.cntBound
  kindIffKey := h.kindIffKey
  noKindFresh hnone := absurd (hkind.symm.trans hnone) (Option.some_ne_none _)
  kmacTail := h.kmacTail

/-- A PMAC digest that has gone on, ended or been abandoned, its buffer clean and its count in bounds, and empty unless it
goes on. -/
theorem MacInv.pmacDigest {s : State} (h : MacInv s) (hkind : s.mkind = some .pmac) {buf offset tag : Block}
    {pos : Fin 17} {cnt : BitVec 32} {mst : MacState}
    (hclean : BufferClean { s with buf := buf, pos := pos, offset := offset, tag := tag, cnt := cnt, mst := mst })
    (hcnt : cnt.toNat ≤ 2 ^ 31 - 1)
    (hempty : mst ≠ .accumulating → buf = 0 ∧ offset = 0 ∧ tag = 0 ∧ pos = 0 ∧ cnt = 0) :
    MacInv { s with buf := buf, pos := pos, offset := offset, tag := tag, cnt := cnt, mst := mst } where
  bufTail := hclean
  cmacOnly := h.cmacOnly
  pmacOnly hne := absurd hkind hne
  noDigest hmst := by
    obtain ⟨-, -, hchain⟩ := h.cmacOnly (by rw [hkind]; decide)
    exact ⟨hchain, hempty hmst⟩
  cntBound := hcnt
  kindIffKey := h.kindIffKey
  noKindFresh hnone := absurd (hkind.symm.trans hnone) (Option.some_ne_none _)
  kmacTail := h.kmacTail

/-- A PMAC digest that has ended or been abandoned. -/
theorem MacInv.pmacEmptied {s : State} (h : MacInv s) (hkind : s.mkind = some .pmac) :
    MacInv { s with buf := 0, pos := 0, offset := 0, tag := 0, cnt := 0, mst := .finished } :=
  h.pmacDigest hkind (fun i _ => blockByte_zero i) (Nat.zero_le _) fun _ => ⟨rfl, rfl, rfl, rfl, rfl⟩

theorem MacInv.macUpdate {s : State} (h : MacInv s) (E : Cipher) {kind : MacKind} (hkind : s.mkind = some kind)
    (bytes : List Byte) : MacInv (finalState (andThen (macUpdate E kind bytes s) fun _ s => .ok [] s)) := by
  cases kind with
  | cmac =>
    have hclean := bufferClean_cmacAbsorbAll E bytes h.bufTail
    obtain ⟨chain, buf, pos, reqs, e⟩ := cmacAbsorbAll_cases E bytes s
    rw [e] at hclean
    rw [Machine.macUpdate, cmacUpdate, e, andThen_ok]
    exact (h.cmacDigest hkind (mst := .accumulating) hclean (absurd rfl)).congr rfl
  | pmac =>
    rw [Machine.macUpdate]
    obtain ⟨buf, pos, offset, tag, cnt, reqs, e⟩ | ⟨reqs, e⟩ := pmacUpdate_cases E bytes s
    · obtain ⟨hclean, hcnt⟩ := pmacUpdate_feeds ⟨h.bufTail, h.cntBound⟩ e
      rw [e, andThen_ok]
      exact (h.pmacDigest hkind (mst := .accumulating) hclean hcnt (absurd rfl)).congr rfl
    · rw [e, andThen_raise]
      exact (h.pmacEmptied hkind).congr rfl

theorem MacInv.macFinish {s : State} (h : MacInv s) (E : Cipher) {kind : MacKind} (hkind : s.mkind = some kind) :
    MacInv (macFinish E kind s).2 := by
  cases kind with
  | cmac =>
    exact (h.cmacDigest hkind (mst := .finished) (fun i _ => blockByte_zero i) fun _ => ⟨rfl, rfl, rfl⟩).congr rfl
  | pmac =>
    exact (h.pmacEmptied hkind).congr rfl

/-! ### The CTR unit (R191 to R194) -/

theorem CtrInv.ctrClear {s : State} (h : CtrInv s) : CtrInv (ctrClear s) where
  noStream _ := ⟨rfl, rfl, rfl⟩
  noKeyIdle _ := rfl
  kctrTail := h.kctrTail

theorem CtrInv.ctrSetiv {s : State} (h : CtrInv s) (hkey : s.kctrLen ≠ .noKey) (iv : Block) :
    CtrInv (ctrSetiv iv s) where
  noStream := nofun
  noKeyIdle hnone := absurd hnone hkey
  kctrTail := h.kctrTail

theorem CtrInv.ctrXor {s : State} (h : CtrInv s) (hcst : s.cst ≠ .idle) (E : Cipher) (bytes : List Byte) :
    CtrInv (finalState (ctrXor E bytes s)) := by
  obtain ⟨out, ctrblk, ks, kpos, reqs, e, -⟩ | ⟨reqs, e⟩ := ctrXor_cases E bytes s
  · rw [e]
    exact ⟨fun hidle => absurd hidle hcst, h.noKeyIdle, h.kctrTail⟩
  · rw [e]
    exact h.ctrClear.congr rfl

/-- The check of `CTR_SETIV` for a key (R192, R244). -/
theorem kctrLen_of_ctrSetiv {a : Byte} {b : Half} {payload : List Byte} {s : State}
    (h : earlyError (.ctrSetiv a b payload) s = none) : s.kctrLen ≠ .noKey := by
  intro hnone
  have hstate : stateError (.ctrSetiv a b payload) s = none := (Option.or_eq_none_iff.mp h).2
  rw [stateError, if_pos hnone] at hstate
  cases hstate

/-! ### The commands -/

theorem macLoad_transients (E : Cipher) (kind : MacKind) (key : List Byte) (s : State) :
    SameTransients s (macLoad E kind key s) := by
  cases kind with
  | cmac => exact ⟨rfl, rfl, rfl⟩
  | pmac => exact ⟨rfl, rfl, rfl⟩

section

variable {E : Cipher} {s : State} {i : Instr} {m : Proc (List Byte)}

theorem PastChecks.macInv (h : PastChecks E s i m) (hlen : i.WellFormed) (hearly : earlyError i s = none)
    (hinv : MacInv s) : MacInv (finalState m) := by
  have hpast := h
  cases h with
  | answer => exact hinv
  | sivInit => exact (macInv_macLoad E _ (keyFits_of_sivInit hearly).1 s).congr rfl
  | macInit => exact macInv_macLoad E _ (keyFits_of_macInit hearly) s
  | ctrInit => exact hinv.congr rfl
  | wipe => exact macInv_reset.congr rfl
  | macReset => exact hinv.macReset
  | macUpdate hkind => exact hinv.macUpdate E hkind _
  | macFinish hkind => exact hinv.macFinish E hkind
  | ctrSetiv => exact hinv.congr rfl
  | ctrXor => exact hinv.congr (ctrXor_writes E _ s).macSide
  | s2v hparse =>
    obtain ⟨reqs, e⟩ := s2vBody_leaves E _ s hlen hparse
    exact hinv.macReset.congr (by rw [e]; rfl)
  | sivSeal =>
    obtain ⟨_, _, _, e⟩ := hpast.sivLeaves hlen (.inl rfl)
    exact hinv.macReset.congr (by rw [e]; rfl)
  | sivOpen =>
    obtain ⟨_, _, _, e⟩ := hpast.sivLeaves hlen (.inr rfl)
    exact hinv.macReset.congr (by rw [e]; rfl)

theorem PastChecks.ctrInv (h : PastChecks E s i m) (hlen : i.WellFormed) (hearly : earlyError i s = none)
    (hinv : CtrInv s) : CtrInv (finalState m) := by
  have hpast := h
  cases h with
  | answer => exact hinv
  | sivInit => exact ctrInv_ctrLoad (keyFits_of_sivInit hearly).2 _
  | macInit => exact hinv.congr (macLoad_ctrSide E _ _ s)
  | ctrInit => exact ctrInv_ctrLoad (keyFits_of_ctrInit hearly) s
  | wipe => exact ctrInv_reset.congr rfl
  | macReset => exact hinv.congr rfl
  | macUpdate => exact hinv.congr (macUpdate_writes E _ _ s).ctrSide
  | macFinish => exact hinv.congr (macFinish_writes E _ s).ctrSide
  | ctrSetiv => exact hinv.ctrSetiv (kctrLen_of_ctrSetiv hearly) _
  | ctrXor hcst => exact hinv.ctrXor hcst E _
  | s2v hparse =>
    obtain ⟨reqs, e⟩ := s2vBody_leaves E _ s hlen hparse
    exact hinv.congr (by rw [e]; rfl)
  | sivSeal =>
    obtain ⟨_, _, _, e⟩ := hpast.sivLeaves hlen (.inl rfl)
    exact hinv.ctrClear.congr (by rw [e]; rfl)
  | sivOpen =>
    obtain ⟨_, _, _, e⟩ := hpast.sivLeaves hlen (.inr rfl)
    exact hinv.ctrClear.congr (by rw [e]; rfl)

theorem PastChecks.transientsWiped (h : PastChecks E s i m) (hlen : i.WellFormed) (hwiped : TransientsWiped s) :
    TransientsWiped (finalState m) := by
  have hpast := h
  cases h with
  | answer => exact hwiped
  | sivInit => exact hwiped.congr (macLoad_transients E _ _ s)
  | macInit => exact hwiped.congr (macLoad_transients E _ _ s)
  | ctrInit => exact hwiped
  | wipe => exact ⟨rfl, rfl, rfl⟩
  | macReset => exact hwiped
  | macUpdate => exact hwiped.congr (macUpdate_writes E _ _ s).sameTransients
  | macFinish => exact hwiped.congr (macFinish_writes E _ s).sameTransients
  | ctrSetiv => exact hwiped
  | ctrXor => exact hwiped.congr (ctrXor_writes E _ s).sameTransients
  | s2v hparse =>
    obtain ⟨-, -, hp⟩ := hwiped
    obtain ⟨reqs, e⟩ := s2vBody_leaves E _ s hlen hparse
    rw [e]
    exact ⟨rfl, rfl, hp⟩
  | sivSeal =>
    obtain ⟨-, -, hp⟩ := hwiped
    obtain ⟨_, _, _, e⟩ := hpast.sivLeaves hlen (.inl rfl)
    rw [e]
    exact ⟨rfl, rfl, hp⟩
  | sivOpen =>
    obtain ⟨_, _, _, e⟩ := hpast.sivLeaves hlen (.inr rfl)
    rw [e]
    exact ⟨rfl, rfl, rfl⟩

end

/-! ### Every step keeps the invariants -/

/-- The invariants are about the registers alone. -/
theorem Inv.congr {s t : State} (h : Inv s) (heq : registers t = registers s) : Inv t := by
  have hwiped : SameTransients s t :=
    ⟨(congrArg State.d heq :), (congrArg State.t heq :), (congrArg State.p heq :)⟩
  have hlog : SameLog s t := ⟨(congrArg State.lasterr heq :), (congrArg State.esticky heq :)⟩
  exact inv_of_parts (h.mac.congr (congrArg macSide heq :)) (h.ctr.congr (congrArg ctrSide heq :))
    (TransientsWiped.congr h.transients hwiped) (h.log.congr hlog)

theorem Inv.logError {s : State} (h : Inv s) (e : Err) : Inv (logError e s) :=
  inv_of_parts (h.mac.congr rfl) (h.ctr.congr rfl) h.transients (h.log.logError e)

theorem exec_keeps_inv {i : Instr} {s t : State} (hlen : i.WellFormed) (hinv : Inv s) (h : exec i s = .next t) :
    Inv t := by
  have hfinal : Inv (finalState (commandOf Config.E i s)) :=
    finalState_commandOf (Q := Inv) hinv.logError fun m hearly hpast =>
      inv_of_parts (hpast.macInv hlen hearly hinv.mac) (hpast.ctrInv hlen hearly hinv.ctr)
        (hpast.transientsWiped hlen hinv.transients) (hinv.log.finalState (hpast.endsWithin hlen))
  rw [exec_next_eq h]
  exact hfinal.congr rfl

/-- Settles O13: each command keeps the invariants of both sides, of the transients and of the log. -/
theorem stepKeepsInvariants : Obligations.StepKeepsInvariants := fun _ _ =>
  step_keeps (P := Inv) (fun _ _ h => h.congr rfl) (fun _ _ _ => exec_keeps_inv) fun _ _ h =>
    (h.logError .opcode).congr rfl

/-! ### The key-dependent constants (R34, R151, R171) -/

section

variable {E : Cipher} {s t : State}

theorem KeyConstants.congr (h : KeyConstants E s) (heq : SameKeys s t) : KeyConstants E t := by
  obtain ⟨hsub, hstart, hstep, hinverse⟩ := h
  have hkey := heq.keyBytes .mac
  obtain ⟨-, -, -, -, hkind, hk1, hk2, hl, hi⟩ := heq
  rw [← hkind, ← hk1, ← hk2, ← hkey] at hsub
  rw [← hkind, ← hl, ← hkey] at hstart
  rw [← hkind, ← hl] at hstep
  rw [← hkind, ← hl, ← hi] at hinverse
  exact ⟨hsub, hstart, hstep, hinverse⟩

theorem keyConstants_macSide : KeyConstants E (macSide s) ↔ KeyConstants E s :=
  ⟨fun ⟨h1, h2, h3, h4⟩ => ⟨h1, h2, h3, h4⟩, fun ⟨h1, h2, h3, h4⟩ => ⟨h1, h2, h3, h4⟩⟩

/-- The constants are registers of the MAC side, computed from its key. -/
theorem KeyConstants.congr_macSide (h : KeyConstants E s) (heq : macSide t = macSide s) : KeyConstants E t :=
  keyConstants_macSide.mp (heq ▸ keyConstants_macSide.mpr h)

end

theorem keyConstants_macLoad (E : Cipher) (kind : MacKind) (key : List Byte) (s : State) :
    KeyConstants E (macLoad E kind key s) := by
  cases kind with
  | cmac => exact ⟨fun _ => ⟨rfl, rfl⟩, nofun, nofun, nofun⟩
  | pmac =>
    exact ⟨nofun, fun _ => rfl, fun _ i h => lTable_getElem_succ _ i h, fun _ => dbl_dblinv _⟩

theorem PastChecks.keyConstants {E : Cipher} {s : State} {i : Instr} {m : Proc (List Byte)} (h : PastChecks E s i m)
    (hlen : i.WellFormed) (hconst : KeyConstants E s) : KeyConstants E (finalState m) := by
  by_cases hop : i.opcode ∈ [0x10#8, 0x11#8, 0x12#8, 0x13#8]
  case neg => exact hconst.congr (h.sameKeys hlen hop)
  case pos =>
    cases h with
    | answer => exact hconst
    | sivInit => exact (keyConstants_macLoad E _ _ s).congr_macSide rfl
    | macInit => exact keyConstants_macLoad E _ _ s
    | ctrInit => exact hconst.congr_macSide rfl
    | wipe => exact keyConstants_of_noKind E rfl
    | _ => exact absurd hop (by simp [Instr.opcode])

theorem exec_keeps_keyConstants {i : Instr} {s t : State} (hlen : i.WellFormed) (hconst : KeyConstants Config.E s)
    (h : exec i s = .next t) : KeyConstants Config.E t := by
  have hfinal : KeyConstants Config.E (finalState (commandOf Config.E i s)) :=
    finalState_commandOf (Q := KeyConstants Config.E) (fun _ => hconst.congr_macSide rfl) fun m _ hpast =>
      hpast.keyConstants hlen hconst
  rw [exec_next_eq h]
  exact hfinal.congr_macSide rfl

/-- Settles O14: a MAC key load computes the constants of its key, and every other command leaves key and constants, or
leaves no kind. -/
theorem stepKeepsKeyConstants : Obligations.StepKeepsKeyConstants := fun _ _ =>
  step_keeps (P := KeyConstants Config.E) (fun _ _ h => h.congr_macSide rfl) (fun _ _ _ => exec_keeps_keyConstants)
    fun _ _ h => h.congr_macSide rfl

end Sys2Proof.Machine
end

section
/-! PROOFS. What a command does not read: the error log, the other side of the engine, and for the helpers the whole state
(10_state.md R29, R37; 40_helpers.md R100). -/

namespace Sys2Proof.Machine

/-! ### Procedures beside an update of the state -/

/-- The update can be done before the procedure or after it: the procedure neither reads what the update writes nor writes
it. -/
def Ignores {α : Type} (f : State → State) (m : State → Proc α) : Prop := ∀ s, m (f s) = endingWith f (m s)

namespace Ignores

variable {α β ι : Type} {f : State → State} {m : State → Proc α}

theorem ok (v : α) {u : State → State} (hu : ∀ s, u (f s) = f (u s)) : Ignores f fun s => .ok v (u s) :=
  fun s => congrArg (Proc.ok v) (hu s)

theorem answer (v : α) : Ignores f (Proc.ok v) := fun _ => rfl

theorem raise (e : Err) : Ignores f (Proc.raise (α := α) e) := fun _ => rfl

theorem andThen {k : α → State → Proc β} (hm : Ignores f m) (hk : ∀ v, Ignores f (k v)) :
    Ignores f fun s => andThen (m s) k := by
  intro s
  show Machine.andThen (m (f s)) k = endingWith f (Machine.andThen (m s) k)
  rw [hm s]
  cases m s with
  | ok v t => exact hk v t
  | raise e t => rfl

/-- An update made before the procedure, itself beside `f`. -/
theorem after (hm : Ignores f m) {u : State → State} (hu : ∀ s, u (f s) = f (u s)) : Ignores f fun s => m (u s) := by
  intro s
  show m (u (f s)) = _
  rw [hu s]
  exact hm (u s)

/-- The end of a SIV command, itself beside `f`. -/
theorem ending (hm : Ignores f m) {finish : State → State} (hfinish : ∀ s, finish (f s) = f (finish s)) :
    Ignores f fun s => endingWith finish (m s) := by
  intro s
  show endingWith finish (m (f s)) = endingWith f (endingWith finish (m s))
  rw [hm s]
  cases m s with
  | ok v t => exact congrArg (Proc.ok v) (hfinish t)
  | raise e t => exact congrArg (Proc.raise e) (hfinish t)

/-- What is read is nothing that `f` writes. -/
theorem read {g : State → ι} {k : ι → State → Proc α} (hg : ∀ s, g (f s) = g s) (hk : ∀ x, Ignores f (k x)) :
    Ignores f fun s => k (g s) s := by
  intro s
  show k (g (f s)) (f s) = _
  rw [hg s]
  exact hk (g s) s

/-- A check of the packet. -/
theorem check {c : Prop} [Decidable c] {e : Err} (h : ¬c → Ignores f m) :
    Ignores f fun s => if c then .raise e s else m s := by
  by_cases hc : c
  · simp only [if_pos hc]
    exact raise e
  · simp only [if_neg hc]
    exact h hc

/-- A check of a register that `f` does not write. -/
theorem checkReg [DecidableEq ι] (h : Ignores f m) {g : State → ι} (hg : ∀ s, g (f s) = g s) {x : ι} {e : Err} :
    Ignores f fun s => if g s = x then .raise e s else m s :=
  read (k := fun y s => if y = x then .raise e s else m s) hg fun _ => check fun _ => h

/-- The check of `MKIND`, which picks the kind as well (R244, stage 2). -/
theorem mkindCheck {body : MacKind → State → Proc α} (hkind : ∀ s, (f s).mkind = s.mkind)
    (hnone : ∀ s, s.mkind = none → m s = .raise .noKey s)
    (hsome : ∀ s kind, s.mkind = some kind → m s = body kind s) (h : ∀ kind, Ignores f (body kind)) : Ignores f m := by
  intro s
  have hf := hkind s
  cases hs : s.mkind with
  | none =>
    rw [hnone s hs, hnone (f s) (hf.trans hs)]
    rfl
  | some kind =>
    rw [hsome s kind hs, hsome (f s) kind (hf.trans hs)]
    exact h kind s

end Ignores

/-! ### The MAC unit (R152 to R155, R173 to R175) -/

/-- The update is beside everything the MAC unit does. -/
structure BesideMac (E : Cipher) (f : State → State) : Prop where
  mkind : ∀ s, (f s).mkind = s.mkind
  mst : ∀ s, (f s).mst = s.mst
  absorbing : BesideAbsorbing E f
  feeding : BesidePmacUpdate E f f
  reset : ∀ s, macReset (f s) = f (macReset s)
  finish : ∀ kind s, macFinish E kind (f s) = ((macFinish E kind s).1, f (macFinish E kind s).2)

namespace BesideMac

variable {E : Cipher} {f : State → State}

theorem update (hf : BesideMac E f) (kind : MacKind) (bytes : List Byte) : Ignores f (macUpdate E kind bytes) := by
  intro s
  cases kind with
  | cmac =>
    show Proc.ok () (cmacUpdate E bytes (f s)) = .ok () (f (cmacUpdate E bytes s))
    rw [cmacUpdate_eq, hf.absorbing.absorbAll, hf.feeding.last, cmacUpdate_eq]
  | pmac => exact hf.feeding.update bytes s

theorem tag (hf : BesideMac E f) (kind : MacKind) :
    Ignores f fun s => .ok (macFinish E kind s).1 (macFinish E kind s).2 := by
  intro s
  show Proc.ok (macFinish E kind (f s)).1 (macFinish E kind (f s)).2 = _
  rw [hf.finish kind s]
  rfl

theorem macOf (hf : BesideMac E f) (kind : MacKind) (bytes : List Byte) : Ignores f (macOf E kind bytes) :=
  ((hf.update kind bytes).after hf.reset).andThen fun _ => hf.tag kind

theorem macResetCommand (hf : BesideMac E f) (a : Byte) (b : Half) (payload : List Byte) :
    Ignores f (macResetCommand a b payload) :=
  .check fun _ => .check fun _ => .mkindCheck hf.mkind (fun s h => by simp only [h])
    (body := fun _ s => .ok [] (macReset s)) (fun s kind h => by simp only [h]) fun _ => .ok [] hf.reset

theorem macUpdateCommand (hf : BesideMac E f) (a : Byte) (b : Half) (payload : List Byte) :
    Ignores f (macUpdateCommand E a b payload) :=
  .check fun _ => .mkindCheck hf.mkind (fun s h => by simp only [h]) (fun s kind h => by simp only [h]; rfl) fun kind =>
    ((hf.update kind payload).andThen fun _ => .answer []).checkReg hf.mst

theorem macFinishCommand (hf : BesideMac E f) (a : Byte) (b : Half) (payload : List Byte) :
    Ignores f (macFinishCommand E a b payload) := by
  have hbody (kind : MacKind) : Ignores f fun s => .ok (blockBytes (macFinish E kind s).1) (macFinish E kind s).2 :=
    (hf.tag kind).andThen fun v => .answer (blockBytes v)
  have hchecked (kind : MacKind) : Ignores f fun s =>
      if s.mst = .finished then .raise .macFinished s
      else .ok (blockBytes (macFinish E kind s).1) (macFinish E kind s).2 := (hbody kind).checkReg hf.mst
  exact .check fun _ => .check fun _ =>
    .mkindCheck hf.mkind (fun s h => by simp only [h]) (fun s kind h => by simp only [h]) hchecked

end BesideMac

/-! ### The CTR unit (R192 to R194) -/

/-- One keystream byte is used (R193). -/
def useKeystreamByte (s : State) : State := { s with kpos := s.kpos + 1 }

/-- The update is beside everything the CTR unit does. -/
structure BesideCtr (E : Cipher) (f : State → State) : Prop where
  kctrLen : ∀ s, (f s).kctrLen = s.kctrLen
  cst : ∀ s, (f s).cst = s.cst
  ks : ∀ s, (f s).ks = s.ks
  kpos : ∀ s, (f s).kpos = s.kpos
  block : Ignores f (ctrNextBlock E)
  use : ∀ s, useKeystreamByte (f s) = f (useKeystreamByte s)
  setiv : ∀ iv s, ctrSetiv iv (f s) = f (ctrSetiv iv s)

namespace BesideCtr

variable {E : Cipher} {f : State → State}

theorem makeRoom (hf : BesideCtr E f) : Ignores f (ctrMakeRoom E) := by
  intro s
  unfold ctrMakeRoom
  rw [hf.kpos s]
  split
  case isTrue => exact hf.block s
  case isFalse => rfl

theorem ctrXor (hf : BesideCtr E f) (bytes : List Byte) : Ignores f (ctrXor E bytes) := by
  induction bytes with
  | nil => exact .answer []
  | cons d bytes ih =>
    have hbyte : ∀ s, blockByte (f s).ks (f s).kpos.val = blockByte s.ks s.kpos.val := fun s => by
      rw [hf.ks s, hf.kpos s]
    exact hf.makeRoom.andThen fun _ =>
      .read (k := fun z s => andThen (Machine.ctrXor E bytes (useKeystreamByte s)) fun out => .ok ((d ^^^ z) :: out))
        hbyte fun z => (ih.after hf.use).andThen fun out => .answer ((d ^^^ z) :: out)

theorem ctrSetivCommand (hf : BesideCtr E f) (a : Byte) (b : Half) (payload : List Byte) :
    Ignores f (ctrSetivCommand a b payload) :=
  .check fun _ => .check fun _ => (Ignores.ok [] (hf.setiv (blockOf payload))).checkReg hf.kctrLen

theorem ctrXorCommand (hf : BesideCtr E f) (a : Byte) (b : Half) (payload : List Byte) :
    Ignores f (ctrXorCommand E a b payload) :=
  .check fun _ => ((hf.ctrXor payload).checkReg hf.cst).checkReg hf.kctrLen

end BesideCtr

/-! ### The helpers (R100) -/

/-- The opcodes of the seven helpers. -/
def helperOpcodes : List Byte := [0x01, 0x02, 0x03, 0x04, 0x05, 0x06, 0x07]

theorem mem_answerOpcodes_of_mem_helperOpcodes : ∀ op ∈ helperOpcodes, op ∈ answerOpcodes := by decide

/-- A helper can be run before or after any update of the state. -/
theorem helper_ignores (E : Cipher) {i : Instr} (hop : i.opcode ∈ helperOpcodes) (f : State → State) :
    Ignores f (commandOf E i) := by
  cases i with
  | dbl a b payload => exact .check fun _ => .check fun _ => .answer _
  | dblinv a b payload => exact .check fun _ => .check fun _ => .answer _
  | xor a n payload => exact .check fun _ => .check fun _ => .check fun _ => .answer _
  | pad pos b payload => exact .check fun _ => .check fun _ => .check fun _ => .answer _
  | select bit b payload => exact .check fun _ => .check fun _ => .check fun _ => .answer _
  | cmp a n payload => exact .check fun _ => .check fun _ => .answer _
  | equal a n payload => exact .check fun _ => .check fun _ => .answer _
  | _ => exact absurd hop (by simp [Instr.opcode, helperOpcodes])

/-- The helpers and `GET_STATUS` end in the state they found. -/
theorem commandOf_answers (E : Cipher) {i : Instr} (hop : i.opcode ∈ answerOpcodes) (s : State) :
    ∃ r, commandOf E i s = endIn r s := by
  cases hearly : earlyError i s with
  | some e => exact ⟨.error e, commandOf_of_earlyError E hearly⟩
  | none =>
    have hpast := commandOf_pastChecks E hearly
    generalize commandOf E i s = m at hpast
    cases hpast with
    | @answer i out => exact ⟨.ok out, rfl⟩
    | _ => exact absurd hop (by simp [Instr.opcode, answerOpcodes])

/-- The answer of a helper is the same in every state. -/
theorem helper_answer (E : Cipher) {i : Instr} (hop : i.opcode ∈ helperOpcodes) :
    ∃ r, ∀ s, commandOf E i s = endIn r s := by
  obtain ⟨r, e⟩ := commandOf_answers E (mem_answerOpcodes_of_mem_helperOpcodes _ hop) State.reset
  refine ⟨r, fun s => ?_⟩
  have hmove := helper_ignores E hop (fun _ => s) State.reset
  rw [hmove, e]
  cases r with
  | ok out => rfl
  | error err => rfl

/-- A body that ends in the state it found: what its command leaves. -/
theorem complete_endIn {op : Byte} {r : Except Err (List Byte)} {s t : State}
    (h : complete op (endIn r s) = .next t) :
    registers t = { registers s with lasterr := t.lasterr, esticky := t.esticky } ∧ t.cipherPort = s.cipherPort ∧
      t.cmdStream = s.cmdStream := by
  cases r with
  | ok out => cases h; exact ⟨rfl, rfl, rfl⟩
  | error e => cases h; exact ⟨rfl, rfl, rfl⟩

theorem complete_endIn_response (op : Byte) (r : Except Err (List Byte)) :
    ∃ packet, ∀ s t, complete op (endIn r s) = .next t → t.respStream = s.respStream ++ packet := by
  cases r with
  | ok out => exact ⟨responsePacket okCode op out, fun s t h => by cases h; rfl⟩
  | error e => exact ⟨responsePacket (errCode e) op [], fun s t h => by cases h; rfl⟩

/-- Settles O21: the body ends in the state it found, and a helper's body could as well have run in any other state. -/
theorem helpersTouchNoRegister : Obligations.HelpersTouchNoRegister := by
  intro i s t h
  refine ⟨fun hop => ?frame, fun hop => ?response⟩
  case frame =>
    obtain ⟨r, e⟩ := commandOf_answers Config.E hop s
    rw [exec_eq_complete, e] at h
    exact complete_endIn h
  case response =>
    obtain ⟨r, e⟩ := helper_answer Config.E hop
    obtain ⟨packet, hpacket⟩ := complete_endIn_response i.opcode r
    have hresponse : ∀ s t, exec i s = .next t → t.respStream = s.respStream ++ packet := fun s t h =>
      hpacket s t (by rwa [exec_eq_complete, e] at h)
    exact ⟨packet, hresponse s t h, hresponse⟩

/-! ### The error log (R29) -/

/-- Another error log. -/
def withLog (l : BitVec 8) (x : BitVec 16) (s : State) : State := { s with lasterr := l, esticky := x }

section

variable (E : Cipher) (l : BitVec 8) (x : BitVec 16)

theorem besideMac_withLog : BesideMac E (withLog l x) where
  mkind _ := rfl
  mst _ := rfl
  absorbing := ⟨fun _ => rfl, fun _ => rfl, fun _ _ => rfl⟩
  feeding := {
    pos := fun _ => rfl
    block := fun _ => by
      rw [pmacBlock, pmacBlock, apply_dite (updateEnds _ _)]
      rfl
    byte := fun _ _ => rfl
    last := fun _ => rfl }
  reset _ := rfl
  finish kind _ := by cases kind <;> rfl

theorem besideCtr_withLog : BesideCtr E (withLog l x) where
  kctrLen _ := rfl
  cst _ := rfl
  ks _ := rfl
  kpos _ := rfl
  block _ := by
    simp only [ctrNextBlock, apply_ite (endingWith _)]
    rfl
  use _ := rfl
  setiv _ _ := rfl

theorem macOf_ignores_log (kind : MacKind) (bytes : List Byte) : Ignores (withLog l x) (macOf E kind bytes) :=
  (besideMac_withLog E l x).macOf kind bytes

theorem ctrXor_ignores_log (bytes : List Byte) : Ignores (withLog l x) (ctrXor E bytes) :=
  (besideCtr_withLog E l x).ctrXor bytes

theorem s2vItems_ignores_log (kind : MacKind) (items : List (List Byte)) :
    Ignores (withLog l x) (s2vItems E kind items) := by
  induction items with
  | nil => exact .answer ()
  | cons item items ih =>
    have hitem : Ignores (withLog l x) fun s => macOf E kind item { s with d := dbl s.d } :=
      (macOf_ignores_log E l x kind item).after fun _ => rfl
    have hrest (m : Block) : Ignores (withLog l x) fun s => s2vItems E kind items { s with d := s.d ^^^ m } :=
      ih.after fun _ => rfl
    exact hitem.andThen hrest

theorem s2vLast_withLog (p : List Byte) (s : State) : s2vLast p (withLog l x s) = withLog l x (s2vLast p s) := by
  unfold s2vLast
  split <;> rfl

theorem s2v_ignores_log (kind : MacKind) (items : List (List Byte)) (p : List Byte) :
    Ignores (withLog l x) (s2v E kind items p) := by
  have hmac := macOf_ignores_log E l x kind
  have hlast : Ignores (withLog l x) fun s => macOf E kind (p.take (p.length - 16) ++ blockBytes s.t) s :=
    .read (g := State.t) (k := fun t => macOf E kind (p.take (p.length - 16) ++ blockBytes t)) (fun _ => rfl) fun _ =>
      hmac _
  have hitems : Ignores (withLog l x) fun s => andThen (s2vItems E kind items s) fun _ s =>
      macOf E kind (p.take (p.length - 16) ++ blockBytes (s2vLast p s).t) (s2vLast p s) :=
    (s2vItems_ignores_log E l x kind items).andThen fun _ => hlast.after (s2vLast_withLog l x p)
  exact (hmac (List.replicate 16 0)).andThen fun d0 => hitems.after (u := fun s => { s with d := d0 }) fun _ => rfl

theorem sealBody_ignores_log (kind : MacKind) (items : List (List Byte)) (p : List Byte) :
    Ignores (withLog l x) (sealBody E kind items p) := by
  have hstream (v : Block) : Ignores (withLog l x) fun s => ctrXor E p (ctrSetiv (sivIv v) s) :=
    (ctrXor_ignores_log E l x p).after fun _ => rfl
  exact (s2v_ignores_log E l x kind items p).andThen fun v => (hstream v).andThen fun c => .answer (blockBytes v ++ c)

theorem openBody_ignores_log (kind : MacKind) (items : List (List Byte)) (c : List Byte) :
    Ignores (withLog l x) (openBody E kind items c) := by
  have hstream : Ignores (withLog l x) fun s => ctrXor E (c.drop 16) (ctrSetiv (sivIv (blockOf (c.take 16))) s) :=
    (ctrXor_ignores_log E l x (c.drop 16)).after fun _ => rfl
  have htag (plain : List Byte) : Ignores (withLog l x) fun s => s2v E kind items plain { s with p := plain } :=
    (s2v_ignores_log E l x kind items plain).after fun _ => rfl
  have hplain : Ignores (withLog l x) fun s => .ok s.p s := .read (g := State.p) (k := .ok) (fun _ => rfl) .answer
  exact hstream.andThen fun plain => (htag plain).andThen fun _ => .check fun _ => hplain

theorem s2vBody_ignores_log (kind : MacKind) (items : List (List Byte)) (p : List Byte) :
    Ignores (withLog l x) fun s => endingWith s2vEnd (andThen (s2v E kind items p s) fun v s => .ok (blockBytes v) s) :=
  ((s2v_ignores_log E l x kind items p).andThen fun v => .answer (blockBytes v)).ending fun _ => rfl

theorem sealEnding_ignores_log (kind : MacKind) (items : List (List Byte)) (p : List Byte) :
    Ignores (withLog l x) fun s =>
      if s.kctrLen = .noKey then .raise .noKey s else endingWith sivEnd (sealBody E kind items p s) :=
  ((sealBody_ignores_log E l x kind items p).ending (finish := sivEnd) fun _ => rfl).checkReg fun _ => rfl

theorem openEnding_ignores_log (kind : MacKind) (items : List (List Byte)) (c : List Byte) :
    Ignores (withLog l x) fun s =>
      if s.kctrLen = .noKey then .raise .noKey s
      else endingWith (fun s => sivEnd (wipeP s)) (openBody E kind items c s) :=
  ((openBody_ignores_log E l x kind items c).ending (finish := fun s => sivEnd (wipeP s)) fun _ => rfl).checkReg
    fun _ => rfl

theorem macLoad_withLog (kind : MacKind) (key : List Byte) (s : State) :
    macLoad E kind key (withLog l x s) = withLog l x (macLoad E kind key s) := by
  cases kind with
  | cmac => rfl
  | pmac => rfl

/-- Every command but `GET_STATUS` can be run before or after another log is put in place. -/
theorem commandOf_ignores_log {i : Instr} (hop : i.opcode ≠ 0x14) : Ignores (withLog l x) (commandOf E i) := by
  have hmac := besideMac_withLog E l x
  have hctr := besideCtr_withLog E l x
  by_cases hhelper : i.opcode ∈ helperOpcodes
  case pos => exact helper_ignores E hhelper _
  cases i with
  | sivInit a b key =>
    refine .check fun _ => ?_
    cases kindOf a with
    | none => exact .raise _
    | some kind =>
      exact .check fun _ => .ok [] fun s =>
        congrArg (ctrLoad (splitKey key).2) (macLoad_withLog E l x kind (splitKey key).1 s)
  | macInit a b key =>
    refine .check fun _ => ?_
    cases kindOf a with
    | none => exact .raise _
    | some kind => exact .check fun _ => .ok [] (macLoad_withLog E l x kind key)
  | ctrInit a b key => exact .check fun _ => .check fun _ => .ok [] fun _ => rfl
  | wipe a b payload => exact .check fun _ => .check fun _ => .ok [] fun _ => rfl
  | getStatus a b payload => exact absurd rfl hop
  | macReset a b payload => exact hmac.macResetCommand a b payload
  | macUpdate a b payload => exact hmac.macUpdateCommand a b payload
  | macFinish a b payload => exact hmac.macFinishCommand a b payload
  | ctrSetiv a b payload => exact hctr.ctrSetivCommand a b payload
  | ctrXor a b payload => exact hctr.ctrXorCommand a b payload
  | s2v nad b payload =>
    refine .check fun _ => ?_
    cases parseVector nad payload with
    | error e => exact .raise e
    | ok r =>
      exact .mkindCheck hmac.mkind (fun s h => by simp only [h]) (fun s kind h => by simp only [h]) fun kind =>
        s2vBody_ignores_log E l x kind r.1 r.2
  | sivSeal nad b payload =>
    refine .check fun _ => ?_
    cases parseVector nad payload with
    | error e => exact .raise e
    | ok r =>
      exact .check fun _ => .mkindCheck hmac.mkind (fun s h => by simp only [h]) (fun s kind h => by simp only [h])
        fun kind => sealEnding_ignores_log E l x kind r.1 r.2
  | sivOpen nad b payload =>
    refine .check fun _ => ?_
    cases parseVector nad payload with
    | error e => exact .raise e
    | ok r =>
      exact .check fun _ => .mkindCheck hmac.mkind (fun s h => by simp only [h]) (fun s kind h => by simp only [h])
        fun kind => openEnding_ignores_log E l x kind r.1 r.2
  | _ => exact absurd (by simp [Instr.opcode, helperOpcodes]) hhelper

end

/-- Settles O18: the body runs beside the other log, which only the end of the command then writes. -/
theorem errorLogIsReadByGetStatusAlone : Obligations.ErrorLogIsReadByGetStatusAlone := by
  intro i s t l x _ hop h
  have hbody : commandOf Config.E i { s with lasterr := l, esticky := x } =
      endingWith (withLog l x) (commandOf Config.E i s) := commandOf_ignores_log Config.E l x hop s
  rw [exec_eq_complete] at h
  rw [exec_eq_complete, hbody]
  obtain ⟨out, u, e, rfl⟩ | ⟨err, u, e, rfl⟩ := complete_next h
  · rw [e]
    exact ⟨l, x, rfl⟩
  · rw [e]
    exact ⟨errCode err, x ||| stickyBit err, rfl⟩

/-! ### The other side of the engine (R37, R190) -/

/-- A MAC side, and everything else as in `o`, whose requests came before. -/
def aroundMac (o u : State) : State :=
  { o with
    kmac := u.kmac, kmacLen := u.kmacLen, mkind := u.mkind, k1 := u.k1, k2 := u.k2, chain := u.chain, buf := u.buf
    pos := u.pos, mst := u.mst, lTab := u.lTab, linv := u.linv, offset := u.offset, tag := u.tag, cnt := u.cnt
    cipherPort := o.cipherPort ++ u.cipherPort }

/-- A CTR side, and everything else as in `o`, whose requests came before. -/
def aroundCtr (o u : State) : State :=
  { o with
    kctr := u.kctr, kctrLen := u.kctrLen, ctrblk := u.ctrblk, ks := u.ks, kpos := u.kpos, cst := u.cst
    cipherPort := o.cipherPort ++ u.cipherPort }

theorem aroundMac_macSide (s : State) : aroundMac s (macSide s) = s :=
  congrArg (fun port => { s with cipherPort := port }) (List.append_nil s.cipherPort)

theorem aroundCtr_ctrSide (s : State) : aroundCtr s (ctrSide s) = s :=
  congrArg (fun port => { s with cipherPort := port }) (List.append_nil s.cipherPort)

theorem besideMac_aroundMac (E : Cipher) (o : State) : BesideMac E (aroundMac o) where
  mkind _ := rfl
  mst _ := rfl
  absorbing := {
    pos := fun _ => rfl
    block := fun s => congrArg (fun port => { aroundMac o (cmacBlock E s) with cipherPort := port })
      (List.append_assoc o.cipherPort s.cipherPort _)
    byte := fun _ _ => rfl }
  feeding := {
    pos := fun _ => rfl
    block := fun s => by
      rw [pmacBlock, pmacBlock, apply_dite (updateEnds _ _)]
      simp [updateEnds, encipher, aroundMac, keyBytes, pmacLimit]
    byte := fun _ _ => rfl
    last := fun _ => rfl }
  reset _ := rfl
  finish kind s := by
    cases kind with
    | cmac =>
      exact Prod.ext rfl (congrArg (fun port => { aroundMac o (cmacFinish E s).2 with cipherPort := port })
        (List.append_assoc o.cipherPort s.cipherPort _))
    | pmac =>
      exact Prod.ext rfl (congrArg (fun port => { aroundMac o (pmacFinish E s).2 with cipherPort := port })
        (List.append_assoc o.cipherPort s.cipherPort _))

theorem besideCtr_aroundCtr (E : Cipher) (o : State) : BesideCtr E (aroundCtr o) where
  kctrLen _ := rfl
  cst _ := rfl
  ks _ := rfl
  kpos _ := rfl
  block s := by
    simp only [ctrNextBlock, apply_ite (endingWith _)]
    simp [encipher, aroundCtr, keyBytes, ctrClear]
  use _ := rfl
  setiv _ _ := rfl

/-- Two ends of a command with the same answer, in states with the same view. -/
structure SameEnd (view : State → State) (m m' : Proc (List Byte)) : Prop where
  status : statusOf m' = statusOf m
  payload : payloadOf m' = payloadOf m
  state : view (finalState m') = view (finalState m)

/-- Run beside everything but the view, a body ends in the same way wherever the view is the same. -/
theorem sameEnd_of_ignores {view : State → State} {around : State → State → State} {m : State → Proc (List Byte)}
    (haround : ∀ s, around s (view s) = s) (hview : ∀ o u, view (around o u) = view u)
    (hlog : ∀ e u, view (logError e u) = view u) (hm : ∀ o, Ignores (around o) m) {s s' : State}
    (h : view s' = view s) : SameEnd view (m s) (m s') := by
  have hs : m s = endingWith (around s) (m (view s)) := by rw [← hm s, haround]
  have hs' : m s' = endingWith (around s') (m (view s)) := by rw [← hm s', ← h, haround]
  rw [hs, hs']
  cases m (view s) with
  | ok out t => exact ⟨rfl, rfl, by simp only [endingWith_ok, finalState, hview]⟩
  | raise e t => exact ⟨rfl, rfl, by simp only [endingWith_raise, finalState, hlog, hview]⟩

theorem sameEnd_mac {m : State → Proc (List Byte)} (hm : ∀ o, Ignores (aroundMac o) m) {s s' : State}
    (h : macSide s' = macSide s) : SameEnd macSide (m s) (m s') :=
  sameEnd_of_ignores aroundMac_macSide (fun _ _ => rfl) (fun _ _ => rfl) hm h

theorem sameEnd_ctr {m : State → Proc (List Byte)} (hm : ∀ o, Ignores (aroundCtr o) m) {s s' : State}
    (h : ctrSide s' = ctrSide s) : SameEnd ctrSide (m s) (m s') :=
  sameEnd_of_ignores aroundCtr_ctrSide (fun _ _ => rfl) (fun _ _ => rfl) hm h

/-- The tags are those of the MAC side (R23, R24, R26). -/
theorem macTag_eq_of_macSide_eq (E : Cipher) (kind : MacKind) {s s' : State} (h : macSide s' = macSide s) :
    macTag E kind s' = macTag E kind s := by
  show macTag E kind (macSide s') = macTag E kind (macSide s)
  rw [h]

/-- `S2V` starts from an empty unit and writes its transients before it reads them (R213). -/
theorem s2vCommand_sameEnd (E : Cipher) (nad : Byte) (b : Half) {payload : List Byte} (hlen : payload.length < 2 ^ 32)
    {s s' : State} (h : macSide s' = macSide s) :
    SameEnd macSide (s2vCommand E nad b payload s) (s2vCommand E nad b payload s') := by
  have hmkind : s'.mkind = s.mkind := (congrArg State.mkind h :)
  have hraise (e : Err) : SameEnd macSide (.raise e s) (.raise e s') := ⟨rfl, rfl, h⟩
  unfold s2vCommand
  split
  case isTrue => exact hraise _
  case isFalse =>
    cases hparse : parseVector nad payload with
    | error e => exact hraise e
    | ok r =>
      obtain ⟨items, p⟩ := r
      obtain ⟨hp, hitems⟩ := parseVector_lengths hlen hparse
      rw [hmkind]
      cases s.mkind with
      | none => exact hraise _
      | some kind =>
        obtain ⟨reqs, e, -⟩ := s2vBody_eq E kind items p s hitems hp
        obtain ⟨reqs', e', -⟩ := s2vBody_eq E kind items p s' hitems hp
        dsimp only
        rw [e, e', macTag_eq_of_macSide_eq E kind h]
        exact ⟨rfl, rfl, (congrArg macReset h :)⟩

theorem commandOf_sameEnd_mac (E : Cipher) {i : Instr} (hlen : i.WellFormed)
    (hop : i.opcode ∈ [0x20#8, 0x21#8, 0x22#8, 0x40#8]) {s s' : State} (h : macSide s' = macSide s) :
    SameEnd macSide (commandOf E i s) (commandOf E i s') := by
  have hmac := besideMac_aroundMac E
  cases i with
  | macReset a b payload => exact sameEnd_mac (fun o => (hmac o).macResetCommand a b payload) h
  | macUpdate a b payload => exact sameEnd_mac (fun o => (hmac o).macUpdateCommand a b payload) h
  | macFinish a b payload => exact sameEnd_mac (fun o => (hmac o).macFinishCommand a b payload) h
  | s2v nad b payload => exact s2vCommand_sameEnd E nad b hlen h
  | _ => exact absurd hop (by simp [Instr.opcode])

theorem commandOf_sameEnd_ctr (E : Cipher) {i : Instr} (hop : i.opcode ∈ [0x30#8, 0x31#8]) {s s' : State}
    (h : ctrSide s' = ctrSide s) : SameEnd ctrSide (commandOf E i s) (commandOf E i s') := by
  have hctr := besideCtr_aroundCtr E
  cases i with
  | ctrSetiv a b payload => exact sameEnd_ctr (fun o => (hctr o).ctrSetivCommand a b payload) h
  | ctrXor a b payload => exact sameEnd_ctr (fun o => (hctr o).ctrXorCommand a b payload) h
  | _ => exact absurd hop (by simp [Instr.opcode])

/-- Bodies that end alike are answered alike. -/
theorem SameEnd.response {view : State → State} {i : Instr} {s s' t t' : State} (hlen : i.WellFormed)
    (ht : exec i s = .next t) (ht' : exec i s' = .next t')
    (h : SameEnd view (commandOf Config.E i s) (commandOf Config.E i s')) :
    ∃ r, t.respStream = s.respStream ++ r ∧ t'.respStream = s'.respStream ++ r := by
  obtain ⟨hstatus, hpayload, -⟩ := h
  rw [exec_next_eq ht, exec_next_eq ht', hstatus, hpayload]
  refine ⟨responsePacket (statusOf (commandOf Config.E i s)) i.opcode (payloadOf (commandOf Config.E i s)), ?_, ?_⟩
  · rw [respond_respStream, (commandOf_answersFrom Config.E s hlen).respStream]
  · rw [respond_respStream, (commandOf_answersFrom Config.E s' hlen).respStream]

/-- Settles O23: on two states with the same side the bodies of that side end alike, and what ends them touches neither
side. -/
theorem unitsAreReadSeparately : Obligations.UnitsAreReadSeparately := by
  intro i s s' t t' hlen ht ht'
  refine ⟨fun hop hkmac hkmacLen hmkind hunit => ?mac, fun hop hkctr hkctrLen hunit => ?ctr⟩
  case mac =>
    have hend := commandOf_sameEnd_mac Config.E hlen hop (macSide_eq_iff.mpr ⟨hkmac, hkmacLen, hmkind, hunit⟩)
    have hside : macSide t' = macSide t := by
      rw [exec_next_eq ht, exec_next_eq ht']
      exact hend.state
    obtain ⟨-, -, -, hunit'⟩ := macSide_eq_iff.mp hside
    exact ⟨hunit', hend.response hlen ht ht'⟩
  case ctr =>
    have hend := commandOf_sameEnd_ctr Config.E hop (ctrSide_eq_iff.mpr ⟨hkctr, hkctrLen, hunit⟩)
    have hside : ctrSide t' = ctrSide t := by
      rw [exec_next_eq ht, exec_next_eq ht']
      exact hend.state
    obtain ⟨-, -, hunit'⟩ := ctrSide_eq_iff.mp hside
    exact ⟨hunit', hend.response hlen ht ht'⟩

end Sys2Proof.Machine
end
